-- ==== Sys2Proof/Word.lean ====
section
/-!
DEFINITION. The widths of the machine and the plain words it is made of
(`00_scope.md` R3 to R7, `20_memory.md` R51).
-/
namespace Sys2Proof

/-- The register width `XLEN` is 32 or 64 (`00_scope.md` R3). -/
inductive Xlen where
  | rv32
  | rv64
  deriving DecidableEq, Repr

/-- `XLEN` as a number of bits. -/
def Xlen.bits : Xlen → Nat
  | .rv32 => 32
  | .rv64 => 64

/-- The other width. -/
def Xlen.other : Xlen → Xlen
  | .rv32 => .rv64
  | .rv64 => .rv32

/-- A byte of memory (`20_memory.md` R51). -/
abbrev Byte := BitVec 8

/-- The 64-bit cell that stores one register. At `XLEN = 32` only its low half is ever seen:
every access goes through a view of the current width (log entry 24). -/
abbrev RegCell := BitVec 64

/-- A 5-bit register number, 0 to 31 (`10_state.md` R20, R30). -/
abbrev Reg := BitVec 5

/-- A 3-bit register number of a compressed instruction (`30_encoding.md` R111). -/
abbrev CReg := BitVec 3

/-- A 12-bit CSR number (`10_state.md` R34). -/
abbrev CsrNum := BitVec 12

/-- An instruction as it stands in memory: one 16-bit parcel, or a 32-bit word made of two
(`30_encoding.md` R80, R82). -/
inductive Code where
  | half (w : BitVec 16)
  | full (w : BitVec 32)
  deriving DecidableEq, Repr

/-- `ilen`, the length in bytes (`10_state.md` R25). -/
def Code.len : Code → Nat
  | .half _ => 2
  | .full _ => 4

/-- The instruction word zero-extended to 64 bits: the `tval` of an illegal instruction
(`60_exceptions.md` R330). -/
def Code.zext : Code → BitVec 64
  | .half w => w.setWidth 64
  | .full w => w.setWidth 64

end Sys2Proof
end

