-- ==== Sys2Proof/Machine/Flags.lean ====
section
/-!
DEFINITION. Conditions. The machine has no flags, condition codes or predicate registers
(`10_state.md` R28): a branch compares two registers inside itself (`42_branches.md` R170 to R176),
and the min and max of an AMO compare the same two ways (`41_atomics.md` R142). These comparisons,
at any width, are all there is.
-/
namespace Sys2Proof.Machine

/-- `a ≥_s b` (`00_scope.md` R5). -/
def geSigned {w : Nat} (a b : BitVec w) : Bool := decide (a.toInt ≥ b.toInt)

/-- `a <_s b`. -/
def ltSigned {w : Nat} (a b : BitVec w) : Bool := decide (a.toInt < b.toInt)

/-- `a ≥_u b`. -/
def geUnsigned {w : Nat} (a b : BitVec w) : Bool := decide (a.toNat ≥ b.toNat)

/-- `a <_u b`. -/
def ltUnsigned {w : Nat} (a b : BitVec w) : Bool := decide (a.toNat < b.toNat)

/-- `a ≤_s b`. -/
def leSigned {w : Nat} (a b : BitVec w) : Bool := decide (a.toInt ≤ b.toInt)

/-- `a ≤_u b`. -/
def leUnsigned {w : Nat} (a b : BitVec w) : Bool := decide (a.toNat ≤ b.toNat)

end Sys2Proof.Machine
end

