-- ==== Sys2Proof/Config.lean ====
section
/-!
DEFINITION. The launch parameters of the machine (`00_scope.md` R3, `92_eei_decisions.md`
"Parameters left OPEN"). They are plain data, so that a state can carry the parameters it runs
under (log entry 1). `HAS_V = false` and `NHARTS = 1` are fixed by the spec and have no field;
`FLEN` and `CauseCode` are functions, in `Machine/Ops.lean`.
-/
namespace Sys2Proof

/-- `MISALIGNED` (`00_scope.md` R3, `20_memory.md` R55). -/
inductive Misaligned where
  | trap
  | split
  deriving DecidableEq, Repr

/-- `CsrKind` of one CSR number (`10_state.md` R35, R36). -/
inductive CsrKind where
  | absent
  | plain
  | other
  deriving DecidableEq, Repr

/-- `ECALL_CODE`: the number `CauseCode` gives `EnvironmentCall` (`60_exceptions.md` R332). -/
inductive EcallCode where
  | code8
  | code9
  | code11
  deriving DecidableEq, Repr

/-- One region of `MemMap`: `size` byte addresses from `base` on, with their permissions
(`20_memory.md` R57). -/
structure Region where
  base : Nat
  size : Nat
  readable : Bool
  writable : Bool
  executable : Bool
  deriving DecidableEq, Repr

/-- The parameters of a launch (`00_scope.md` R3). -/
structure Config where
  /-- `XLEN`. -/
  xlen : Xlen
  /-- `HAS_M`. -/
  hasM : Bool
  /-- `HAS_A`. -/
  hasA : Bool
  /-- `HAS_F`. -/
  hasF : Bool
  /-- `HAS_D`. -/
  hasD : Bool
  /-- `HAS_C`. -/
  hasC : Bool
  /-- `MISALIGNED`. -/
  misaligned : Misaligned
  /-- `MemMap`: the first region that holds an address gives its permissions; an address in no
  region has none (log entry 27). -/
  memMap : List Region
  /-- `CsrKind`, for the numbers that are not `absent`: the first entry of a number counts. -/
  csrKinds : List (Nat × CsrKind)
  /-- `ECALL_CODE`. -/
  ecallCode : EcallCode
  /-- `RESET_PC`; `70_reset_and_hazards.md` R371 asks that it be even. -/
  resetPc : BitVec 64
  deriving DecidableEq, Repr

end Sys2Proof
end

