-- ==== Sys2Proof/Machine/Launch.lean ====
section
/-!
DEFINITION. The parameters `State.reset` launches with. Every one that the spec leaves OPEN
(`92_eei_decisions.md`, last section) without a default is a choice of the model, named in a log
entry; no statement about every state depends on any of them.
-/
namespace Sys2Proof.Machine

/-- `XLEN` of the default launch. DESIGN CHOICE (log entry 2): the spec leaves it OPEN
(`00_scope.md` R3). -/
def launchXlen : Xlen := .rv64

/-- `RESET_PC` of the default launch. DESIGN CHOICE (log entry 3): the spec leaves it OPEN and
asks that it be even (`70_reset_and_hazards.md` R371). -/
def launchPc : BitVec 64 := 0x1000

/-- `MemMap` of the default launch: a page of code at `RESET_PC`, readable and executable; every
other byte of the address space readable and writable. DESIGN CHOICE (log entry 3): the spec leaves
it OPEN (`20_memory.md` R57, R63). -/
def launchMap : List Region :=
  [{ base := 0x1000, size := 0x1000, readable := true, writable := false, executable := true },
   { base := 0, size := 2 ^ 64, readable := true, writable := true, executable := false }]

/-- The parameters of the default launch. The extensions, `MISALIGNED`, `CsrKind` and `ECALL_CODE`
have the defaults of `00_scope.md` R3. -/
def launchConfig : Config where
  xlen := launchXlen
  hasM := true
  hasA := true
  hasF := true
  hasD := true
  hasC := true
  misaligned := .trap
  memMap := launchMap
  csrKinds := []
  ecallCode := .code11
  resetPc := launchPc

end Sys2Proof.Machine
end

