-- ==== Sys2Proof/Syntax.lean ====
section
/-!
DEFINITION. The syntax: one constructor for each of the 84 rows of `opcode_table.json`
(`30_encoding.md` R80, R101, R102), in the table's order, with the operands of
`30_encoding.md` R112.

Immediates and offsets are kept as the bits the encoding holds, most significant first, without
the low zero bits that the scaling implies (`30_encoding.md` R107 to R110); `Machine/Operands.lean`
assembles the value. So `offset : BitVec 12` of a branch is offset[12:1], `uimm : BitVec 5` of
c.lw is uimm[6:2], `imm : BitVec 6` of c.addi16sp is imm[9:4], and so on.
-/
namespace Sys2Proof

/-- The machine instructions of the excerpt (`00_scope.md` R2). -/
inductive Instr where
  /-- `add` (`40_integer_arith.md` R121). -/
  | add (rd rs1 rs2 : Reg)
  /-- `addi` (`40_integer_arith.md` R122). -/
  | addi (rd rs1 : Reg) (imm : BitVec 12)
  /-- `addiw` (`40_integer_arith.md` R123). -/
  | addiw (rd rs1 : Reg) (imm : BitVec 12)
  /-- `addw` (`40_integer_arith.md` R124). -/
  | addw (rd rs1 rs2 : Reg)
  /-- `amoadd.d` (`41_atomics.md` R143). -/
  | amoaddD (aq rl : BitVec 1) (rd rs2 rs1 : Reg)
  /-- `amoadd.w` (`41_atomics.md` R144). -/
  | amoaddW (aq rl : BitVec 1) (rd rs2 rs1 : Reg)
  /-- `amoand.d` (`41_atomics.md` R145). -/
  | amoandD (aq rl : BitVec 1) (rd rs2 rs1 : Reg)
  /-- `amoand.w` (`41_atomics.md` R146). -/
  | amoandW (aq rl : BitVec 1) (rd rs2 rs1 : Reg)
  /-- `amomax.d` (`41_atomics.md` R147). -/
  | amomaxD (aq rl : BitVec 1) (rd rs2 rs1 : Reg)
  /-- `amomax.w` (`41_atomics.md` R148). -/
  | amomaxW (aq rl : BitVec 1) (rd rs2 rs1 : Reg)
  /-- `amomaxu.d` (`41_atomics.md` R149). -/
  | amomaxuD (aq rl : BitVec 1) (rd rs2 rs1 : Reg)
  /-- `amomaxu.w` (`41_atomics.md` R150). -/
  | amomaxuW (aq rl : BitVec 1) (rd rs2 rs1 : Reg)
  /-- `amomin.d` (`41_atomics.md` R151). -/
  | amominD (aq rl : BitVec 1) (rd rs2 rs1 : Reg)
  /-- `amomin.w` (`41_atomics.md` R152). -/
  | amominW (aq rl : BitVec 1) (rd rs2 rs1 : Reg)
  /-- `amominu.d` (`41_atomics.md` R153). -/
  | amominuD (aq rl : BitVec 1) (rd rs2 rs1 : Reg)
  /-- `amominu.w` (`41_atomics.md` R154). -/
  | amominuW (aq rl : BitVec 1) (rd rs2 rs1 : Reg)
  /-- `amoor.d` (`41_atomics.md` R155). -/
  | amoorD (aq rl : BitVec 1) (rd rs2 rs1 : Reg)
  /-- `amoor.w` (`41_atomics.md` R156). -/
  | amoorW (aq rl : BitVec 1) (rd rs2 rs1 : Reg)
  /-- `amoswap.d` (`41_atomics.md` R157). -/
  | amoswapD (aq rl : BitVec 1) (rd rs2 rs1 : Reg)
  /-- `amoswap.w` (`41_atomics.md` R158). -/
  | amoswapW (aq rl : BitVec 1) (rd rs2 rs1 : Reg)
  /-- `amoxor.d` (`41_atomics.md` R159). -/
  | amoxorD (aq rl : BitVec 1) (rd rs2 rs1 : Reg)
  /-- `amoxor.w` (`41_atomics.md` R160). -/
  | amoxorW (aq rl : BitVec 1) (rd rs2 rs1 : Reg)
  /-- `and` (`40_integer_arith.md` R125). -/
  | and (rd rs1 rs2 : Reg)
  /-- `andi` (`40_integer_arith.md` R126). -/
  | andi (rd rs1 : Reg) (imm : BitVec 12)
  /-- `auipc` (`40_integer_arith.md` R127). -/
  | auipc (rd : Reg) (imm : BitVec 20)
  /-- `beq` (`42_branches.md` R171). -/
  | beq (rs1 rs2 : Reg) (offset : BitVec 12)
  /-- `bge` (`42_branches.md` R172). -/
  | bge (rs1 rs2 : Reg) (offset : BitVec 12)
  /-- `bgeu` (`42_branches.md` R173). -/
  | bgeu (rs1 rs2 : Reg) (offset : BitVec 12)
  /-- `blt` (`42_branches.md` R174). -/
  | blt (rs1 rs2 : Reg) (offset : BitVec 12)
  /-- `bltu` (`42_branches.md` R175). -/
  | bltu (rs1 rs2 : Reg) (offset : BitVec 12)
  /-- `bne` (`42_branches.md` R176). -/
  | bne (rs1 rs2 : Reg) (offset : BitVec 12)
  /-- `c.add` (`43_compressed_alu.md` R201). -/
  | cAdd (rd rs2 : Reg)
  /-- `c.addi` (`43_compressed_alu.md` R202). -/
  | cAddi (rd : Reg) (imm : BitVec 6)
  /-- `c.addi16sp` (`43_compressed_alu.md` R203). -/
  | cAddi16sp (imm : BitVec 6)
  /-- `c.addi4spn` (`43_compressed_alu.md` R204). -/
  | cAddi4spn (rd : CReg) (uimm : BitVec 8)
  /-- `c.addiw` (`43_compressed_alu.md` R205). -/
  | cAddiw (rd : Reg) (imm : BitVec 6)
  /-- `c.and` (`43_compressed_alu.md` R206). -/
  | cAnd (rd rs2 : CReg)
  /-- `c.addw` (`43_compressed_alu.md` R207). -/
  | cAddw (rd rs2 : CReg)
  /-- `c.andi` (`43_compressed_alu.md` R208). -/
  | cAndi (rd : CReg) (imm : BitVec 6)
  /-- `c.beqz` (`44_compressed_mem_ctrl.md` R251). -/
  | cBeqz (rs1 : CReg) (offset : BitVec 8)
  /-- `c.bnez` (`44_compressed_mem_ctrl.md` R252). -/
  | cBnez (rs1 : CReg) (offset : BitVec 8)
  /-- `c.ebreak` (`44_compressed_mem_ctrl.md` R253). -/
  | cEbreak
  /-- `c.fld` (`44_compressed_mem_ctrl.md` R231). -/
  | cFld (rd : CReg) (uimm : BitVec 5) (rs1 : CReg)
  /-- `c.fldsp` (`44_compressed_mem_ctrl.md` R232). -/
  | cFldsp (rd : Reg) (uimm : BitVec 6)
  /-- `c.flw` (`44_compressed_mem_ctrl.md` R233). -/
  | cFlw (rd : CReg) (uimm : BitVec 5) (rs1 : CReg)
  /-- `c.flwsp` (`44_compressed_mem_ctrl.md` R234). -/
  | cFlwsp (rd : Reg) (uimm : BitVec 6)
  /-- `c.fsd` (`44_compressed_mem_ctrl.md` R235). -/
  | cFsd (rs2 : CReg) (uimm : BitVec 5) (rs1 : CReg)
  /-- `c.fsdsp` (`44_compressed_mem_ctrl.md` R236). -/
  | cFsdsp (rs2 : Reg) (uimm : BitVec 6)
  /-- `c.fsw` (`44_compressed_mem_ctrl.md` R237). -/
  | cFsw (rs2 : CReg) (uimm : BitVec 5) (rs1 : CReg)
  /-- `c.fswsp` (`44_compressed_mem_ctrl.md` R238). -/
  | cFswsp (rs2 : Reg) (uimm : BitVec 6)
  /-- `c.j` (`44_compressed_mem_ctrl.md` R254). -/
  | cJ (offset : BitVec 11)
  /-- `c.jal` (`44_compressed_mem_ctrl.md` R255). -/
  | cJal (offset : BitVec 11)
  /-- `c.jalr` (`44_compressed_mem_ctrl.md` R256). -/
  | cJalr (rs1 : Reg)
  /-- `c.jr` (`44_compressed_mem_ctrl.md` R257). -/
  | cJr (rs1 : Reg)
  /-- `c.ld` (`44_compressed_mem_ctrl.md` R239). -/
  | cLd (rd : CReg) (uimm : BitVec 5) (rs1 : CReg)
  /-- `c.ldsp` (`44_compressed_mem_ctrl.md` R240). -/
  | cLdsp (rd : Reg) (uimm : BitVec 6)
  /-- `c.li` (`43_compressed_alu.md` R209). -/
  | cLi (rd : Reg) (imm : BitVec 6)
  /-- `c.lui` (`43_compressed_alu.md` R210). -/
  | cLui (rd : Reg) (imm : BitVec 6)
  /-- `c.lw` (`44_compressed_mem_ctrl.md` R241). -/
  | cLw (rd : CReg) (uimm : BitVec 5) (rs1 : CReg)
  /-- `c.lwsp` (`44_compressed_mem_ctrl.md` R242). -/
  | cLwsp (rd : Reg) (uimm : BitVec 6)
  /-- `c.mv` (`43_compressed_alu.md` R211). -/
  | cMv (rd rs2 : Reg)
  /-- `c.or` (`43_compressed_alu.md` R212). -/
  | cOr (rd rs2 : CReg)
  /-- `c.sd` (`44_compressed_mem_ctrl.md` R243). -/
  | cSd (rs2 : CReg) (uimm : BitVec 5) (rs1 : CReg)
  /-- `c.sdsp` (`44_compressed_mem_ctrl.md` R244). -/
  | cSdsp (rs2 : Reg) (uimm : BitVec 6)
  /-- `c.slli` (`43_compressed_alu.md` R213). -/
  | cSlli (rd : Reg) (uimm : BitVec 6)
  /-- `c.srai` (`43_compressed_alu.md` R214). -/
  | cSrai (rd : CReg) (uimm : BitVec 6)
  /-- `c.srli` (`43_compressed_alu.md` R215). -/
  | cSrli (rd : CReg) (uimm : BitVec 6)
  /-- `c.sub` (`43_compressed_alu.md` R216). -/
  | cSub (rd rs2 : CReg)
  /-- `c.subw` (`43_compressed_alu.md` R217). -/
  | cSubw (rd rs2 : CReg)
  /-- `c.sw` (`44_compressed_mem_ctrl.md` R245). -/
  | cSw (rs2 : CReg) (uimm : BitVec 5) (rs1 : CReg)
  /-- `c.swsp` (`44_compressed_mem_ctrl.md` R246). -/
  | cSwsp (rs2 : Reg) (uimm : BitVec 6)
  /-- `c.xor` (`43_compressed_alu.md` R218). -/
  | cXor (rd rs2 : CReg)
  /-- `csrrc` (`45_csr.md` R271). -/
  | csrrc (rd : Reg) (csr : CsrNum) (rs1 : Reg)
  /-- `csrrci` (`45_csr.md` R272). -/
  | csrrci (rd : Reg) (csr : CsrNum) (zimm : BitVec 5)
  /-- `csrrs` (`45_csr.md` R273). -/
  | csrrs (rd : Reg) (csr : CsrNum) (rs1 : Reg)
  /-- `csrrsi` (`45_csr.md` R274). -/
  | csrrsi (rd : Reg) (csr : CsrNum) (zimm : BitVec 5)
  /-- `csrrw` (`45_csr.md` R275). -/
  | csrrw (rd : Reg) (csr : CsrNum) (rs1 : Reg)
  /-- `csrrwi` (`45_csr.md` R276). -/
  | csrrwi (rd : Reg) (csr : CsrNum) (zimm : BitVec 5)
  /-- `div` (`46_div.md` R301). -/
  | div (rd rs1 rs2 : Reg)
  /-- `divu` (`46_div.md` R302). -/
  | divu (rd rs1 rs2 : Reg)
  /-- `divuw` (`46_div.md` R303). -/
  | divuw (rd rs1 rs2 : Reg)
  /-- `divw` (`46_div.md` R304). -/
  | divw (rd rs1 rs2 : Reg)
  /-- `ebreak` (`47_system.md` R310). -/
  | ebreak
  /-- `ecall` (`47_system.md` R311). -/
  | ecall
  deriving DecidableEq, Repr

end Sys2Proof
end

