-- ==== Sys2Proof/WellFormed.lean ====
section
/-!
DEFINITION. When an instruction exists under the launch parameters, and which operand values it
may have (`30_encoding.md` R100 to R103, the columns `xlen`, `requires` and `constraints` of
`opcode_table.json`). An instruction that is not well-formed has no encoding of its own: its word
is another instruction's, illegal, or refused.
-/
namespace Sys2Proof

/-- The row exists at this `XLEN` and all the extensions it requires are present
(`30_encoding.md` R101, R102; `41_atomics.md` R141; `43_compressed_alu.md` R200 (e), (f);
`44_compressed_mem_ctrl.md` R230 (g); `46_div.md` R300). -/
def Instr.available (cfg : Config) : Instr → Bool
  | .add .. | .addi .. | .and .. | .andi .. | .auipc .. | .beq .. | .bge .. | .bgeu .. | .blt ..
  | .bltu .. | .bne .. | .csrrc .. | .csrrci .. | .csrrs .. | .csrrsi .. | .csrrw .. | .csrrwi ..
  | .ebreak | .ecall
    => true
  | .addiw .. | .addw ..
    => cfg.xlen == .rv64
  | .amoaddD .. | .amoandD .. | .amomaxD .. | .amomaxuD .. | .amominD .. | .amominuD ..
  | .amoorD .. | .amoswapD .. | .amoxorD ..
    => cfg.xlen == .rv64 && cfg.hasA
  | .amoaddW .. | .amoandW .. | .amomaxW .. | .amomaxuW .. | .amominW .. | .amominuW ..
  | .amoorW .. | .amoswapW .. | .amoxorW ..
    => cfg.hasA
  | .cAdd .. | .cAddi .. | .cAddi16sp .. | .cAddi4spn .. | .cAnd .. | .cAndi .. | .cBeqz ..
  | .cBnez .. | .cEbreak | .cJ .. | .cJalr .. | .cJr .. | .cLi .. | .cLui .. | .cLw ..
  | .cLwsp .. | .cMv .. | .cOr .. | .cSlli .. | .cSrai .. | .cSrli .. | .cSub .. | .cSw ..
  | .cSwsp .. | .cXor ..
    => cfg.hasC
  | .cAddiw .. | .cAddw .. | .cLd .. | .cLdsp .. | .cSd .. | .cSdsp .. | .cSubw ..
    => cfg.xlen == .rv64 && cfg.hasC
  | .cFld .. | .cFldsp .. | .cFsd .. | .cFsdsp ..
    => cfg.hasC && cfg.hasD
  | .cFlw .. | .cFlwsp .. | .cFsw .. | .cFswsp ..
    => cfg.xlen == .rv32 && cfg.hasC && cfg.hasF
  | .cJal ..
    => cfg.xlen == .rv32 && cfg.hasC
  | .div .. | .divu ..
    => cfg.hasM
  | .divuw .. | .divw ..
    => cfg.xlen == .rv64 && cfg.hasM

/-- A compressed shift amount fits the register: at `XLEN = 32` bit 5 of it is 0
(`30_encoding.md` R103 item 13). -/
def Config.shiftFits (cfg : Config) (uimm : BitVec 6) : Bool :=
  cfg.xlen == .rv64 || uimm.extractLsb' 5 1 == 0

/-- The operand values the row admits (`30_encoding.md` R103; the column `constraints`). -/
def Instr.operandsLegal (cfg : Config) : Instr → Bool
  | .cAdd rd rs2 => rd != 0 && rs2 != 0
  | .cAddi16sp imm => imm != 0
  | .cAddi4spn _ uimm => uimm != 0
  | .cAddiw rd _ => rd != 0
  | .cJalr rs1 => rs1 != 0
  | .cJr rs1 => rs1 != 0
  | .cLdsp rd _ => rd != 0
  | .cLui rd imm => rd != 2 && imm != 0
  | .cLwsp rd _ => rd != 0
  | .cMv _ rs2 => rs2 != 0
  | .cSlli _ uimm => cfg.shiftFits uimm
  | .cSrai _ uimm => cfg.shiftFits uimm
  | .cSrli _ uimm => cfg.shiftFits uimm
  | .add .. | .addi .. | .addiw .. | .addw .. | .amoaddD .. | .amoaddW .. | .amoandD ..
  | .amoandW .. | .amomaxD .. | .amomaxW .. | .amomaxuD .. | .amomaxuW .. | .amominD ..
  | .amominW .. | .amominuD .. | .amominuW .. | .amoorD .. | .amoorW .. | .amoswapD ..
  | .amoswapW .. | .amoxorD .. | .amoxorW .. | .and .. | .andi .. | .auipc .. | .beq .. | .bge ..
  | .bgeu .. | .blt .. | .bltu .. | .bne .. | .cAddi .. | .cAnd .. | .cAddw .. | .cAndi ..
  | .cBeqz .. | .cBnez .. | .cEbreak | .cFld .. | .cFldsp .. | .cFlw .. | .cFlwsp .. | .cFsd ..
  | .cFsdsp .. | .cFsw .. | .cFswsp .. | .cJ .. | .cJal .. | .cLd .. | .cLi .. | .cLw ..
  | .cOr .. | .cSd .. | .cSdsp .. | .cSub .. | .cSubw .. | .cSw .. | .cSwsp .. | .cXor ..
  | .csrrc .. | .csrrci .. | .csrrs .. | .csrrsi .. | .csrrw .. | .csrrwi .. | .div .. | .divu ..
  | .divuw .. | .divw .. | .ebreak | .ecall
    => true

/-- A well-formed instruction of the machine launched with `cfg`. -/
def Instr.wellFormed (cfg : Config) (i : Instr) : Bool :=
  i.available cfg && i.operandsLegal cfg

end Sys2Proof
end

