-- ==== Sys2Proof/Decode.lean ====
section
/-!
DEFINITION. Decoding (`30_encoding.md` R80 to R111) and, after it, the encoder. `decode` is total:
a word is an instruction, an illegal encoding (R103), or not an instruction of the excerpt (R104).
-/
namespace Sys2Proof

/-! ## Fields of a 32-bit word (`30_encoding.md` R83 to R88) -/

/-- Bits 6:0. -/
def opcodeOf (w : BitVec 32) : BitVec 7 := w.extractLsb' 0 7
/-- Bits 11:7. -/
def rdOf (w : BitVec 32) : Reg := w.extractLsb' 7 5
/-- Bits 14:12. -/
def funct3Of (w : BitVec 32) : BitVec 3 := w.extractLsb' 12 3
/-- Bits 19:15; in the immediate CSR forms these are `zimm[4:0]`. -/
def rs1Of (w : BitVec 32) : Reg := w.extractLsb' 15 5
/-- Bits 24:20. -/
def rs2Of (w : BitVec 32) : Reg := w.extractLsb' 20 5
/-- Bits 31:25. -/
def funct7Of (w : BitVec 32) : BitVec 7 := w.extractLsb' 25 7
/-- Bits 31:27 of an AMO. -/
def funct5Of (w : BitVec 32) : BitVec 5 := w.extractLsb' 27 5
/-- Bit 26 of an AMO. -/
def aqOf (w : BitVec 32) : BitVec 1 := w.extractLsb' 26 1
/-- Bit 25 of an AMO. -/
def rlOf (w : BitVec 32) : BitVec 1 := w.extractLsb' 25 1
/-- Bits 31:20: the I-type immediate (R107) or the CSR number (R88). -/
def imm12Of (w : BitVec 32) : BitVec 12 := w.extractLsb' 20 12
/-- Bits 31:12: the U-type immediate (R108). -/
def imm20Of (w : BitVec 32) : BitVec 20 := w.extractLsb' 12 20
/-- offset[12:1] of a branch (R109). -/
def offsetBOf (w : BitVec 32) : BitVec 12 :=
  w.extractLsb' 31 1 ++ w.extractLsb' 7 1 ++ w.extractLsb' 25 6 ++ w.extractLsb' 8 4

/-! ## Fields of a 16-bit word (`30_encoding.md` R90 to R99, R110, R111) -/

/-- Bits 1:0. -/
def cOpOf (w : BitVec 16) : BitVec 2 := w.extractLsb' 0 2
/-- Bits 15:13. -/
def cFunct3Of (w : BitVec 16) : BitVec 3 := w.extractLsb' 13 3
/-- Bit 12. -/
def cBit12Of (w : BitVec 16) : BitVec 1 := w.extractLsb' 12 1
/-- Bits 11:10. -/
def cFunct2Of (w : BitVec 16) : BitVec 2 := w.extractLsb' 10 2
/-- Bits 6:5. -/
def cLowFunct2Of (w : BitVec 16) : BitVec 2 := w.extractLsb' 5 2
/-- Bits 11:7: the 5-bit rd or rs1. -/
def cRdOf (w : BitVec 16) : Reg := w.extractLsb' 7 5
/-- Bits 6:2: the 5-bit rs2. -/
def cRs2Of (w : BitVec 16) : Reg := w.extractLsb' 2 5
/-- Bits 9:7: the 3-bit rd' or rs1'. -/
def cHighRegOf (w : BitVec 16) : CReg := w.extractLsb' 7 3
/-- Bits 4:2: the 3-bit rd' or rs2'. -/
def cLowRegOf (w : BitVec 16) : CReg := w.extractLsb' 2 3
/-- imm[5:0] or uimm[5:0], and imm[17:12] of c.lui: bit 12, then bits 6:2. -/
def immCIOf (w : BitVec 16) : BitVec 6 := w.extractLsb' 12 1 ++ w.extractLsb' 2 5
/-- imm[9:4] of c.addi16sp. -/
def imm16spOf (w : BitVec 16) : BitVec 6 :=
  w.extractLsb' 12 1 ++ w.extractLsb' 3 2 ++ w.extractLsb' 5 1 ++ w.extractLsb' 2 1
    ++ w.extractLsb' 6 1
/-- uimm[9:2] of c.addi4spn. -/
def uimm4spnOf (w : BitVec 16) : BitVec 8 :=
  w.extractLsb' 7 4 ++ w.extractLsb' 11 2 ++ w.extractLsb' 5 1 ++ w.extractLsb' 6 1
/-- uimm[6:2] of c.lw, c.sw, c.flw, c.fsw. -/
def uimmWordOf (w : BitVec 16) : BitVec 5 :=
  w.extractLsb' 5 1 ++ w.extractLsb' 10 3 ++ w.extractLsb' 6 1
/-- uimm[7:3] of c.ld, c.sd, c.fld, c.fsd. -/
def uimmDoubleOf (w : BitVec 16) : BitVec 5 := w.extractLsb' 5 2 ++ w.extractLsb' 10 3
/-- uimm[7:2] of c.lwsp, c.flwsp. -/
def uimmLwspOf (w : BitVec 16) : BitVec 6 :=
  w.extractLsb' 2 2 ++ w.extractLsb' 12 1 ++ w.extractLsb' 4 3
/-- uimm[8:3] of c.ldsp, c.fldsp. -/
def uimmLdspOf (w : BitVec 16) : BitVec 6 :=
  w.extractLsb' 2 3 ++ w.extractLsb' 12 1 ++ w.extractLsb' 5 2
/-- uimm[7:2] of c.swsp, c.fswsp. -/
def uimmSwspOf (w : BitVec 16) : BitVec 6 := w.extractLsb' 7 2 ++ w.extractLsb' 9 4
/-- uimm[8:3] of c.sdsp, c.fsdsp. -/
def uimmSdspOf (w : BitVec 16) : BitVec 6 := w.extractLsb' 7 3 ++ w.extractLsb' 10 3
/-- offset[8:1] of c.beqz, c.bnez. -/
def offsetCBOf (w : BitVec 16) : BitVec 8 :=
  w.extractLsb' 12 1 ++ w.extractLsb' 5 2 ++ w.extractLsb' 2 1 ++ w.extractLsb' 10 2
    ++ w.extractLsb' 3 2
/-- offset[11:1] of c.j, c.jal. -/
def offsetCJOf (w : BitVec 16) : BitVec 11 :=
  w.extractLsb' 12 1 ++ w.extractLsb' 8 1 ++ w.extractLsb' 9 2 ++ w.extractLsb' 6 1
    ++ w.extractLsb' 7 1 ++ w.extractLsb' 2 1 ++ w.extractLsb' 11 1 ++ w.extractLsb' 3 3

/-! ## Decoding -/

/-- What a word is (`30_encoding.md` R100). -/
inductive Decoded where
  /-- One row of the table matches. -/
  | instr (i : Instr)
  /-- A row matches but for its operand restrictions: the word is illegal (R103). -/
  | illegal
  /-- No row matches: the word is not an instruction of the excerpt (R104). -/
  | notInExcerpt
  deriving DecidableEq, Repr

/-- A row that exists only under a condition on the launch parameters: where it fails the row does
not match (`30_encoding.md` R100). -/
def rowIf (present : Bool) (r : Decoded) : Decoded := if present then r else .notInExcerpt

/-- An operand restriction whose failure is illegal (`30_encoding.md` R103). -/
def legalIf (ok : Bool) (i : Instr) : Decoded := if ok then .instr i else .illegal

/-- opcode 0110011 (`30_encoding.md` R101). -/
def decodeOp (cfg : Config) (w : BitVec 32) : Decoded :=
  if funct7Of w = 0b0000000#7 then
    if funct3Of w = 0b000#3 then .instr (.add (rdOf w) (rs1Of w) (rs2Of w))
    else if funct3Of w = 0b111#3 then .instr (.and (rdOf w) (rs1Of w) (rs2Of w))
    else .notInExcerpt
  else if funct7Of w = 0b0000001#7 then
    if funct3Of w = 0b100#3 then rowIf cfg.hasM (.instr (.div (rdOf w) (rs1Of w) (rs2Of w)))
    else if funct3Of w = 0b101#3 then
      rowIf cfg.hasM (.instr (.divu (rdOf w) (rs1Of w) (rs2Of w)))
    else .notInExcerpt
  else .notInExcerpt

/-- opcode 0111011, at `XLEN = 64` only (`30_encoding.md` R101). -/
def decodeOp32 (cfg : Config) (w : BitVec 32) : Decoded :=
  if funct7Of w = 0b0000000#7 then
    if funct3Of w = 0b000#3 then
      rowIf (cfg.xlen == .rv64) (.instr (.addw (rdOf w) (rs1Of w) (rs2Of w)))
    else .notInExcerpt
  else if funct7Of w = 0b0000001#7 then
    if funct3Of w = 0b100#3 then
      rowIf (cfg.xlen == .rv64 && cfg.hasM) (.instr (.divw (rdOf w) (rs1Of w) (rs2Of w)))
    else if funct3Of w = 0b101#3 then
      rowIf (cfg.xlen == .rv64 && cfg.hasM) (.instr (.divuw (rdOf w) (rs1Of w) (rs2Of w)))
    else .notInExcerpt
  else .notInExcerpt

/-- opcode 1100011, the branches (`30_encoding.md` R86, R101). -/
def decodeBranch (w : BitVec 32) : Decoded :=
  if funct3Of w = 0b000#3 then .instr (.beq (rs1Of w) (rs2Of w) (offsetBOf w))
  else if funct3Of w = 0b001#3 then .instr (.bne (rs1Of w) (rs2Of w) (offsetBOf w))
  else if funct3Of w = 0b100#3 then .instr (.blt (rs1Of w) (rs2Of w) (offsetBOf w))
  else if funct3Of w = 0b101#3 then .instr (.bge (rs1Of w) (rs2Of w) (offsetBOf w))
  else if funct3Of w = 0b110#3 then .instr (.bltu (rs1Of w) (rs2Of w) (offsetBOf w))
  else if funct3Of w = 0b111#3 then .instr (.bgeu (rs1Of w) (rs2Of w) (offsetBOf w))
  else .notInExcerpt

/-- opcode 0101111, funct3 010: the `.w` AMOs (`30_encoding.md` R87). -/
def decodeAmoW (cfg : Config) (w : BitVec 32) : Decoded :=
  rowIf (cfg.hasA)
    (if funct5Of w = 0b00000#5 then
      .instr (.amoaddW (aqOf w) (rlOf w) (rdOf w) (rs2Of w) (rs1Of w))
    else if funct5Of w = 0b00001#5 then
      .instr (.amoswapW (aqOf w) (rlOf w) (rdOf w) (rs2Of w) (rs1Of w))
    else if funct5Of w = 0b00100#5 then
      .instr (.amoxorW (aqOf w) (rlOf w) (rdOf w) (rs2Of w) (rs1Of w))
    else if funct5Of w = 0b01000#5 then
      .instr (.amoorW (aqOf w) (rlOf w) (rdOf w) (rs2Of w) (rs1Of w))
    else if funct5Of w = 0b01100#5 then
      .instr (.amoandW (aqOf w) (rlOf w) (rdOf w) (rs2Of w) (rs1Of w))
    else if funct5Of w = 0b10000#5 then
      .instr (.amominW (aqOf w) (rlOf w) (rdOf w) (rs2Of w) (rs1Of w))
    else if funct5Of w = 0b10100#5 then
      .instr (.amomaxW (aqOf w) (rlOf w) (rdOf w) (rs2Of w) (rs1Of w))
    else if funct5Of w = 0b11000#5 then
      .instr (.amominuW (aqOf w) (rlOf w) (rdOf w) (rs2Of w) (rs1Of w))
    else if funct5Of w = 0b11100#5 then
      .instr (.amomaxuW (aqOf w) (rlOf w) (rdOf w) (rs2Of w) (rs1Of w))
    else .notInExcerpt)

/-- opcode 0101111, funct3 011: the `.d` AMOs (`30_encoding.md` R87). -/
def decodeAmoD (cfg : Config) (w : BitVec 32) : Decoded :=
  rowIf (cfg.xlen == .rv64 && cfg.hasA)
    (if funct5Of w = 0b00000#5 then
      .instr (.amoaddD (aqOf w) (rlOf w) (rdOf w) (rs2Of w) (rs1Of w))
    else if funct5Of w = 0b00001#5 then
      .instr (.amoswapD (aqOf w) (rlOf w) (rdOf w) (rs2Of w) (rs1Of w))
    else if funct5Of w = 0b00100#5 then
      .instr (.amoxorD (aqOf w) (rlOf w) (rdOf w) (rs2Of w) (rs1Of w))
    else if funct5Of w = 0b01000#5 then
      .instr (.amoorD (aqOf w) (rlOf w) (rdOf w) (rs2Of w) (rs1Of w))
    else if funct5Of w = 0b01100#5 then
      .instr (.amoandD (aqOf w) (rlOf w) (rdOf w) (rs2Of w) (rs1Of w))
    else if funct5Of w = 0b10000#5 then
      .instr (.amominD (aqOf w) (rlOf w) (rdOf w) (rs2Of w) (rs1Of w))
    else if funct5Of w = 0b10100#5 then
      .instr (.amomaxD (aqOf w) (rlOf w) (rdOf w) (rs2Of w) (rs1Of w))
    else if funct5Of w = 0b11000#5 then
      .instr (.amominuD (aqOf w) (rlOf w) (rdOf w) (rs2Of w) (rs1Of w))
    else if funct5Of w = 0b11100#5 then
      .instr (.amomaxuD (aqOf w) (rlOf w) (rdOf w) (rs2Of w) (rs1Of w))
    else .notInExcerpt)

/-- opcode 1110011: the CSR instructions, ecall and ebreak (`30_encoding.md` R88, `47_system.md`
R312). -/
def decodeSystem (w : BitVec 32) : Decoded :=
  if funct3Of w = 0b001#3 then .instr (.csrrw (rdOf w) (imm12Of w) (rs1Of w))
  else if funct3Of w = 0b010#3 then .instr (.csrrs (rdOf w) (imm12Of w) (rs1Of w))
  else if funct3Of w = 0b011#3 then .instr (.csrrc (rdOf w) (imm12Of w) (rs1Of w))
  else if funct3Of w = 0b101#3 then .instr (.csrrwi (rdOf w) (imm12Of w) (rs1Of w))
  else if funct3Of w = 0b110#3 then .instr (.csrrsi (rdOf w) (imm12Of w) (rs1Of w))
  else if funct3Of w = 0b111#3 then .instr (.csrrci (rdOf w) (imm12Of w) (rs1Of w))
  else if w = 0x00000073#32 then .instr .ecall
  else if w = 0x00100073#32 then .instr .ebreak
  else .notInExcerpt

/-- A 32-bit word (`30_encoding.md` R101). -/
def decode32 (cfg : Config) (w : BitVec 32) : Decoded :=
  if opcodeOf w = 0b0110011#7 then decodeOp cfg w
  else if opcodeOf w = 0b0111011#7 then decodeOp32 cfg w
  else if opcodeOf w = 0b0010011#7 then
    if funct3Of w = 0b000#3 then .instr (.addi (rdOf w) (rs1Of w) (imm12Of w))
    else if funct3Of w = 0b111#3 then .instr (.andi (rdOf w) (rs1Of w) (imm12Of w))
    else .notInExcerpt
  else if opcodeOf w = 0b0011011#7 then
    if funct3Of w = 0b000#3 then
      rowIf (cfg.xlen == .rv64) (.instr (.addiw (rdOf w) (rs1Of w) (imm12Of w)))
    else .notInExcerpt
  else if opcodeOf w = 0b0010111#7 then .instr (.auipc (rdOf w) (imm20Of w))
  else if opcodeOf w = 0b1100011#7 then decodeBranch w
  else if opcodeOf w = 0b0101111#7 then
    if funct3Of w = 0b010#3 then decodeAmoW cfg w
    else if funct3Of w = 0b011#3 then decodeAmoD cfg w
    else .notInExcerpt
  else if opcodeOf w = 0b1110011#7 then decodeSystem w
  else .notInExcerpt

/-- op = 00 (`30_encoding.md` R102). -/
def decodeC0 (cfg : Config) (w : BitVec 16) : Decoded :=
  if cFunct3Of w = 0b000#3 then
    legalIf (uimm4spnOf w != 0) (.cAddi4spn (cLowRegOf w) (uimm4spnOf w))
  else if cFunct3Of w = 0b001#3 then
    rowIf cfg.hasD (.instr (.cFld (cLowRegOf w) (uimmDoubleOf w) (cHighRegOf w)))
  else if cFunct3Of w = 0b010#3 then
    .instr (.cLw (cLowRegOf w) (uimmWordOf w) (cHighRegOf w))
  else if cFunct3Of w = 0b011#3 then
    match cfg.xlen with
    | .rv32 => rowIf cfg.hasF (.instr (.cFlw (cLowRegOf w) (uimmWordOf w) (cHighRegOf w)))
    | .rv64 => .instr (.cLd (cLowRegOf w) (uimmDoubleOf w) (cHighRegOf w))
  else if cFunct3Of w = 0b101#3 then
    rowIf cfg.hasD (.instr (.cFsd (cLowRegOf w) (uimmDoubleOf w) (cHighRegOf w)))
  else if cFunct3Of w = 0b110#3 then
    .instr (.cSw (cLowRegOf w) (uimmWordOf w) (cHighRegOf w))
  else if cFunct3Of w = 0b111#3 then
    match cfg.xlen with
    | .rv32 => rowIf cfg.hasF (.instr (.cFsw (cLowRegOf w) (uimmWordOf w) (cHighRegOf w)))
    | .rv64 => .instr (.cSd (cLowRegOf w) (uimmDoubleOf w) (cHighRegOf w))
  else .notInExcerpt

/-- op = 01, funct3 = 100 (`30_encoding.md` R96, R98, R102). -/
def decodeCAlu (cfg : Config) (w : BitVec 16) : Decoded :=
  if cFunct2Of w = 0b00#2 then
    legalIf (cfg.shiftFits (immCIOf w)) (.cSrli (cHighRegOf w) (immCIOf w))
  else if cFunct2Of w = 0b01#2 then
    legalIf (cfg.shiftFits (immCIOf w)) (.cSrai (cHighRegOf w) (immCIOf w))
  else if cFunct2Of w = 0b10#2 then .instr (.cAndi (cHighRegOf w) (immCIOf w))
  else if cBit12Of w = 0#1 then
    if cLowFunct2Of w = 0b00#2 then .instr (.cSub (cHighRegOf w) (cLowRegOf w))
    else if cLowFunct2Of w = 0b01#2 then .instr (.cXor (cHighRegOf w) (cLowRegOf w))
    else if cLowFunct2Of w = 0b10#2 then .instr (.cOr (cHighRegOf w) (cLowRegOf w))
    else .instr (.cAnd (cHighRegOf w) (cLowRegOf w))
  else if cLowFunct2Of w = 0b00#2 then
    rowIf (cfg.xlen == .rv64) (.instr (.cSubw (cHighRegOf w) (cLowRegOf w)))
  else if cLowFunct2Of w = 0b01#2 then
    rowIf (cfg.xlen == .rv64) (.instr (.cAddw (cHighRegOf w) (cLowRegOf w)))
  else .notInExcerpt

/-- op = 01 (`30_encoding.md` R102). -/
def decodeC1 (cfg : Config) (w : BitVec 16) : Decoded :=
  if cFunct3Of w = 0b000#3 then .instr (.cAddi (cRdOf w) (immCIOf w))
  else if cFunct3Of w = 0b001#3 then
    match cfg.xlen with
    | .rv32 => .instr (.cJal (offsetCJOf w))
    | .rv64 => legalIf (cRdOf w != 0) (.cAddiw (cRdOf w) (immCIOf w))
  else if cFunct3Of w = 0b010#3 then .instr (.cLi (cRdOf w) (immCIOf w))
  else if cFunct3Of w = 0b011#3 then
    if cRdOf w = 2 then legalIf (imm16spOf w != 0) (.cAddi16sp (imm16spOf w))
    else legalIf (immCIOf w != 0) (.cLui (cRdOf w) (immCIOf w))
  else if cFunct3Of w = 0b100#3 then decodeCAlu cfg w
  else if cFunct3Of w = 0b101#3 then .instr (.cJ (offsetCJOf w))
  else if cFunct3Of w = 0b110#3 then .instr (.cBeqz (cHighRegOf w) (offsetCBOf w))
  else .instr (.cBnez (cHighRegOf w) (offsetCBOf w))

/-- op = 10, funct3 = 100: c.jr, c.mv, c.ebreak, c.jalr, c.add share the pattern
(`30_encoding.md` R102, R103 items 1, 2, 6, 7, 12). -/
def decodeCR (w : BitVec 16) : Decoded :=
  if cBit12Of w = 0#1 then
    if cRs2Of w = 0 then legalIf (cRdOf w != 0) (.cJr (cRdOf w))
    else .instr (.cMv (cRdOf w) (cRs2Of w))
  else if cRs2Of w = 0 then
    if cRdOf w = 0 then .instr .cEbreak else .instr (.cJalr (cRdOf w))
  else legalIf (cRdOf w != 0) (.cAdd (cRdOf w) (cRs2Of w))

/-- op = 10 (`30_encoding.md` R102). -/
def decodeC2 (cfg : Config) (w : BitVec 16) : Decoded :=
  if cFunct3Of w = 0b000#3 then
    legalIf (cfg.shiftFits (immCIOf w)) (.cSlli (cRdOf w) (immCIOf w))
  else if cFunct3Of w = 0b001#3 then
    rowIf cfg.hasD (.instr (.cFldsp (cRdOf w) (uimmLdspOf w)))
  else if cFunct3Of w = 0b010#3 then legalIf (cRdOf w != 0) (.cLwsp (cRdOf w) (uimmLwspOf w))
  else if cFunct3Of w = 0b011#3 then
    match cfg.xlen with
    | .rv32 => rowIf cfg.hasF (.instr (.cFlwsp (cRdOf w) (uimmLwspOf w)))
    | .rv64 => legalIf (cRdOf w != 0) (.cLdsp (cRdOf w) (uimmLdspOf w))
  else if cFunct3Of w = 0b100#3 then decodeCR w
  else if cFunct3Of w = 0b101#3 then
    rowIf cfg.hasD (.instr (.cFsdsp (cRs2Of w) (uimmSdspOf w)))
  else if cFunct3Of w = 0b110#3 then .instr (.cSwsp (cRs2Of w) (uimmSwspOf w))
  else
    match cfg.xlen with
    | .rv32 => rowIf cfg.hasF (.instr (.cFswsp (cRs2Of w) (uimmSwspOf w)))
    | .rv64 => .instr (.cSdsp (cRs2Of w) (uimmSdspOf w))

/-- A 16-bit word (`30_encoding.md` R102; all of them need `HAS_C`, `43_compressed_alu.md`
R200 (f)). -/
def decode16 (cfg : Config) (w : BitVec 16) : Decoded :=
  rowIf cfg.hasC
    (if cOpOf w = 0b00#2 then decodeC0 cfg w
    else if cOpOf w = 0b01#2 then decodeC1 cfg w
    else if cOpOf w = 0b10#2 then decodeC2 cfg w
    else .notInExcerpt)

/-- The decode procedure (`30_encoding.md` R100). -/
def decode (cfg : Config) : Code → Decoded
  | .half w => decode16 cfg w
  | .full w => decode32 cfg w

/-- A first parcel with `11` in bits 1:0 starts a 32-bit instruction (`30_encoding.md` R82). -/
def isLong (p0 : BitVec 16) : Bool := p0.extractLsb' 0 2 == 0b11#2

/-- The instruction at the front of a sequence of bytes, lowest address first (`30_encoding.md` R81,
`20_memory.md` R59); `none` where the bytes end before the instruction does. -/
def codeOfBytes : List Byte → Option Code
  | b0 :: b1 :: rest =>
    if isLong (b1 ++ b0) then
      match rest with
      | b2 :: b3 :: _ => some (.full (b3 ++ b2 ++ b1 ++ b0))
      | _ => none
    else some (.half (b1 ++ b0))
  | _ => none

/-- The decoder on bytes: total; bytes that end too early are no instruction. -/
def decodeBytes (cfg : Config) (bs : List Byte) : Decoded :=
  match codeOfBytes bs with
  | some c => decode cfg c
  | none => .notInExcerpt

/-! ## The encoder (the `Encoding:` lines of the instruction rules) -/

/-- R-type (`30_encoding.md` R83). -/
def encR (funct7 : BitVec 7) (rs2 rs1 : Reg) (funct3 : BitVec 3) (rd : Reg) (op : BitVec 7) :
    BitVec 32 := funct7 ++ rs2 ++ rs1 ++ funct3 ++ rd ++ op
/-- AMO (R87). -/
def encAmo (funct5 : BitVec 5) (aq rl : BitVec 1) (rs2 rs1 : Reg) (funct3 : BitVec 3) (rd : Reg) :
    BitVec 32 := funct5 ++ aq ++ rl ++ rs2 ++ rs1 ++ funct3 ++ rd ++ 0b0101111#7
/-- I-type and CSR (R84, R88). -/
def encI (imm : BitVec 12) (rs1 : Reg) (funct3 : BitVec 3) (rd : Reg) (op : BitVec 7) :
    BitVec 32 := imm ++ rs1 ++ funct3 ++ rd ++ op
/-- U-type (R85). -/
def encU (imm : BitVec 20) (rd : Reg) (op : BitVec 7) : BitVec 32 := imm ++ rd ++ op
/-- B-type (R86): `o` is offset[12:1]. -/
def encB (o : BitVec 12) (rs2 rs1 : Reg) (funct3 : BitVec 3) : BitVec 32 :=
  o.extractLsb' 11 1 ++ o.extractLsb' 4 6 ++ rs2 ++ rs1 ++ funct3 ++ o.extractLsb' 0 4
    ++ o.extractLsb' 10 1 ++ 0b1100011#7

/-- CR (R90). -/
def encCR (b12 : BitVec 1) (rd rs2 : Reg) : BitVec 16 := 0b100#3 ++ b12 ++ rd ++ rs2 ++ 0b10#2
/-- CI with a plain 6-bit immediate (R91). -/
def encCI (funct3 : BitVec 3) (i : BitVec 6) (rd : Reg) (op : BitVec 2) : BitVec 16 :=
  funct3 ++ i.extractLsb' 5 1 ++ rd ++ i.extractLsb' 0 5 ++ op
/-- c.addi16sp: `i` is imm[9:4] (`43_compressed_alu.md` R203). -/
def encAddi16sp (i : BitVec 6) : BitVec 16 :=
  0b011#3 ++ i.extractLsb' 5 1 ++ 0b00010#5 ++ i.extractLsb' 0 1 ++ i.extractLsb' 2 1
    ++ i.extractLsb' 3 2 ++ i.extractLsb' 1 1 ++ 0b01#2
/-- CIW: `u` is uimm[9:2] (R93). -/
def encCIW (u : BitVec 8) (rd : CReg) : BitVec 16 :=
  0b000#3 ++ u.extractLsb' 2 2 ++ u.extractLsb' 4 4 ++ u.extractLsb' 0 1 ++ u.extractLsb' 1 1
    ++ rd ++ 0b00#2
/-- CL and CS of a word: `u` is uimm[6:2] (R94, R95). -/
def encCLWord (funct3 : BitVec 3) (u : BitVec 5) (rs1 r : CReg) : BitVec 16 :=
  funct3 ++ u.extractLsb' 1 3 ++ rs1 ++ u.extractLsb' 0 1 ++ u.extractLsb' 4 1 ++ r ++ 0b00#2
/-- CL and CS of a doubleword: `u` is uimm[7:3] (R94, R95). -/
def encCLDouble (funct3 : BitVec 3) (u : BitVec 5) (rs1 r : CReg) : BitVec 16 :=
  funct3 ++ u.extractLsb' 0 3 ++ rs1 ++ u.extractLsb' 3 2 ++ r ++ 0b00#2
/-- c.lwsp, c.flwsp: `u` is uimm[7:2] (`44_compressed_mem_ctrl.md` R242). -/
def encLwsp (funct3 : BitVec 3) (u : BitVec 6) (rd : Reg) : BitVec 16 :=
  funct3 ++ u.extractLsb' 3 1 ++ rd ++ u.extractLsb' 0 3 ++ u.extractLsb' 4 2 ++ 0b10#2
/-- c.ldsp, c.fldsp: `u` is uimm[8:3] (R232). -/
def encLdsp (funct3 : BitVec 3) (u : BitVec 6) (rd : Reg) : BitVec 16 :=
  funct3 ++ u.extractLsb' 2 1 ++ rd ++ u.extractLsb' 0 2 ++ u.extractLsb' 3 3 ++ 0b10#2
/-- c.swsp, c.fswsp: `u` is uimm[7:2] (R246). -/
def encSwsp (funct3 : BitVec 3) (u : BitVec 6) (rs2 : Reg) : BitVec 16 :=
  funct3 ++ u.extractLsb' 0 4 ++ u.extractLsb' 4 2 ++ rs2 ++ 0b10#2
/-- c.sdsp, c.fsdsp: `u` is uimm[8:3] (R236). -/
def encSdsp (funct3 : BitVec 3) (u : BitVec 6) (rs2 : Reg) : BitVec 16 :=
  funct3 ++ u.extractLsb' 0 3 ++ u.extractLsb' 3 3 ++ rs2 ++ 0b10#2
/-- CA (`30_encoding.md` R96). -/
def encCA (funct6 : BitVec 6) (rd : CReg) (funct2 : BitVec 2) (rs2 : CReg) : BitVec 16 :=
  funct6 ++ rd ++ funct2 ++ rs2 ++ 0b01#2
/-- CB branch: `o` is offset[8:1] (R97). -/
def encCB (funct3 : BitVec 3) (o : BitVec 8) (rs1 : CReg) : BitVec 16 :=
  funct3 ++ o.extractLsb' 7 1 ++ o.extractLsb' 2 2 ++ rs1 ++ o.extractLsb' 5 2 ++ o.extractLsb' 0 2
    ++ o.extractLsb' 4 1 ++ 0b01#2
/-- CB shift and andi (R98). -/
def encCBAlu (i : BitVec 6) (funct2 : BitVec 2) (rd : CReg) : BitVec 16 :=
  0b100#3 ++ i.extractLsb' 5 1 ++ funct2 ++ rd ++ i.extractLsb' 0 5 ++ 0b01#2
/-- CJ: `o` is offset[11:1] (R99). -/
def encCJ (funct3 : BitVec 3) (o : BitVec 11) : BitVec 16 :=
  funct3 ++ o.extractLsb' 10 1 ++ o.extractLsb' 3 1 ++ o.extractLsb' 7 2 ++ o.extractLsb' 9 1
    ++ o.extractLsb' 5 1 ++ o.extractLsb' 6 1 ++ o.extractLsb' 0 3 ++ o.extractLsb' 4 1 ++ 0b01#2

/-- The word of an instruction. -/
def encode : Instr → Code
  | .add rd rs1 rs2 => .full (encR 0b0000000 rs2 rs1 0b000 rd 0b0110011)
  | .addi rd rs1 imm => .full (encI imm rs1 0b000 rd 0b0010011)
  | .addiw rd rs1 imm => .full (encI imm rs1 0b000 rd 0b0011011)
  | .addw rd rs1 rs2 => .full (encR 0b0000000 rs2 rs1 0b000 rd 0b0111011)
  | .amoaddD aq rl rd rs2 rs1 => .full (encAmo 0b00000 aq rl rs2 rs1 0b011 rd)
  | .amoaddW aq rl rd rs2 rs1 => .full (encAmo 0b00000 aq rl rs2 rs1 0b010 rd)
  | .amoandD aq rl rd rs2 rs1 => .full (encAmo 0b01100 aq rl rs2 rs1 0b011 rd)
  | .amoandW aq rl rd rs2 rs1 => .full (encAmo 0b01100 aq rl rs2 rs1 0b010 rd)
  | .amomaxD aq rl rd rs2 rs1 => .full (encAmo 0b10100 aq rl rs2 rs1 0b011 rd)
  | .amomaxW aq rl rd rs2 rs1 => .full (encAmo 0b10100 aq rl rs2 rs1 0b010 rd)
  | .amomaxuD aq rl rd rs2 rs1 => .full (encAmo 0b11100 aq rl rs2 rs1 0b011 rd)
  | .amomaxuW aq rl rd rs2 rs1 => .full (encAmo 0b11100 aq rl rs2 rs1 0b010 rd)
  | .amominD aq rl rd rs2 rs1 => .full (encAmo 0b10000 aq rl rs2 rs1 0b011 rd)
  | .amominW aq rl rd rs2 rs1 => .full (encAmo 0b10000 aq rl rs2 rs1 0b010 rd)
  | .amominuD aq rl rd rs2 rs1 => .full (encAmo 0b11000 aq rl rs2 rs1 0b011 rd)
  | .amominuW aq rl rd rs2 rs1 => .full (encAmo 0b11000 aq rl rs2 rs1 0b010 rd)
  | .amoorD aq rl rd rs2 rs1 => .full (encAmo 0b01000 aq rl rs2 rs1 0b011 rd)
  | .amoorW aq rl rd rs2 rs1 => .full (encAmo 0b01000 aq rl rs2 rs1 0b010 rd)
  | .amoswapD aq rl rd rs2 rs1 => .full (encAmo 0b00001 aq rl rs2 rs1 0b011 rd)
  | .amoswapW aq rl rd rs2 rs1 => .full (encAmo 0b00001 aq rl rs2 rs1 0b010 rd)
  | .amoxorD aq rl rd rs2 rs1 => .full (encAmo 0b00100 aq rl rs2 rs1 0b011 rd)
  | .amoxorW aq rl rd rs2 rs1 => .full (encAmo 0b00100 aq rl rs2 rs1 0b010 rd)
  | .and rd rs1 rs2 => .full (encR 0b0000000 rs2 rs1 0b111 rd 0b0110011)
  | .andi rd rs1 imm => .full (encI imm rs1 0b111 rd 0b0010011)
  | .auipc rd imm => .full (encU imm rd 0b0010111)
  | .beq rs1 rs2 offset => .full (encB offset rs2 rs1 0b000)
  | .bge rs1 rs2 offset => .full (encB offset rs2 rs1 0b101)
  | .bgeu rs1 rs2 offset => .full (encB offset rs2 rs1 0b111)
  | .blt rs1 rs2 offset => .full (encB offset rs2 rs1 0b100)
  | .bltu rs1 rs2 offset => .full (encB offset rs2 rs1 0b110)
  | .bne rs1 rs2 offset => .full (encB offset rs2 rs1 0b001)
  | .cAdd rd rs2 => .half (encCR 1 rd rs2)
  | .cAddi rd imm => .half (encCI 0b000 imm rd 0b01)
  | .cAddi16sp imm => .half (encAddi16sp imm)
  | .cAddi4spn rd uimm => .half (encCIW uimm rd)
  | .cAddiw rd imm => .half (encCI 0b001 imm rd 0b01)
  | .cAnd rd rs2 => .half (encCA 0b100011 rd 0b11 rs2)
  | .cAddw rd rs2 => .half (encCA 0b100111 rd 0b01 rs2)
  | .cAndi rd imm => .half (encCBAlu imm 0b10 rd)
  | .cBeqz rs1 offset => .half (encCB 0b110 offset rs1)
  | .cBnez rs1 offset => .half (encCB 0b111 offset rs1)
  | .cEbreak => .half 0x9002
  | .cFld rd uimm rs1 => .half (encCLDouble 0b001 uimm rs1 rd)
  | .cFldsp rd uimm => .half (encLdsp 0b001 uimm rd)
  | .cFlw rd uimm rs1 => .half (encCLWord 0b011 uimm rs1 rd)
  | .cFlwsp rd uimm => .half (encLwsp 0b011 uimm rd)
  | .cFsd rs2 uimm rs1 => .half (encCLDouble 0b101 uimm rs1 rs2)
  | .cFsdsp rs2 uimm => .half (encSdsp 0b101 uimm rs2)
  | .cFsw rs2 uimm rs1 => .half (encCLWord 0b111 uimm rs1 rs2)
  | .cFswsp rs2 uimm => .half (encSwsp 0b111 uimm rs2)
  | .cJ offset => .half (encCJ 0b101 offset)
  | .cJal offset => .half (encCJ 0b001 offset)
  | .cJalr rs1 => .half (encCR 1 rs1 0)
  | .cJr rs1 => .half (encCR 0 rs1 0)
  | .cLd rd uimm rs1 => .half (encCLDouble 0b011 uimm rs1 rd)
  | .cLdsp rd uimm => .half (encLdsp 0b011 uimm rd)
  | .cLi rd imm => .half (encCI 0b010 imm rd 0b01)
  | .cLui rd imm => .half (encCI 0b011 imm rd 0b01)
  | .cLw rd uimm rs1 => .half (encCLWord 0b010 uimm rs1 rd)
  | .cLwsp rd uimm => .half (encLwsp 0b010 uimm rd)
  | .cMv rd rs2 => .half (encCR 0 rd rs2)
  | .cOr rd rs2 => .half (encCA 0b100011 rd 0b10 rs2)
  | .cSd rs2 uimm rs1 => .half (encCLDouble 0b111 uimm rs1 rs2)
  | .cSdsp rs2 uimm => .half (encSdsp 0b111 uimm rs2)
  | .cSlli rd uimm => .half (encCI 0b000 uimm rd 0b10)
  | .cSrai rd uimm => .half (encCBAlu uimm 0b01 rd)
  | .cSrli rd uimm => .half (encCBAlu uimm 0b00 rd)
  | .cSub rd rs2 => .half (encCA 0b100011 rd 0b00 rs2)
  | .cSubw rd rs2 => .half (encCA 0b100111 rd 0b00 rs2)
  | .cSw rs2 uimm rs1 => .half (encCLWord 0b110 uimm rs1 rs2)
  | .cSwsp rs2 uimm => .half (encSwsp 0b110 uimm rs2)
  | .cXor rd rs2 => .half (encCA 0b100011 rd 0b01 rs2)
  | .csrrc rd csr rs1 => .full (encI csr rs1 0b011 rd 0b1110011)
  | .csrrci rd csr zimm => .full (encI csr zimm 0b111 rd 0b1110011)
  | .csrrs rd csr rs1 => .full (encI csr rs1 0b010 rd 0b1110011)
  | .csrrsi rd csr zimm => .full (encI csr zimm 0b110 rd 0b1110011)
  | .csrrw rd csr rs1 => .full (encI csr rs1 0b001 rd 0b1110011)
  | .csrrwi rd csr zimm => .full (encI csr zimm 0b101 rd 0b1110011)
  | .div rd rs1 rs2 => .full (encR 0b0000001 rs2 rs1 0b100 rd 0b0110011)
  | .divu rd rs1 rs2 => .full (encR 0b0000001 rs2 rs1 0b101 rd 0b0110011)
  | .divuw rd rs1 rs2 => .full (encR 0b0000001 rs2 rs1 0b101 rd 0b0111011)
  | .divw rd rs1 rs2 => .full (encR 0b0000001 rs2 rs1 0b100 rd 0b0111011)
  | .ebreak => .full 0x00100073
  | .ecall => .full 0x00000073

/-- The bytes of an instruction, lowest address first (`30_encoding.md` R81). -/
def Code.bytes : Code → List Byte
  | .half w => [w.extractLsb' 0 8, w.extractLsb' 8 8]
  | .full w => [w.extractLsb' 0 8, w.extractLsb' 8 8, w.extractLsb' 16 8, w.extractLsb' 24 8]

/-! ## The table's words -/

/-- The four bytes of a table word: its low `nbits` bits, zeros above, lowest byte first. -/
def tableBytes (nbits w : Nat) : List Byte :=
  [BitVec.ofNat 8 (w % 2 ^ nbits), BitVec.ofNat 8 (w % 2 ^ nbits / 2 ^ 8),
   BitVec.ofNat 8 (w % 2 ^ nbits / 2 ^ 16), BitVec.ofNat 8 (w % 2 ^ nbits / 2 ^ 24)]

/-- Where some bytes are an instruction at only one width, that width; else the launch's own. Five
rows exist only at `XLEN = 32` and twenty only at 64, and the table's word does not say which
(log entry 22). -/
def widthFor (cfg : Config) (bs : List Byte) : Xlen :=
  match decodeBytes cfg bs, decodeBytes { cfg with xlen := cfg.xlen.other } bs with
  | .instr _, _ => cfg.xlen
  | _, .instr _ => cfg.xlen.other
  | _, _ => cfg.xlen

/-- The instruction the decoder reads from a table word. -/
def decodeTableWord (nbits w : Nat) : Option Instr :=
  let bs := tableBytes nbits w
  let cfg := Machine.launchConfig
  match decodeBytes { cfg with xlen := widthFor cfg bs } bs with
  | .instr i => some i
  | .illegal => none
  | .notInExcerpt => none

end Sys2Proof
end

