-- ==== Sys2Proof/Machine/Memory.lean ====
section
/-!
DEFINITION. Sparse tables: memory bytes by address, CSR values by number. A table is a list of
(key, value) pairs in one canonical form (`Table.wf`): keys strictly rising, and no entry equal to
what an unlisted key reads as, so that equal contents are equal lists.
-/
namespace Sys2Proof.Machine

/-- What a table with default `d` holds at key `k`. -/
def Table.read {β : Type} (d : β) : List (Nat × β) → Nat → β
  | [], _ => d
  | (j, v) :: rest, k => if j = k then v else Table.read d rest k

/-- The entry of key `k` in front of `rest`, or none where the value is the default. -/
def Table.entry {β : Type} [DecidableEq β] (d : β) (k : Nat) (v : β) (rest : List (Nat × β)) :
    List (Nat × β) :=
  if v = d then rest else (k, v) :: rest

/-- Put value `v` at key `k`, keeping the canonical form. -/
def Table.write {β : Type} [DecidableEq β] (d : β) : List (Nat × β) → Nat → β → List (Nat × β)
  | [], k, v => Table.entry d k v []
  | (j, u) :: rest, k, v =>
    if k < j then Table.entry d k v ((j, u) :: rest)
    else if k = j then Table.entry d k v rest
    else (j, u) :: Table.write d rest k v

/-- The canonical form: keys strictly rising, no entry with the default value. -/
def Table.wf {β : Type} [DecidableEq β] (d : β) (t : List (Nat × β)) : Bool :=
  decide (t.Pairwise fun a b => a.1 < b.1) && t.all fun e => decide (e.2 ≠ d)

/-- Memory `M` (`10_state.md` R38): the bytes that differ from `Memory.unlisted`. -/
abbrev Memory := List Host.Cell

/-- What a byte nothing has written reads as. DESIGN CHOICE, unsafe (log entry 7): the spec leaves
every byte outside the launch image unspecified (`10_state.md` R40). -/
def Memory.unlisted : Byte := 0

/-- The byte at an address. -/
def Memory.read (m : Memory) (a : Nat) : Byte := Table.read Memory.unlisted m a

/-- Memory with one byte written. -/
def Memory.write (m : Memory) (a : Nat) (b : Byte) : Memory := Table.write Memory.unlisted m a b

/-- The canonical form of a memory. -/
def Memory.wf (m : Memory) : Bool := Table.wf Memory.unlisted m

/-- Write bytes one after another, first to last. -/
def Memory.writeCells (m : Memory) : List Host.Cell → Memory
  | [] => m
  | (a, b) :: rest => Memory.writeCells (m.write a b) rest

/-- The CSR array `CSRs[0..4095]` (`10_state.md` R34): the entries that differ from
`Csrs.unlisted`. -/
abbrev Csrs := List (Nat × RegCell)

/-- What a plain CSR nothing has written reads as. DESIGN CHOICE, unsafe (log entry 6): the spec
leaves the launch value of a CSR unspecified (`10_state.md` R40). -/
def Csrs.unlisted : RegCell := 0

/-- The cell of one CSR. -/
def Csrs.read (t : Csrs) (c : Nat) : RegCell := Table.read Csrs.unlisted t c

/-- The array with one CSR written. -/
def Csrs.write (t : Csrs) (c : Nat) (v : RegCell) : Csrs := Table.write Csrs.unlisted t c v

/-- The canonical form of a CSR array. -/
def Csrs.wf (t : Csrs) : Bool := Table.wf Csrs.unlisted t

end Sys2Proof.Machine
end

