-- ==== Sys2Proof/Machine/State.lean ====
section
/-!
DEFINITION. The state of the machine (`10_state.md`), the ways a step can stop, and the state after
reset. Everything the spec gives the machine is here: the integer and floating-point registers, the
program counter, the CSR array and memory. The spec gives no flags (R28), no vector state (R32), no
hidden state (R39), no trap registers (`60_exceptions.md` R336), no mode (R345).
-/
namespace Sys2Proof.Machine

/-- The machine at one moment. -/
structure State where
  /-- The launch parameters (`00_scope.md` R3). The MODEL's own field: no step writes it
  (log entry 1). -/
  cfg : Config
  /-- The program counter (`10_state.md` R24). -/
  pc : RegCell
  /-- `x[0]` to `x[31]` (`10_state.md` R20). -/
  x : Vector RegCell 32
  /-- `f[0]` to `f[31]` (`10_state.md` R30). -/
  f : Vector RegCell 32
  /-- `CSRs[0]` to `CSRs[4095]` (`10_state.md` R34). -/
  csrs : Csrs
  /-- Memory `M` (`10_state.md` R38). -/
  mem : Memory
  deriving DecidableEq, Repr

/-- The synchronous exceptions (`60_exceptions.md` R330). -/
inductive Exception where
  /-- Raised by fetch at an odd `pc` (`20_memory.md` R59). -/
  | instructionAddressMisaligned
  /-- Raised by fetch of a byte that is not executable (`20_memory.md` R57). -/
  | instructionAccessFault
  /-- Raised by an illegal encoding (`30_encoding.md` R103) and by a CSR instruction on an absent
  CSR (`45_csr.md` R270). -/
  | illegalInstruction
  /-- Raised by `ebreak` and `c.ebreak`, always (`47_system.md` R310). -/
  | breakpoint
  /-- Raised by a load whose address is not a multiple of its size, with `MISALIGNED = trap`
  (`20_memory.md` R55). -/
  | loadAddressMisaligned
  /-- Raised by a load of a byte that is not readable (`20_memory.md` R57). -/
  | loadAccessFault
  /-- Raised by a store (with `MISALIGNED = trap`) or an AMO (always) whose address is not a
  multiple of its size (`20_memory.md` R55, R56). -/
  | storeAddressMisaligned
  /-- Raised by a store to a byte that is not writable, and by an AMO on a byte that is not readable
  and writable (`20_memory.md` R57). -/
  | storeAccessFault
  /-- Raised by `ecall`, always (`47_system.md` R311). -/
  | environmentCall
  deriving DecidableEq, Repr

/-- How the machine stops with a trap. -/
inductive Fault where
  /-- `trap(E, epc, tval)`, the terminal outcome of an instruction that raises an exception
  (`60_exceptions.md` R336). Raised by every instruction and fetch that R330 names as a raiser,
  through `raise`. The state is the state before the instruction, unchanged (R333). Safe: the spec
  gives the machine no successor state after a trap, so nothing can be claimed of one. -/
  | trap (cause : Exception) (epc : BitVec 64) (tval : Option (BitVec 64))
  deriving DecidableEq, Repr

/-- How a step has no meaning. -/
inductive Refusal where
  /-- An instruction without a meaning yet; raised by an arm of `exec` only. Safe. -/
  | notModelled (mnemonic : String)
  /-- Raised by the step on a word that no row of the table matches (`30_encoding.md` R104).
  Safe: nothing is claimed of such a word. -/
  | notInExcerpt (code : Code)
  /-- Raised by a CSR instruction on a CSR of kind `other` (`10_state.md` R36). Safe: the spec
  does not say what such a CSR does. -/
  | otherCsr (csr : CsrNum)
  /-- Raised by a store or an AMO that would write a byte that is executable (`20_memory.md` R68);
  the address is the access's own. Safe: the spec does not say when fetch sees the write. -/
  | storeToExecutable (addr : BitVec 64)
  deriving DecidableEq, Repr

/-- The outcome of a step (`00_scope.md` R11): a next state, a trap, or a refusal. -/
abbrev Out := Host.Outcome State Fault Refusal

/-- The machine as a launch leaves it (`70_reset_and_hazards.md` R370): `pc` at `RESET_PC`, and no
image loaded yet. The registers' zeros are DESIGN CHOICE, unsafe (log entries 4, 5, 6): the spec
gives them no value (`10_state.md` R40). -/
def State.launch (cfg : Config) : State where
  cfg := cfg
  pc := cfg.resetPc
  x := Vector.replicate 32 0
  f := Vector.replicate 32 0
  csrs := []
  mem := []

/-- The machine right after reset: the default launch, nothing loaded (`10_state.md` R40). -/
def State.reset : State := State.launch launchConfig

end Sys2Proof.Machine
end

