-- ==== Sys2Proof/Machine/Ops.lean ====
section
/-!
DEFINITION. The named operations over the state: registers (`10_state.md`), the program counter,
CSRs, memory with its checks (`20_memory.md`), and raising an exception (`60_exceptions.md`).
`s.w` is `XLEN`; every value of the integer side is a `BitVec s.w`.
-/
namespace Sys2Proof.Machine

/-! ## Widths -/

/-- `XLEN` of the machine (`00_scope.md` R3). -/
def State.w (s : State) : Nat := s.cfg.xlen.bits

/-- `FLEN`: 64 with D, else 32 with F (`00_scope.md` R3, `10_state.md` R30); 0 where there are no
floating-point registers (log entry 31). -/
def flenOf (cfg : Config) : Nat := if cfg.hasD then 64 else if cfg.hasF then 32 else 0

/-! ## Integer registers (`10_state.md` R20 to R23) -/

/-- `x[r]`: register 0 reads as zero (R21). -/
def State.xget (s : State) (r : Reg) : BitVec s.w :=
  if r = 0 then 0 else (s.x[r.toNat]'r.isLt).setWidth s.w

/-- `x[r] <- v`: a write to register 0 changes nothing (R21). -/
def State.xset (s : State) (r : Reg) (v : BitVec s.w) : State :=
  { s with x := if r = 0 then s.x else s.x.set r.toNat (v.setWidth 64) r.isLt }

/-! ## Program counter (`10_state.md` R24 to R27) -/

/-- `pc`. -/
def State.pcv (s : State) : BitVec s.w := s.pc.setWidth s.w

/-- `pc <- target`. -/
def State.setPc (s : State) (target : BitVec s.w) : State :=
  { s with pc := target.setWidth 64 }

/-- `pc <- pc + ilen`, modulo 2^XLEN (R25, R27). -/
def State.advance (s : State) (ilen : Nat) : State :=
  s.setPc (s.pcv + BitVec.ofNat s.w ilen)

/-! ## Floating-point registers (`10_state.md` R30, R31) -/

/-- `f[r]`, its `FLEN` bits in the low end of 64. -/
def State.fget (s : State) (r : Reg) : BitVec 64 :=
  ((s.f[r.toNat]'r.isLt).setWidth (flenOf s.cfg)).setWidth 64

/-- `f[r] <- v`: the low `FLEN` bits of `v` are kept. -/
def State.fset (s : State) (r : Reg) (v : BitVec 64) : State :=
  { s with f := s.f.set r.toNat ((v.setWidth (flenOf s.cfg)).setWidth 64) r.isLt }

/-- A 32-bit value as an f register holds it: with ones above it when `FLEN = 64` (R31). PRESUMED
(log entry 13): the spec takes this from outside its source. -/
def nanBox (cfg : Config) (v : BitVec 32) : BitVec 64 :=
  if flenOf cfg = 64 then 0xFFFFFFFF#32 ++ v else v.setWidth 64

/-! ## Control and status registers (`10_state.md` R34 to R36) -/

/-- The kind of a CSR number in a list of kinds; a number with no entry is `absent`. -/
def kindIn : List (Nat × CsrKind) → Nat → CsrKind
  | [], _ => .absent
  | (n, k) :: rest, c => if n = c then k else kindIn rest c

/-- `CsrKind(c)`. -/
def State.csrKind (s : State) (c : CsrNum) : CsrKind := kindIn s.cfg.csrKinds c.toNat

/-- `CSRs[c]`. -/
def State.csrGet (s : State) (c : CsrNum) : BitVec s.w := (s.csrs.read c.toNat).setWidth s.w

/-- `CSRs[c] <- v`. -/
def State.csrSet (s : State) (c : CsrNum) (v : BitVec s.w) : State :=
  { s with csrs := s.csrs.write c.toNat (v.setWidth 64) }

/-! ## Exceptions (`60_exceptions.md`) -/

/-- `raise E(info)` (`00_scope.md` R10): the ONE way an exception is taken. The outcome is the
terminal `trap(E, epc, tval)` with `epc` the address of the raising instruction; nothing is saved,
no mode changes, and there is no handler address, since the machine the spec describes has none
(R336, R345; log entry 16). There is no return from a trap either: the excerpt has no such
instruction (R338). -/
def raise (e : Exception) (tval : Option (BitVec 64)) (s : State) : Out :=
  .fault (.trap e (s.pcv.setWidth 64) tval)

/-- `ECALL_CODE` as a number. -/
def ecallNumber : EcallCode → Nat
  | .code8 => 8
  | .code9 => 9
  | .code11 => 11

/-- `CauseCode` (R332): a table for the reader; no rule depends on it. -/
def causeCode (cfg : Config) : Exception → Nat
  | .instructionAddressMisaligned => 0
  | .instructionAccessFault => 1
  | .illegalInstruction => 2
  | .breakpoint => 3
  | .loadAddressMisaligned => 4
  | .loadAccessFault => 5
  | .storeAddressMisaligned => 6
  | .storeAccessFault => 7
  | .environmentCall => ecallNumber cfg.ecallCode

/-! ## The address space (`20_memory.md` R50, R57) -/

/-- The address lies in the region. -/
def inRegion (r : Region) (a : Nat) : Bool := decide (r.base ≤ a) && decide (a < r.base + r.size)

/-- A permission of one byte address: that of the first region that holds it; none elsewhere. -/
def permitted (p : Region → Bool) : List Region → Nat → Bool
  | [], _ => false
  | r :: rest, a => if inRegion r a then p r else permitted p rest a

/-- `MemMap` says the byte is readable. -/
def State.readableAt (s : State) (a : Nat) : Bool := permitted Region.readable s.cfg.memMap a
/-- `MemMap` says the byte is writable. -/
def State.writableAt (s : State) (a : Nat) : Bool := permitted Region.writable s.cfg.memMap a
/-- `MemMap` says the byte is executable. -/
def State.executableAt (s : State) (a : Nat) : Bool := permitted Region.executable s.cfg.memMap a

/-- The `n` byte addresses of an access, lowest first, modulo 2^XLEN (R50, R53). -/
def byteAddrs {w : Nat} (a : BitVec w) (n : Nat) : List Nat :=
  (List.range n).map fun k => (a + BitVec.ofNat w k).toNat

/-! ## Reading and writing bytes (`20_memory.md` R52 to R54) -/

/-- The number whose bytes are given lowest first (R52). -/
def leNat : List Byte → Nat
  | [] => 0
  | b :: rest => b.toNat + 256 * leNat rest

/-- The value of the `n` bytes at an address: `MemRead` past its checks (R53). -/
def State.bytesAt (s : State) (a : BitVec s.w) (n : Nat) : BitVec (8 * n) :=
  BitVec.ofNat (8 * n) (leNat ((byteAddrs a n).map s.mem.read))

/-- Byte `k` of a value is its bits `8k+7:8k`, stored at the `k`-th address (R54). -/
def cellsOf {w n : Nat} (a : BitVec w) (v : BitVec (8 * n)) : List Host.Cell :=
  (List.range n).map fun k => ((a + BitVec.ofNat w k).toNat, v.extractLsb' (8 * k) 8)

/-- Memory with an `8n`-bit value written at an address: `MemWrite` past its checks (R54). -/
def State.putBytes (s : State) (a : BitVec s.w) (n : Nat) (v : BitVec (8 * n)) : State :=
  { s with mem := s.mem.writeCells (cellsOf a v) }

/-! ## The checks of an access, in order (`20_memory.md` R55 to R58) -/

/-- The address is not a multiple of the access size (R55, R56). -/
def misaligned {w : Nat} (a : BitVec w) (n : Nat) : Bool := decide (a.toNat % n ≠ 0)

/-- The exception a load of `n` bytes raises, if any (R55, R57, R58). -/
def loadCheck (s : State) (a : BitVec s.w) (n : Nat) : Option Exception :=
  if s.cfg.misaligned = .trap ∧ misaligned a n then some .loadAddressMisaligned
  else if (byteAddrs a n).all s.readableAt then none
  else some .loadAccessFault

/-- The exception a store of `n` bytes raises, if any (R55, R57, R58). -/
def storeCheck (s : State) (a : BitVec s.w) (n : Nat) : Option Exception :=
  if s.cfg.misaligned = .trap ∧ misaligned a n then some .storeAddressMisaligned
  else if (byteAddrs a n).all s.writableAt then none
  else some .storeAccessFault

/-- The exception an AMO of `n` bytes raises, if any: it is never split, and needs both permissions
(R56, R57; `41_atomics.md` R140). -/
def amoCheck (s : State) (a : BitVec s.w) (n : Nat) : Option Exception :=
  if misaligned a n then some .storeAddressMisaligned
  else if (byteAddrs a n).all fun b => s.readableAt b && s.writableAt b then none
  else some .storeAccessFault

/-- Some byte of the access is executable (R68). -/
def touchesCode (s : State) (a : BitVec s.w) (n : Nat) : Bool :=
  (byteAddrs a n).any s.executableAt

/-! ## Loads, stores and AMOs as whole instructions -/

/-- A load of `n` bytes whose value goes to `k` (`20_memory.md` R53; `44_compressed_mem_ctrl.md`
R230). A load that raises writes nothing. -/
def loadThen (s : State) (a : BitVec s.w) (n : Nat) (k : BitVec (8 * n) → State) : Out :=
  match loadCheck s a n with
  | some e => raise e (some (a.setWidth 64)) s
  | none => .next (k (s.bytesAt a n))

/-- A store of `n` bytes by an instruction of `ilen` bytes (`20_memory.md` R54, R68;
`44_compressed_mem_ctrl.md` R230). A store that raises or is refused writes nothing. -/
def storeThen (s : State) (a : BitVec s.w) (n : Nat) (v : BitVec (8 * n)) (ilen : Nat) : Out :=
  match storeCheck s a n with
  | some e => raise e (some (a.setWidth 64)) s
  | none =>
    if touchesCode s a n then .refused (.storeToExecutable (a.setWidth 64))
    else .next ((s.putBytes a n v).advance ilen)

/-- The common sequence of an AMO of `n` bytes (`41_atomics.md` R140; `20_memory.md` R68): the old
value goes to `rd` sign-extended, `op old src` to memory. -/
def amo (n : Nat) (op : BitVec (8 * n) → BitVec (8 * n) → BitVec (8 * n)) (rd rs2 rs1 : Reg)
    (s : State) : Out :=
  match amoCheck s (s.xget rs1) n with
  | some e => raise e (some ((s.xget rs1).setWidth 64)) s
  | none =>
    if touchesCode s (s.xget rs1) n then .refused (.storeToExecutable ((s.xget rs1).setWidth 64))
    else
      .next (((s.putBytes (s.xget rs1) n
          (op (s.bytesAt (s.xget rs1) n) ((s.xget rs2).setWidth (8 * n)))).xset rd
        ((s.bytesAt (s.xget rs1) n).signExtend s.w)).advance 4)

/-! ## Control transfers and CSRs as whole instructions -/

/-- A conditional branch of `ilen` bytes (`42_branches.md` R170; `44_compressed_mem_ctrl.md` R250):
to `pc + offset` where the condition holds, else to the next instruction. -/
def branch (s : State) (cond : Bool) (offset : BitVec s.w) (ilen : Nat) : Out :=
  .next (s.setPc (if cond then s.pcv + offset else s.pcv + BitVec.ofNat s.w ilen))

/-- The target of c.jr and c.jalr: the register with bit 0 cleared
(`44_compressed_mem_ctrl.md` R250 (d)). PRESUMED (log entry 12): the spec takes this from outside
its source. -/
def evenTarget {w : Nat} (v : BitVec w) : BitVec w := v &&& ~~~(1#w)

/-- The common sequence of the CSR instructions (`45_csr.md` R270): `i` is the instruction itself,
whose word an absent CSR reports, and `new` computes the CSR's new value from its old one. -/
def csrOp (s : State) (i : Instr) (rd : Reg) (c : CsrNum) (new : BitVec s.w → BitVec s.w) : Out :=
  match s.csrKind c with
  | .absent => raise .illegalInstruction (some (encode i).zext) s
  | .other => .refused (.otherCsr c)
  | .plain => .next (((s.csrSet c (new (s.csrGet c))).xset rd (s.csrGet c)).advance 4)

/-! ## The host's launch (`60_exceptions.md` R355, `70_reset_and_hazards.md` R370) -/

/-- Bytes with their addresses, from an address on, modulo 2^XLEN. -/
def imageCells {w : Nat} (a : BitVec w) (bs : List Byte) : List Host.Cell :=
  bs.zipIdx.map fun p => ((a + BitVec.ofNat w p.2).toNat, p.1)

/-- Place bytes in memory from an address on, as the host does before a run. -/
def State.loadBytes (s : State) (a : BitVec s.w) (bs : List Byte) : State :=
  { s with mem := s.mem.writeCells (imageCells a bs) }

end Sys2Proof.Machine
end

