-- ==== Sys2Proof/Machine/Atomics.lean ====
section
/-!
DEFINITION. Atomic memory operations (`41_atomics.md` R140 to R160).
-/
namespace Sys2Proof.Machine

/-! ## The operations (`41_atomics.md` R142, the table), for values of `8n` bits -/

/-- The sum modulo 2^(8n). -/
def amoAddOp {w : Nat} (t src : BitVec w) : BitVec w := t + src

/-- Bitwise and. -/
def amoAndOp {w : Nat} (t src : BitVec w) : BitVec w := t &&& src

/-- The larger as two's complement. -/
def amoMaxOp {w : Nat} (t src : BitVec w) : BitVec w := if geSigned t src then t else src

/-- The larger as unsigned. -/
def amoMaxuOp {w : Nat} (t src : BitVec w) : BitVec w := if geUnsigned t src then t else src

/-- The smaller as two's complement. -/
def amoMinOp {w : Nat} (t src : BitVec w) : BitVec w := if leSigned t src then t else src

/-- The smaller as unsigned. -/
def amoMinuOp {w : Nat} (t src : BitVec w) : BitVec w := if leUnsigned t src then t else src

/-- Bitwise or. -/
def amoOrOp {w : Nat} (t src : BitVec w) : BitVec w := t ||| src

/-- The register's value. -/
def amoSwapOp {w : Nat} (_t src : BitVec w) : BitVec w := src

/-- Bitwise exclusive or. -/
def amoXorOp {w : Nat} (t src : BitVec w) : BitVec w := t ^^^ src

/-! ## The instructions: `aq` and `rl` have no effect (R142; log entry 15) -/

/-- `amoadd.d` (R143). -/
def execAmoaddD (_aq _rl : BitVec 1) (rd rs2 rs1 : Reg) (s : State) : Out :=
  amo 8 amoAddOp rd rs2 rs1 s

/-- `amoadd.w` (R144). -/
def execAmoaddW (_aq _rl : BitVec 1) (rd rs2 rs1 : Reg) (s : State) : Out :=
  amo 4 amoAddOp rd rs2 rs1 s

/-- `amoand.d` (R145). -/
def execAmoandD (_aq _rl : BitVec 1) (rd rs2 rs1 : Reg) (s : State) : Out :=
  amo 8 amoAndOp rd rs2 rs1 s

/-- `amoand.w` (R146). -/
def execAmoandW (_aq _rl : BitVec 1) (rd rs2 rs1 : Reg) (s : State) : Out :=
  amo 4 amoAndOp rd rs2 rs1 s

/-- `amomax.d` (R147). -/
def execAmomaxD (_aq _rl : BitVec 1) (rd rs2 rs1 : Reg) (s : State) : Out :=
  amo 8 amoMaxOp rd rs2 rs1 s

/-- `amomax.w` (R148). -/
def execAmomaxW (_aq _rl : BitVec 1) (rd rs2 rs1 : Reg) (s : State) : Out :=
  amo 4 amoMaxOp rd rs2 rs1 s

/-- `amomaxu.d` (R149). -/
def execAmomaxuD (_aq _rl : BitVec 1) (rd rs2 rs1 : Reg) (s : State) : Out :=
  amo 8 amoMaxuOp rd rs2 rs1 s

/-- `amomaxu.w` (R150). -/
def execAmomaxuW (_aq _rl : BitVec 1) (rd rs2 rs1 : Reg) (s : State) : Out :=
  amo 4 amoMaxuOp rd rs2 rs1 s

/-- `amomin.d` (R151). -/
def execAmominD (_aq _rl : BitVec 1) (rd rs2 rs1 : Reg) (s : State) : Out :=
  amo 8 amoMinOp rd rs2 rs1 s

/-- `amomin.w` (R152). -/
def execAmominW (_aq _rl : BitVec 1) (rd rs2 rs1 : Reg) (s : State) : Out :=
  amo 4 amoMinOp rd rs2 rs1 s

/-- `amominu.d` (R153). -/
def execAmominuD (_aq _rl : BitVec 1) (rd rs2 rs1 : Reg) (s : State) : Out :=
  amo 8 amoMinuOp rd rs2 rs1 s

/-- `amominu.w` (R154). -/
def execAmominuW (_aq _rl : BitVec 1) (rd rs2 rs1 : Reg) (s : State) : Out :=
  amo 4 amoMinuOp rd rs2 rs1 s

/-- `amoor.d` (R155). -/
def execAmoorD (_aq _rl : BitVec 1) (rd rs2 rs1 : Reg) (s : State) : Out :=
  amo 8 amoOrOp rd rs2 rs1 s

/-- `amoor.w` (R156). -/
def execAmoorW (_aq _rl : BitVec 1) (rd rs2 rs1 : Reg) (s : State) : Out :=
  amo 4 amoOrOp rd rs2 rs1 s

/-- `amoswap.d` (R157). -/
def execAmoswapD (_aq _rl : BitVec 1) (rd rs2 rs1 : Reg) (s : State) : Out :=
  amo 8 amoSwapOp rd rs2 rs1 s

/-- `amoswap.w` (R158). -/
def execAmoswapW (_aq _rl : BitVec 1) (rd rs2 rs1 : Reg) (s : State) : Out :=
  amo 4 amoSwapOp rd rs2 rs1 s

/-- `amoxor.d` (R159). -/
def execAmoxorD (_aq _rl : BitVec 1) (rd rs2 rs1 : Reg) (s : State) : Out :=
  amo 8 amoXorOp rd rs2 rs1 s

/-- `amoxor.w` (R160). -/
def execAmoxorW (_aq _rl : BitVec 1) (rd rs2 rs1 : Reg) (s : State) : Out :=
  amo 4 amoXorOp rd rs2 rs1 s

end Sys2Proof.Machine
end

