-- ==== Sys2Proof/Machine/Operands.lean ====
section
/-!
DEFINITION. The values of the operands: immediates and offsets assembled from the bits the encoding
holds and extended to the register width `w` (`00_scope.md` R6; `30_encoding.md` R107 to R110), and
the registers a 3-bit field names (R111).
-/
namespace Sys2Proof.Machine

/-- The register `8 + field` of a 3-bit field (R111). -/
def creg (r : CReg) : Reg := 0b01#2 ++ r

/-- The stack pointer `x[2]` (`10_state.md` R22). -/
def sp : Reg := 2

/-- The link register `x[1]` (`10_state.md` R22). -/
def ra : Reg := 1

/-- `sext(immediate[11:0])` (R107). -/
def immI (w : Nat) (imm : BitVec 12) : BitVec w := imm.signExtend w

/-- `sext(immediate[31:12] << 12)` (R108). -/
def immU (w : Nat) (imm : BitVec 20) : BitVec w := (imm ++ 0#12).signExtend w

/-- `sext(offset)` of a branch, from offset[12:1] (R109). -/
def offsetB (w : Nat) (o : BitVec 12) : BitVec w := (o ++ 0#1).signExtend w

/-- `zext(zimm[4:0])` of a CSR instruction (R107). -/
def zimm5 (w : Nat) (z : BitVec 5) : BitVec w := z.setWidth w

/-- `sext(imm[5:0])` of c.addi, c.addiw, c.li, c.andi (R110). -/
def immC (w : Nat) (imm : BitVec 6) : BitVec w := imm.signExtend w

/-- `sext(imm[17:12] << 12)` of c.lui (R110). -/
def immCLui (w : Nat) (imm : BitVec 6) : BitVec w := (imm ++ 0#12).signExtend w

/-- `sext(imm)` of c.addi16sp, from imm[9:4] (R110). -/
def imm16sp (w : Nat) (imm : BitVec 6) : BitVec w := (imm ++ 0#4).signExtend w

/-- `zext(uimm)` of c.addi4spn, from uimm[9:2] (R110). -/
def uimm4spn (w : Nat) (u : BitVec 8) : BitVec w := (u ++ 0#2).setWidth w

/-- `zext(uimm)` of c.lw, c.sw, c.flw, c.fsw, from uimm[6:2] (R110). -/
def uimmWord (w : Nat) (u : BitVec 5) : BitVec w := (u ++ 0#2).setWidth w

/-- `zext(uimm)` of c.ld, c.sd, c.fld, c.fsd, from uimm[7:3] (R110). -/
def uimmDouble (w : Nat) (u : BitVec 5) : BitVec w := (u ++ 0#3).setWidth w

/-- `zext(uimm)` of c.lwsp, c.flwsp, c.swsp, c.fswsp, from uimm[7:2] (R110). -/
def uimmWordSp (w : Nat) (u : BitVec 6) : BitVec w := (u ++ 0#2).setWidth w

/-- `zext(uimm)` of c.ldsp, c.fldsp, c.sdsp, c.fsdsp, from uimm[8:3] (R110). -/
def uimmDoubleSp (w : Nat) (u : BitVec 6) : BitVec w := (u ++ 0#3).setWidth w

/-- The shift amount of c.slli, c.srli, c.srai (R110). -/
def shamt (u : BitVec 6) : Nat := u.toNat

/-- `sext(offset)` of c.beqz, c.bnez, from offset[8:1] (R110). -/
def offsetCB (w : Nat) (o : BitVec 8) : BitVec w := (o ++ 0#1).signExtend w

/-- `sext(offset)` of c.j, c.jal, from offset[11:1] (R110). -/
def offsetCJ (w : Nat) (o : BitVec 11) : BitVec w := (o ++ 0#1).signExtend w

/-- The result of a 32-bit computation in a register: `sext(v[31:0])` (`00_scope.md` R6). -/
def sextWord (w : Nat) {v : Nat} (a : BitVec v) : BitVec w := (a.setWidth 32).signExtend w

end Sys2Proof.Machine
end

