-- ==== Sys2Proof/Machine/Branches.lean ====
section
/-!
DEFINITION. Conditional branches (`42_branches.md` R170 to R176).
-/
namespace Sys2Proof.Machine

/-- `beq` (R171). -/
def execBeq (rs1 rs2 : Reg) (offset : BitVec 12) (s : State) : Out :=
  branch s (s.xget rs1 == s.xget rs2) (offsetB s.w offset) 4

/-- `bge` (R172). -/
def execBge (rs1 rs2 : Reg) (offset : BitVec 12) (s : State) : Out :=
  branch s (geSigned (s.xget rs1) (s.xget rs2)) (offsetB s.w offset) 4

/-- `bgeu` (R173). -/
def execBgeu (rs1 rs2 : Reg) (offset : BitVec 12) (s : State) : Out :=
  branch s (geUnsigned (s.xget rs1) (s.xget rs2)) (offsetB s.w offset) 4

/-- `blt` (R174). -/
def execBlt (rs1 rs2 : Reg) (offset : BitVec 12) (s : State) : Out :=
  branch s (ltSigned (s.xget rs1) (s.xget rs2)) (offsetB s.w offset) 4

/-- `bltu` (R175). -/
def execBltu (rs1 rs2 : Reg) (offset : BitVec 12) (s : State) : Out :=
  branch s (ltUnsigned (s.xget rs1) (s.xget rs2)) (offsetB s.w offset) 4

/-- `bne` (R176). -/
def execBne (rs1 rs2 : Reg) (offset : BitVec 12) (s : State) : Out :=
  branch s (s.xget rs1 != s.xget rs2) (offsetB s.w offset) 4

end Sys2Proof.Machine
end

