-- ==== Sys2Proof/Machine/CompressedAlu.lean ====
section
/-!
DEFINITION. Compressed computational instructions (`43_compressed_alu.md` R200 to R218).
-/
namespace Sys2Proof.Machine

/-- `c.add` (R201). -/
def execCAdd (rd rs2 : Reg) (s : State) : Out :=
  .next ((s.xset rd (s.xget rd + s.xget rs2)).advance 2)

/-- `c.addi` (R202). -/
def execCAddi (rd : Reg) (imm : BitVec 6) (s : State) : Out :=
  .next ((s.xset rd (s.xget rd + immC s.w imm)).advance 2)

/-- `c.addi16sp` (R203). -/
def execCAddi16sp (imm : BitVec 6) (s : State) : Out :=
  .next ((s.xset sp (s.xget sp + imm16sp s.w imm)).advance 2)

/-- `c.addi4spn` (R204). -/
def execCAddi4spn (rd : CReg) (uimm : BitVec 8) (s : State) : Out :=
  .next ((s.xset (creg rd) (s.xget sp + uimm4spn s.w uimm)).advance 2)

/-- `c.addiw` (R205). -/
def execCAddiw (rd : Reg) (imm : BitVec 6) (s : State) : Out :=
  .next ((s.xset rd (sextWord s.w (s.xget rd + immC s.w imm))).advance 2)

/-- `c.and` (R206). -/
def execCAnd (rd rs2 : CReg) (s : State) : Out :=
  .next ((s.xset (creg rd) (s.xget (creg rd) &&& s.xget (creg rs2))).advance 2)

/-- `c.addw` (R207). -/
def execCAddw (rd rs2 : CReg) (s : State) : Out :=
  .next ((s.xset (creg rd) (sextWord s.w (s.xget (creg rd) + s.xget (creg rs2)))).advance 2)

/-- `c.andi` (R208). -/
def execCAndi (rd : CReg) (imm : BitVec 6) (s : State) : Out :=
  .next ((s.xset (creg rd) (s.xget (creg rd) &&& immC s.w imm)).advance 2)

/-- `c.li` (R209). -/
def execCLi (rd : Reg) (imm : BitVec 6) (s : State) : Out :=
  .next ((s.xset rd (immC s.w imm)).advance 2)

/-- `c.lui` (R210). -/
def execCLui (rd : Reg) (imm : BitVec 6) (s : State) : Out :=
  .next ((s.xset rd (immCLui s.w imm)).advance 2)

/-- `c.mv` (R211). -/
def execCMv (rd rs2 : Reg) (s : State) : Out :=
  .next ((s.xset rd (s.xget rs2)).advance 2)

/-- `c.or` (R212). -/
def execCOr (rd rs2 : CReg) (s : State) : Out :=
  .next ((s.xset (creg rd) (s.xget (creg rd) ||| s.xget (creg rs2))).advance 2)

/-- `c.slli` (R213). -/
def execCSlli (rd : Reg) (uimm : BitVec 6) (s : State) : Out :=
  .next ((s.xset rd (s.xget rd <<< shamt uimm)).advance 2)

/-- `c.srai` (R214). -/
def execCSrai (rd : CReg) (uimm : BitVec 6) (s : State) : Out :=
  .next ((s.xset (creg rd) ((s.xget (creg rd)).sshiftRight (shamt uimm))).advance 2)

/-- `c.srli` (R215). -/
def execCSrli (rd : CReg) (uimm : BitVec 6) (s : State) : Out :=
  .next ((s.xset (creg rd) (s.xget (creg rd) >>> shamt uimm)).advance 2)

/-- `c.sub` (R216). -/
def execCSub (rd rs2 : CReg) (s : State) : Out :=
  .next ((s.xset (creg rd) (s.xget (creg rd) - s.xget (creg rs2))).advance 2)

/-- `c.subw` (R217). -/
def execCSubw (rd rs2 : CReg) (s : State) : Out :=
  .next ((s.xset (creg rd) (sextWord s.w (s.xget (creg rd) - s.xget (creg rs2)))).advance 2)

/-- `c.xor` (R218). -/
def execCXor (rd rs2 : CReg) (s : State) : Out :=
  .next ((s.xset (creg rd) (s.xget (creg rd) ^^^ s.xget (creg rs2))).advance 2)

end Sys2Proof.Machine
end

