-- ==== Sys2Proof/Machine/CompressedCtrl.lean ====
section
/-!
DEFINITION. Compressed jumps, branches and the breakpoint (`44_compressed_mem_ctrl.md` R250 to
R257).
-/
namespace Sys2Proof.Machine

/-- `c.beqz` (R251). -/
def execCBeqz (rs1 : CReg) (offset : BitVec 8) (s : State) : Out :=
  branch s (s.xget (creg rs1) == 0) (offsetCB s.w offset) 2

/-- `c.bnez` (R252). -/
def execCBnez (rs1 : CReg) (offset : BitVec 8) (s : State) : Out :=
  branch s (s.xget (creg rs1) != 0) (offsetCB s.w offset) 2

/-- `c.ebreak` (R253): always the trap `Breakpoint`. -/
def execCEbreak (s : State) : Out := raise .breakpoint none s

/-- `c.j` (R254). -/
def execCJ (offset : BitVec 11) (s : State) : Out :=
  .next (s.setPc (s.pcv + offsetCJ s.w offset))

/-- `c.jal` (R255): the link is the address of the next instruction, `pc + 2`. -/
def execCJal (offset : BitVec 11) (s : State) : Out :=
  .next ((s.xset ra (s.pcv + 2#s.w)).setPc (s.pcv + offsetCJ s.w offset))

/-- `c.jalr` (R256): the target is the register's value before the link is written. -/
def execCJalr (rs1 : Reg) (s : State) : Out :=
  .next ((s.xset ra (s.pcv + 2#s.w)).setPc (evenTarget (s.xget rs1)))

/-- `c.jr` (R257). -/
def execCJr (rs1 : Reg) (s : State) : Out :=
  .next (s.setPc (evenTarget (s.xget rs1)))

end Sys2Proof.Machine
end

