-- ==== Sys2Proof/Machine/CompressedMem.lean ====
section
/-!
DEFINITION. Compressed loads and stores (`44_compressed_mem_ctrl.md` R230 to R246).
-/
namespace Sys2Proof.Machine

/-! ## Addresses -/

/-- `x[8+rs1'] + uimm` of a word access (R230). -/
def addrWord (rs1 : CReg) (uimm : BitVec 5) (s : State) : BitVec s.w :=
  s.xget (creg rs1) + uimmWord s.w uimm

/-- `x[8+rs1'] + uimm` of a doubleword access (R230). -/
def addrDouble (rs1 : CReg) (uimm : BitVec 5) (s : State) : BitVec s.w :=
  s.xget (creg rs1) + uimmDouble s.w uimm

/-- `x[2] + uimm` of a word access (R230). -/
def addrWordSp (uimm : BitVec 6) (s : State) : BitVec s.w := s.xget sp + uimmWordSp s.w uimm

/-- `x[2] + uimm` of a doubleword access (R230). -/
def addrDoubleSp (uimm : BitVec 6) (s : State) : BitVec s.w := s.xget sp + uimmDoubleSp s.w uimm

/-! ## The instructions -/

/-- `c.fld` (R231). -/
def execCFld (rd : CReg) (uimm : BitVec 5) (rs1 : CReg) (s : State) : Out :=
  loadThen s (addrDouble rs1 uimm s) 8 fun v => (s.fset (creg rd) v).advance 2

/-- `c.fldsp` (R232). -/
def execCFldsp (rd : Reg) (uimm : BitVec 6) (s : State) : Out :=
  loadThen s (addrDoubleSp uimm s) 8 fun v => (s.fset rd v).advance 2

/-- `c.flw` (R233). -/
def execCFlw (rd : CReg) (uimm : BitVec 5) (rs1 : CReg) (s : State) : Out :=
  loadThen s (addrWord rs1 uimm s) 4 fun v => (s.fset (creg rd) (nanBox s.cfg v)).advance 2

/-- `c.flwsp` (R234). -/
def execCFlwsp (rd : Reg) (uimm : BitVec 6) (s : State) : Out :=
  loadThen s (addrWordSp uimm s) 4 fun v => (s.fset rd (nanBox s.cfg v)).advance 2

/-- `c.fsd` (R235). -/
def execCFsd (rs2 : CReg) (uimm : BitVec 5) (rs1 : CReg) (s : State) : Out :=
  storeThen s (addrDouble rs1 uimm s) 8 (s.fget (creg rs2)) 2

/-- `c.fsdsp` (R236). -/
def execCFsdsp (rs2 : Reg) (uimm : BitVec 6) (s : State) : Out :=
  storeThen s (addrDoubleSp uimm s) 8 (s.fget rs2) 2

/-- `c.fsw` (R237). -/
def execCFsw (rs2 : CReg) (uimm : BitVec 5) (rs1 : CReg) (s : State) : Out :=
  storeThen s (addrWord rs1 uimm s) 4 ((s.fget (creg rs2)).setWidth 32) 2

/-- `c.fswsp` (R238). -/
def execCFswsp (rs2 : Reg) (uimm : BitVec 6) (s : State) : Out :=
  storeThen s (addrWordSp uimm s) 4 ((s.fget rs2).setWidth 32) 2

/-- `c.ld` (R239). -/
def execCLd (rd : CReg) (uimm : BitVec 5) (rs1 : CReg) (s : State) : Out :=
  loadThen s (addrDouble rs1 uimm s) 8 fun v => (s.xset (creg rd) (v.signExtend s.w)).advance 2

/-- `c.ldsp` (R240). -/
def execCLdsp (rd : Reg) (uimm : BitVec 6) (s : State) : Out :=
  loadThen s (addrDoubleSp uimm s) 8 fun v => (s.xset rd (v.signExtend s.w)).advance 2

/-- `c.lw` (R241). -/
def execCLw (rd : CReg) (uimm : BitVec 5) (rs1 : CReg) (s : State) : Out :=
  loadThen s (addrWord rs1 uimm s) 4 fun v => (s.xset (creg rd) (v.signExtend s.w)).advance 2

/-- `c.lwsp` (R242). -/
def execCLwsp (rd : Reg) (uimm : BitVec 6) (s : State) : Out :=
  loadThen s (addrWordSp uimm s) 4 fun v => (s.xset rd (v.signExtend s.w)).advance 2

/-- `c.sd` (R243). -/
def execCSd (rs2 : CReg) (uimm : BitVec 5) (rs1 : CReg) (s : State) : Out :=
  storeThen s (addrDouble rs1 uimm s) 8 ((s.xget (creg rs2)).setWidth 64) 2

/-- `c.sdsp` (R244). -/
def execCSdsp (rs2 : Reg) (uimm : BitVec 6) (s : State) : Out :=
  storeThen s (addrDoubleSp uimm s) 8 ((s.xget rs2).setWidth 64) 2

/-- `c.sw` (R245). -/
def execCSw (rs2 : CReg) (uimm : BitVec 5) (rs1 : CReg) (s : State) : Out :=
  storeThen s (addrWord rs1 uimm s) 4 ((s.xget (creg rs2)).setWidth 32) 2

/-- `c.swsp` (R246). -/
def execCSwsp (rs2 : Reg) (uimm : BitVec 6) (s : State) : Out :=
  storeThen s (addrWordSp uimm s) 4 ((s.xget rs2).setWidth 32) 2

end Sys2Proof.Machine
end

