-- ==== Sys2Proof/Machine/Csr.lean ====
section
/-!
DEFINITION. Control and status register instructions (`45_csr.md` R270 to R276).
-/
namespace Sys2Proof.Machine

/-- `csrrc` (R271). -/
def execCsrrc (rd : Reg) (csr : CsrNum) (rs1 : Reg) (s : State) : Out :=
  csrOp s (.csrrc rd csr rs1) rd csr fun t => t &&& ~~~(s.xget rs1)

/-- `csrrci` (R272). -/
def execCsrrci (rd : Reg) (csr : CsrNum) (zimm : BitVec 5) (s : State) : Out :=
  csrOp s (.csrrci rd csr zimm) rd csr fun t => t &&& ~~~(zimm5 s.w zimm)

/-- `csrrs` (R273). -/
def execCsrrs (rd : Reg) (csr : CsrNum) (rs1 : Reg) (s : State) : Out :=
  csrOp s (.csrrs rd csr rs1) rd csr fun t => t ||| s.xget rs1

/-- `csrrsi` (R274). -/
def execCsrrsi (rd : Reg) (csr : CsrNum) (zimm : BitVec 5) (s : State) : Out :=
  csrOp s (.csrrsi rd csr zimm) rd csr fun t => t ||| zimm5 s.w zimm

/-- `csrrw` (R275). -/
def execCsrrw (rd : Reg) (csr : CsrNum) (rs1 : Reg) (s : State) : Out :=
  csrOp s (.csrrw rd csr rs1) rd csr fun _ => s.xget rs1

/-- `csrrwi` (R276). -/
def execCsrrwi (rd : Reg) (csr : CsrNum) (zimm : BitVec 5) (s : State) : Out :=
  csrOp s (.csrrwi rd csr zimm) rd csr fun _ => zimm5 s.w zimm

end Sys2Proof.Machine
end

