-- ==== Sys2Proof/Machine/Div.lean ====
section
/-!
DEFINITION. Division (`46_div.md` R300 to R304).
-/
namespace Sys2Proof.Machine

/-- `a ÷_s b`, rounded toward zero (R300 (a)). A zero divisor gives all ones and the one quotient
that does not fit gives the dividend (R300 (b)): PRESUMED (log entry 11), the spec takes these two
from outside its source. -/
def divSigned {w : Nat} (a b : BitVec w) : BitVec w :=
  if b = 0#w then BitVec.allOnes w
  else if a = BitVec.intMin w ∧ b = BitVec.allOnes w then a
  else BitVec.ofInt w (a.toInt.tdiv b.toInt)

/-- `a ÷_u b`, rounded down (R300 (a)); a zero divisor gives all ones (R300 (b); PRESUMED, log
entry 11). -/
def divUnsigned {w : Nat} (a b : BitVec w) : BitVec w :=
  if b = 0#w then BitVec.allOnes w else BitVec.ofNat w (a.toNat / b.toNat)

/-- `div` (R301). -/
def execDiv (rd rs1 rs2 : Reg) (s : State) : Out :=
  .next ((s.xset rd (divSigned (s.xget rs1) (s.xget rs2))).advance 4)

/-- `divu` (R302). -/
def execDivu (rd rs1 rs2 : Reg) (s : State) : Out :=
  .next ((s.xset rd (divUnsigned (s.xget rs1) (s.xget rs2))).advance 4)

/-- `divuw` (R303). -/
def execDivuw (rd rs1 rs2 : Reg) (s : State) : Out :=
  .next ((s.xset rd (sextWord s.w
    (divUnsigned ((s.xget rs1).setWidth 32) ((s.xget rs2).setWidth 32)))).advance 4)

/-- `divw` (R304). -/
def execDivw (rd rs1 rs2 : Reg) (s : State) : Out :=
  .next ((s.xset rd (sextWord s.w
    (divSigned ((s.xget rs1).setWidth 32) ((s.xget rs2).setWidth 32)))).advance 4)

end Sys2Proof.Machine
end

