-- ==== Sys2Proof/Machine/IntArith.lean ====
section
/-!
DEFINITION. Integer computational instructions (`40_integer_arith.md` R120 to R127).
-/
namespace Sys2Proof.Machine

/-- `add` (R121). -/
def execAdd (rd rs1 rs2 : Reg) (s : State) : Out :=
  .next ((s.xset rd (s.xget rs1 + s.xget rs2)).advance 4)

/-- `addi` (R122). -/
def execAddi (rd rs1 : Reg) (imm : BitVec 12) (s : State) : Out :=
  .next ((s.xset rd (s.xget rs1 + immI s.w imm)).advance 4)

/-- `addiw` (R123). -/
def execAddiw (rd rs1 : Reg) (imm : BitVec 12) (s : State) : Out :=
  .next ((s.xset rd (sextWord s.w (s.xget rs1 + immI s.w imm))).advance 4)

/-- `addw` (R124). -/
def execAddw (rd rs1 rs2 : Reg) (s : State) : Out :=
  .next ((s.xset rd (sextWord s.w (s.xget rs1 + s.xget rs2))).advance 4)

/-- `and` (R125). -/
def execAnd (rd rs1 rs2 : Reg) (s : State) : Out :=
  .next ((s.xset rd (s.xget rs1 &&& s.xget rs2)).advance 4)

/-- `andi` (R126). -/
def execAndi (rd rs1 : Reg) (imm : BitVec 12) (s : State) : Out :=
  .next ((s.xset rd (s.xget rs1 &&& immI s.w imm)).advance 4)

/-- `auipc` (R127). -/
def execAuipc (rd : Reg) (imm : BitVec 20) (s : State) : Out :=
  .next ((s.xset rd (s.pcv + immU s.w imm)).advance 4)

end Sys2Proof.Machine
end

