-- ==== Sys2Proof/Machine/System.lean ====
section
/-!
DEFINITION. Environment instructions (`47_system.md` R310, R311).
-/
namespace Sys2Proof.Machine

/-- `ebreak` (R310): always the trap `Breakpoint`. -/
def execEbreak (s : State) : Out := raise .breakpoint none s

/-- `ecall` (R311): always the trap `EnvironmentCall`. -/
def execEcall (s : State) : Out := raise .environmentCall none s

end Sys2Proof.Machine
end

