-- ==== Sys2Proof/Machine/Dispatch.lean ====
section
/-!
DEFINITION. The dispatch: one arm per constructor of `Instr`, each one direct call of its meaning.
-/
namespace Sys2Proof.Machine

def exec (i : Instr) (s : State) : Host.Outcome State Fault Refusal :=
  match i with
  | .add rd rs1 rs2 => Sys2Proof.Machine.execAdd rd rs1 rs2 s
  | .addi rd rs1 imm => Sys2Proof.Machine.execAddi rd rs1 imm s
  | .addiw rd rs1 imm => Sys2Proof.Machine.execAddiw rd rs1 imm s
  | .addw rd rs1 rs2 => Sys2Proof.Machine.execAddw rd rs1 rs2 s
  | .amoaddD aq rl rd rs2 rs1 => Sys2Proof.Machine.execAmoaddD aq rl rd rs2 rs1 s
  | .amoaddW aq rl rd rs2 rs1 => Sys2Proof.Machine.execAmoaddW aq rl rd rs2 rs1 s
  | .amoandD aq rl rd rs2 rs1 => Sys2Proof.Machine.execAmoandD aq rl rd rs2 rs1 s
  | .amoandW aq rl rd rs2 rs1 => Sys2Proof.Machine.execAmoandW aq rl rd rs2 rs1 s
  | .amomaxD aq rl rd rs2 rs1 => Sys2Proof.Machine.execAmomaxD aq rl rd rs2 rs1 s
  | .amomaxW aq rl rd rs2 rs1 => Sys2Proof.Machine.execAmomaxW aq rl rd rs2 rs1 s
  | .amomaxuD aq rl rd rs2 rs1 => Sys2Proof.Machine.execAmomaxuD aq rl rd rs2 rs1 s
  | .amomaxuW aq rl rd rs2 rs1 => Sys2Proof.Machine.execAmomaxuW aq rl rd rs2 rs1 s
  | .amominD aq rl rd rs2 rs1 => Sys2Proof.Machine.execAmominD aq rl rd rs2 rs1 s
  | .amominW aq rl rd rs2 rs1 => Sys2Proof.Machine.execAmominW aq rl rd rs2 rs1 s
  | .amominuD aq rl rd rs2 rs1 => Sys2Proof.Machine.execAmominuD aq rl rd rs2 rs1 s
  | .amominuW aq rl rd rs2 rs1 => Sys2Proof.Machine.execAmominuW aq rl rd rs2 rs1 s
  | .amoorD aq rl rd rs2 rs1 => Sys2Proof.Machine.execAmoorD aq rl rd rs2 rs1 s
  | .amoorW aq rl rd rs2 rs1 => Sys2Proof.Machine.execAmoorW aq rl rd rs2 rs1 s
  | .amoswapD aq rl rd rs2 rs1 => Sys2Proof.Machine.execAmoswapD aq rl rd rs2 rs1 s
  | .amoswapW aq rl rd rs2 rs1 => Sys2Proof.Machine.execAmoswapW aq rl rd rs2 rs1 s
  | .amoxorD aq rl rd rs2 rs1 => Sys2Proof.Machine.execAmoxorD aq rl rd rs2 rs1 s
  | .amoxorW aq rl rd rs2 rs1 => Sys2Proof.Machine.execAmoxorW aq rl rd rs2 rs1 s
  | .and rd rs1 rs2 => Sys2Proof.Machine.execAnd rd rs1 rs2 s
  | .andi rd rs1 imm => Sys2Proof.Machine.execAndi rd rs1 imm s
  | .auipc rd imm => Sys2Proof.Machine.execAuipc rd imm s
  | .beq rs1 rs2 offset => Sys2Proof.Machine.execBeq rs1 rs2 offset s
  | .bge rs1 rs2 offset => Sys2Proof.Machine.execBge rs1 rs2 offset s
  | .bgeu rs1 rs2 offset => Sys2Proof.Machine.execBgeu rs1 rs2 offset s
  | .blt rs1 rs2 offset => Sys2Proof.Machine.execBlt rs1 rs2 offset s
  | .bltu rs1 rs2 offset => Sys2Proof.Machine.execBltu rs1 rs2 offset s
  | .bne rs1 rs2 offset => Sys2Proof.Machine.execBne rs1 rs2 offset s
  | .cAdd rd rs2 => Sys2Proof.Machine.execCAdd rd rs2 s
  | .cAddi rd imm => Sys2Proof.Machine.execCAddi rd imm s
  | .cAddi16sp imm => Sys2Proof.Machine.execCAddi16sp imm s
  | .cAddi4spn rd uimm => Sys2Proof.Machine.execCAddi4spn rd uimm s
  | .cAddiw rd imm => Sys2Proof.Machine.execCAddiw rd imm s
  | .cAnd rd rs2 => Sys2Proof.Machine.execCAnd rd rs2 s
  | .cAddw rd rs2 => Sys2Proof.Machine.execCAddw rd rs2 s
  | .cAndi rd imm => Sys2Proof.Machine.execCAndi rd imm s
  | .cBeqz rs1 offset => Sys2Proof.Machine.execCBeqz rs1 offset s
  | .cBnez rs1 offset => Sys2Proof.Machine.execCBnez rs1 offset s
  | .cEbreak => Sys2Proof.Machine.execCEbreak s
  | .cFld rd uimm rs1 => Sys2Proof.Machine.execCFld rd uimm rs1 s
  | .cFldsp rd uimm => Sys2Proof.Machine.execCFldsp rd uimm s
  | .cFlw rd uimm rs1 => Sys2Proof.Machine.execCFlw rd uimm rs1 s
  | .cFlwsp rd uimm => Sys2Proof.Machine.execCFlwsp rd uimm s
  | .cFsd rs2 uimm rs1 => Sys2Proof.Machine.execCFsd rs2 uimm rs1 s
  | .cFsdsp rs2 uimm => Sys2Proof.Machine.execCFsdsp rs2 uimm s
  | .cFsw rs2 uimm rs1 => Sys2Proof.Machine.execCFsw rs2 uimm rs1 s
  | .cFswsp rs2 uimm => Sys2Proof.Machine.execCFswsp rs2 uimm s
  | .cJ offset => Sys2Proof.Machine.execCJ offset s
  | .cJal offset => Sys2Proof.Machine.execCJal offset s
  | .cJalr rs1 => Sys2Proof.Machine.execCJalr rs1 s
  | .cJr rs1 => Sys2Proof.Machine.execCJr rs1 s
  | .cLd rd uimm rs1 => Sys2Proof.Machine.execCLd rd uimm rs1 s
  | .cLdsp rd uimm => Sys2Proof.Machine.execCLdsp rd uimm s
  | .cLi rd imm => Sys2Proof.Machine.execCLi rd imm s
  | .cLui rd imm => Sys2Proof.Machine.execCLui rd imm s
  | .cLw rd uimm rs1 => Sys2Proof.Machine.execCLw rd uimm rs1 s
  | .cLwsp rd uimm => Sys2Proof.Machine.execCLwsp rd uimm s
  | .cMv rd rs2 => Sys2Proof.Machine.execCMv rd rs2 s
  | .cOr rd rs2 => Sys2Proof.Machine.execCOr rd rs2 s
  | .cSd rs2 uimm rs1 => Sys2Proof.Machine.execCSd rs2 uimm rs1 s
  | .cSdsp rs2 uimm => Sys2Proof.Machine.execCSdsp rs2 uimm s
  | .cSlli rd uimm => Sys2Proof.Machine.execCSlli rd uimm s
  | .cSrai rd uimm => Sys2Proof.Machine.execCSrai rd uimm s
  | .cSrli rd uimm => Sys2Proof.Machine.execCSrli rd uimm s
  | .cSub rd rs2 => Sys2Proof.Machine.execCSub rd rs2 s
  | .cSubw rd rs2 => Sys2Proof.Machine.execCSubw rd rs2 s
  | .cSw rs2 uimm rs1 => Sys2Proof.Machine.execCSw rs2 uimm rs1 s
  | .cSwsp rs2 uimm => Sys2Proof.Machine.execCSwsp rs2 uimm s
  | .cXor rd rs2 => Sys2Proof.Machine.execCXor rd rs2 s
  | .csrrc rd csr rs1 => Sys2Proof.Machine.execCsrrc rd csr rs1 s
  | .csrrci rd csr zimm => Sys2Proof.Machine.execCsrrci rd csr zimm s
  | .csrrs rd csr rs1 => Sys2Proof.Machine.execCsrrs rd csr rs1 s
  | .csrrsi rd csr zimm => Sys2Proof.Machine.execCsrrsi rd csr zimm s
  | .csrrw rd csr rs1 => Sys2Proof.Machine.execCsrrw rd csr rs1 s
  | .csrrwi rd csr zimm => Sys2Proof.Machine.execCsrrwi rd csr zimm s
  | .div rd rs1 rs2 => Sys2Proof.Machine.execDiv rd rs1 rs2 s
  | .divu rd rs1 rs2 => Sys2Proof.Machine.execDivu rd rs1 rs2 s
  | .divuw rd rs1 rs2 => Sys2Proof.Machine.execDivuw rd rs1 rs2 s
  | .divw rd rs1 rs2 => Sys2Proof.Machine.execDivw rd rs1 rs2 s
  | .ebreak => Sys2Proof.Machine.execEbreak s
  | .ecall => Sys2Proof.Machine.execEcall s

end Sys2Proof.Machine
end

