-- ==== Sys2Proof/Machine/Fetch.lean ====
section
/-!
DEFINITION. Fetching an instruction (`20_memory.md` R59, R57; `60_exceptions.md` R334), and placing
one where the next fetch reads it.
-/
namespace Sys2Proof.Machine

/-- What a fetch finds. -/
inductive Fetched where
  /-- An instruction word. -/
  | code (c : Code)
  /-- A fetch exception; its `tval` is `pc` (`60_exceptions.md` R330). -/
  | failed (e : Exception)
  deriving DecidableEq, Repr

/-- The two bytes of a parcel are executable (`20_memory.md` R57, R59; `60_exceptions.md` R330). They
need not be readable, though R53 has every `MemRead` ask for that (DEDUCED, log entry 37). -/
def State.parcelAllowed (s : State) (a : BitVec s.w) : Bool :=
  (byteAddrs a 2).all s.executableAt

/-- Fetch at `pc` (R59): odd `pc` first, then the first parcel's permission, then, where its low
bits are `11`, the second's. -/
def fetch (s : State) : Fetched :=
  if s.pcv.getLsbD 0 then .failed .instructionAddressMisaligned
  else if s.parcelAllowed s.pcv = false then .failed .instructionAccessFault
  else if isLong (s.bytesAt s.pcv 2) = false then .code (.half (s.bytesAt s.pcv 2))
  else if s.parcelAllowed (s.pcv + 2#s.w) = false then .failed .instructionAccessFault
  else .code (.full (s.bytesAt (s.pcv + 2#s.w) 2 ++ s.bytesAt s.pcv 2))

/-- One executable region over the four bytes at `pc`, in front of the map, where the map does not
already let them be fetched. -/
def State.allowFetch (s : State) : State :=
  if (byteAddrs s.pcv 4).all s.executableAt then s
  else
    { s with cfg := { s.cfg with memMap :=
      { base := s.pcv.toNat, size := 4, readable := true, writable := false, executable := true }
        :: s.cfg.memMap } }

/-- The machine launched at another width (log entry 22): the registers keep their cells. -/
def State.atWidth (s : State) (x : Xlen) : State := { s with cfg := { s.cfg with xlen := x } }

/-- Place an instruction where the next fetch reads it, as the host's load of an image does
(`70_reset_and_hazards.md` R370; log entry 21). -/
def State.placeInstruction (s : State) (bs : List Byte) : State :=
  let t := (s.atWidth (widthFor s.cfg bs)).allowFetch
  t.loadBytes t.pcv bs

end Sys2Proof.Machine
end

