-- ==== Sys2Proof/Machine/Step.lean ====
section
/-!
DEFINITION. One step (`00_scope.md` R11): fetch at `pc`, decode, execute. The meanings set `pc`
themselves, so the step adds nothing after them.
-/
namespace Sys2Proof.Machine

/-- A decoded word run in a state (`30_encoding.md` R100, R103, R104). -/
def runDecoded (c : Code) (d : Decoded) (s : State) : Out :=
  match d with
  | .instr i => exec i s
  | .illegal => raise .illegalInstruction (some c.zext) s
  | .notInExcerpt => .refused (.notInExcerpt c)

/-- One step of the machine (`00_scope.md` R11): a next state, a trap, or a refusal. -/
def step (s : State) : Host.Outcome State Fault Refusal :=
  match fetch s with
  | .failed e => raise e (some (s.pcv.setWidth 64)) s
  | .code c => runDecoded c (decode s.cfg c) s

/-- The state with an instruction's word, as `opcode_table.json` numbers its bits, placed at `pc`:
the host's load of an image before a run (`70_reset_and_hazards.md` R370; log entries 21, 22). The
bits above `nbits` are zero. Beside the four bytes it sets the width at which the word is an
instruction and, where the map does not let those bytes be fetched, an executable region. -/
def State.withFetchWord (s : State) (nbits w : Nat) : State :=
  s.placeInstruction (tableBytes nbits w)

end Sys2Proof.Machine
end

