-- ==== Sys2Proof/Machine/Pseudo.lean ====
section
/-!
DEFINITION. The twenty pseudo-instructions (`48_pseudo.md` R320 to R323): what an assembler emits for
each, and the effect the spec records for the three whose emitted instructions lie outside the
excerpt. The machine never sees one: `step` and `exec` do not use this file.
-/
namespace Sys2Proof.Machine

/-- A pseudo-instruction with its operands (`48_pseudo.md` R320). A branch offset is offset[12:1],
as in `Instr`; the offset of `call` is `&symbol - pc`, a signed 64-bit value, so every symbol can be
named at either width (DESIGN CHOICE, log entry 36: the spec gives it no width). -/
inductive Pseudo where
  /-- `42_branches.md` R177. -/
  | beqz (rs1 : Reg) (offset : BitVec 12)
  /-- R178. -/
  | bgez (rs1 : Reg) (offset : BitVec 12)
  /-- R179. -/
  | bgt (rs1 rs2 : Reg) (offset : BitVec 12)
  /-- R180. -/
  | bgtu (rs1 rs2 : Reg) (offset : BitVec 12)
  /-- R181. -/
  | bgtz (rs : Reg) (offset : BitVec 12)
  /-- R182. -/
  | ble (rs1 rs2 : Reg) (offset : BitVec 12)
  /-- R183. -/
  | bleu (rs1 rs2 : Reg) (offset : BitVec 12)
  /-- R184. -/
  | blez (rs : Reg) (offset : BitVec 12)
  /-- R185. -/
  | bltz (rs : Reg) (offset : BitVec 12)
  /-- R186. -/
  | bnez (rs1 : Reg) (offset : BitVec 12)
  /-- `48_pseudo.md` R321; the width of the offset is the model's choice (log entry 36). -/
  | call (rd : Reg) (offset : BitVec 64)
  /-- `45_csr.md` R277. -/
  | csrr (rd : Reg) (csr : CsrNum)
  /-- R278. -/
  | csrc (csr : CsrNum) (rs1 : Reg)
  /-- R279. -/
  | csrci (csr : CsrNum) (zimm : BitVec 5)
  /-- R280. -/
  | csrs (csr : CsrNum) (rs1 : Reg)
  /-- R281. -/
  | csrsi (csr : CsrNum) (zimm : BitVec 5)
  /-- R282. -/
  | csrw (csr : CsrNum) (rs1 : Reg)
  /-- R283. -/
  | csrwi (csr : CsrNum) (zimm : BitVec 5)
  /-- `48_pseudo.md` R322. -/
  | fabsD (rd rs1 : Reg)
  /-- R323. -/
  | fabsS (rd rs1 : Reg)
  deriving DecidableEq, Repr

/-- An instruction the source names only as an expansion, with its operands. The spec gives it no
row (`00_scope.md` section 3): no decoder reads it and no step executes it. -/
inductive Outside where
  /-- `jalr rd, offset(rs1)` (`48_pseudo.md` R321). -/
  | jalr (rd : Reg) (offset : BitVec 12) (rs1 : Reg)
  /-- `fsgnjx.d rd, rs1, rs2` (R322). -/
  | fsgnjxD (rd rs1 rs2 : Reg)
  /-- `fsgnjx.s rd, rs1, rs2` (R323). -/
  | fsgnjxS (rd rs1 rs2 : Reg)
  deriving DecidableEq, Repr

/-- One emitted instruction: one of the excerpt, or one outside it (R320, the table). -/
inductive Emitted where
  | machine (i : Instr)
  | outside (o : Outside)
  deriving DecidableEq, Repr

/-- `call symbol`: `rd` is `x1` where it is omitted (R321). -/
def Pseudo.callDefault (offset : BitVec 64) : Pseudo := .call 1 offset

/-- `offsetLo` of `call`: bits 11:0, which `jalr` sign-extends (`48_pseudo.md` R321). PRESUMED (log
entry 35): the spec takes the split from outside its source. -/
def callLo (offset : BitVec 64) : BitVec 12 := offset.extractLsb' 0 12

/-- `offsetHi` of `call`: `(offset + 0x800) >> 12` taken to 20 bits (R321; PRESUMED, log entry 35).
At `XLEN = 64` the two halves reach the offsets from -2^31 - 2^11 to 2^31 - 2^11 - 1 and no other;
outside that range the formula is applied all the same (DESIGN CHOICE, log entry 36: the spec does
not say what an assembler does there). -/
def callHi (offset : BitVec 64) : BitVec 20 := (offset + 0x800#64).extractLsb' 12 20

/-- What an assembler emits (`48_pseudo.md` R320, the table). -/
def Pseudo.emits : Pseudo → List Emitted
  | .beqz rs1 o => [.machine (.beq rs1 0 o)]
  | .bgez rs1 o => [.machine (.bge rs1 0 o)]
  | .bgt rs1 rs2 o => [.machine (.blt rs2 rs1 o)]
  | .bgtu rs1 rs2 o => [.machine (.bltu rs2 rs1 o)]
  | .bgtz rs o => [.machine (.blt 0 rs o)]
  | .ble rs1 rs2 o => [.machine (.bge rs2 rs1 o)]
  | .bleu rs1 rs2 o => [.machine (.bgeu rs2 rs1 o)]
  | .blez rs o => [.machine (.bge 0 rs o)]
  | .bltz rs o => [.machine (.blt rs 0 o)]
  | .bnez rs1 o => [.machine (.bne rs1 0 o)]
  | .call rd o => [.machine (.auipc rd (callHi o)), .outside (.jalr rd (callLo o) rd)]
  | .csrr rd c => [.machine (.csrrs rd c 0)]
  | .csrc c rs1 => [.machine (.csrrc 0 c rs1)]
  | .csrci c z => [.machine (.csrrci 0 c z)]
  | .csrs c rs1 => [.machine (.csrrs 0 c rs1)]
  | .csrsi c z => [.machine (.csrrsi 0 c z)]
  | .csrw c rs1 => [.machine (.csrrw 0 c rs1)]
  | .csrwi c z => [.machine (.csrrwi 0 c z)]
  | .fabsD rd rs1 => [.outside (.fsgnjxD rd rs1 rs1)]
  | .fabsS rd rs1 => [.outside (.fsgnjxS rd rs1 rs1)]

/-- The state after both halves of `call` (R321): the return address in `x[rd]`, `pc` at the symbol.
A record of what the spec says; no step does it, since `jalr` has no row. It is recorded for every
offset, also where the emitted halves miss the symbol (DESIGN CHOICE, log entry 36). -/
def callEffect (rd : Reg) (offset : BitVec 64) (s : State) : State :=
  (s.xset rd (s.pcv + 8#s.w)).setPc (s.pcv + offset.signExtend s.w)

/-- What `fabs.d` writes, from `f[rs1]`: bit 63 cleared, the other bits copied (R322; PRESUMED, log
entry 35). -/
def fabsDBits (v : BitVec 64) : BitVec 64 := 0#1 ++ v.extractLsb' 0 63

/-- What `fabs.s` writes, from `f[rs1]`: bit 31 cleared, under ones where `FLEN = 64`. None where
the spec defines no result: without F, and where `FLEN = 64` and the upper bits of the source are
not all ones (R323; PRESUMED, log entry 35). -/
def fabsSBits (cfg : Config) (v : BitVec 64) : Option (BitVec 64) :=
  if cfg.hasF = false ∨ flenOf cfg = 64 ∧ v.extractLsb' 32 32 ≠ BitVec.allOnes 32 then none
  else some (nanBox cfg (0#1 ++ v.extractLsb' 0 31))

/-- `f[rd] <- |f[rs1]|` of `fabs.d` (R322), which needs D: none without it. A record of what the
spec says; no step does it, since `fsgnjx.d` has no row. It leaves `pc` where it is (DESIGN CHOICE,
log entry 38: the spec gives `fsgnjx.d` no length). -/
def fabsDEffect (rd rs1 : Reg) (s : State) : Option State :=
  if s.cfg.hasD then some (s.fset rd (fabsDBits (s.fget rs1))) else none

/-- `f[rd] <- |f[rs1]|` of `fabs.s` (R323), which needs F: none without it. Where the spec does not
define the bits, `f[rd]` gets `free`, any value. A record as `fabsDEffect` is (DESIGN CHOICE, log
entry 38). -/
def fabsSEffect (rd rs1 : Reg) (free : BitVec 64) (s : State) : Option State :=
  if s.cfg.hasF then some (s.fset rd ((fabsSBits s.cfg (s.fget rs1)).getD free)) else none

end Sys2Proof.Machine
end

