-- ==== Sys2Proof/Safety.lean ====
section
/-!
DEFINITION. The terms that statements about the machine use: what a reader sees of a state, what an
instruction changed, what a well-formed state is, and what a run is.
-/
namespace Sys2Proof.Machine

/-! ## What a reader sees of a state, as numbers -/

/-- `unsigned(x[r])`. -/
def State.xval (s : State) (r : Reg) : Nat := (s.xget r).toNat

/-- `signed(x[r])`. -/
def State.xint (s : State) (r : Reg) : Int := (s.xget r).toInt

/-- `pc` as a number. -/
def State.pcNat (s : State) : Nat := s.pcv.toNat

/-- `unsigned(CSRs[c])`. -/
def State.csrVal (s : State) (c : CsrNum) : Nat := (s.csrGet c).toNat

/-- The byte of memory at an address. -/
def State.byteAt (s : State) (a : Nat) : Byte := s.mem.read a

/-- The number held by `n` bytes from address `a` on, lowest byte first, the addresses taken modulo
2^XLEN (`20_memory.md` R50, R52, R53). -/
def State.numAt (s : State) (a : Nat) : Nat → Nat
  | 0 => 0
  | n + 1 => (s.byteAt (a % 2 ^ s.w)).toNat + 256 * s.numAt (a + 1) n

/-- An integer modulo 2^w, as an unsigned number (`00_scope.md` R5). -/
def wrap (w : Nat) (z : Int) : Nat := (z % (2 ^ w : Int)).toNat

/-- `signed(v)` of the low `w` bits of a number (`00_scope.md` R5). -/
def signedOf (w : Nat) (z : Int) : Int := z.bmod (2 ^ w)

/-! ## What an instruction changed -/

/-- `t` differs from `s` in no more than `pc`, the x registers `xs`, the f registers `fs`, the CSRs
`cs` and the bytes at the addresses `addrs`. -/
structure ChangesOnly (s t : State) (xs fs : List Reg) (cs : List CsrNum) (addrs : List Nat) :
    Prop where
  /-- The launch parameters are never changed. -/
  cfg : t.cfg = s.cfg
  xregs : ∀ r, r ∉ xs → t.xval r = s.xval r
  fregs : ∀ r, r ∉ fs → t.fget r = s.fget r
  csrs : ∀ c, c ∉ cs → t.csrVal c = s.csrVal c
  bytes : ∀ a, a ∉ addrs → t.byteAt a = s.byteAt a

/-- The instruction completes, goes on at `pc + ilen`, writes `v` to `x[rd]` (nothing where `rd` is
`x0`) and changes nothing else. -/
def WritesX (out : Out) (s : State) (rd : Reg) (v ilen : Nat) : Prop :=
  ∃ t, out = .next t ∧ t.xval rd = (if rd = 0 then 0 else v) ∧
    t.pcNat = (s.pcNat + ilen) % 2 ^ s.w ∧ ChangesOnly s t [rd] [] [] []

/-- The instruction completes, goes on at `pc + ilen`, writes `v` to `f[rd]` and changes nothing
else. -/
def WritesF (out : Out) (s : State) (rd : Reg) (v : BitVec 64) (ilen : Nat) : Prop :=
  ∃ t, out = .next t ∧ t.fget rd = v ∧
    t.pcNat = (s.pcNat + ilen) % 2 ^ s.w ∧ ChangesOnly s t [] [rd] [] []

/-- The instruction completes, goes on at `pc + 2`, stores the number `v` in the `n` bytes at
address `a`, and changes nothing else. -/
def StoresNum (out : Out) (s : State) (a n v : Nat) : Prop :=
  ∃ t, out = .next t ∧ t.numAt a n = v ∧
    t.pcNat = (s.pcNat + 2) % 2 ^ s.w ∧
    ChangesOnly s t [] [] [] ((List.range n).map fun k => (a + k) % 2 ^ s.w)

/-- The instruction completes, goes on at `target` and changes nothing else. -/
def GoesTo (out : Out) (s : State) (target : Nat) : Prop :=
  ∃ t, out = .next t ∧ t.pcNat = target ∧ ChangesOnly s t [] [] [] []

/-- The outcome is the trap `E` at this instruction, with `tval`. -/
def Traps (out : Out) (s : State) (e : Exception) (tval : Option Nat) : Prop :=
  out = .fault (.trap e (BitVec.ofNat 64 s.pcNat) (tval.map (BitVec.ofNat 64)))

/-- An AMO of `n` bytes completes: memory at `x[rs1]` becomes `new`, `x[rd]` the sign-extended old
value, `pc` advances by 4, and nothing else changes (`41_atomics.md` R140). -/
def AmoWrites (out : Out) (s : State) (rd rs1 : Reg) (n new : Nat) : Prop :=
  ∃ t, out = .next t ∧ t.numAt (s.xval rs1) n = new ∧
    t.xval rd = (if rd = 0 then 0
      else wrap s.w (signedOf (8 * n) (s.numAt (s.xval rs1) n))) ∧
    t.pcNat = (s.pcNat + 4) % 2 ^ s.w ∧
    ChangesOnly s t [rd] [] [] ((List.range n).map fun k => (s.xval rs1 + k) % 2 ^ s.w)

/-- A CSR instruction completes: the CSR becomes `new`, `x[rd]` its old value, `pc` advances by 4,
and nothing else changes (`45_csr.md` R270). -/
def CsrWrites (out : Out) (s : State) (rd : Reg) (c : CsrNum) (new : Nat) : Prop :=
  ∃ t, out = .next t ∧ t.csrVal c = new ∧ t.xval rd = (if rd = 0 then 0 else s.csrVal c) ∧
    t.pcNat = (s.pcNat + 4) % 2 ^ s.w ∧ ChangesOnly s t [rd] [] [c] []

/-- The instruction completes, goes on at `target`, writes the link `pc + 2` to `x[1]` and changes
nothing else (`44_compressed_mem_ctrl.md` R250 (b)). -/
def LinksAndGoesTo (out : Out) (s : State) (target : Nat) : Prop :=
  ∃ t, out = .next t ∧ t.xval 1 = (s.pcNat + 2) % 2 ^ s.w ∧ t.pcNat = target ∧
    ChangesOnly s t [1] [] [] []

/-- The effect recorded for a floating-point pseudo-instruction leaves `v` in `f[rd]` and changes
nothing else. -/
def RecordsF (effect : Option State) (s : State) (rd : Reg) (v : BitVec 64) : Prop :=
  ∃ t, effect = some t ∧ t.fget rd = v ∧ ChangesOnly s t [] [rd] [] []

/-- A pseudo-instruction emits the one instruction `i`, and that goes to `target` and changes nothing
else. -/
def BranchPseudo (p : Pseudo) (i : Instr) (s : State) (target : Nat) : Prop :=
  p.emits = [.machine i] ∧ GoesTo (exec i s) s target

/-- A pseudo-instruction emits the one instruction `i`, and that makes the CSR `new`, `x[rd]` its old
value, and changes nothing else. -/
def CsrPseudo (p : Pseudo) (i : Instr) (s : State) (rd : Reg) (c : CsrNum) (new : Nat) : Prop :=
  p.emits = [.machine i] ∧ CsrWrites (exec i s) s rd c new

/-- The two outcomes are next states that differ in `pc` alone, the first at the end of a 2-byte
instruction, the second at the end of a 4-byte one. -/
def SameButLength (out out' : Out) (s : State) : Prop :=
  ∃ t t', out = .next t ∧ out' = .next t' ∧
    t = { t' with pc := t.pc } ∧ t.pcNat = (s.pcNat + 2) % 2 ^ s.w ∧
    t'.pcNat = (s.pcNat + 4) % 2 ^ s.w

/-! ## What an access may do -/

/-- The address is a multiple of the access size. -/
def Aligned (a n : Nat) : Prop := a % n = 0

/-- Every byte of an access satisfies `p`; the addresses are taken modulo 2^XLEN. -/
def EveryByte (s : State) (a n : Nat) (p : Nat → Bool) : Prop :=
  ∀ k, k < n → p ((a + k) % 2 ^ s.w) = true

/-- A load or store of `n` bytes at `a` passes its alignment check (`20_memory.md` R55). -/
def AlignmentAllows (s : State) (a n : Nat) : Prop := s.cfg.misaligned = .split ∨ Aligned a n

/-- A load of `n` bytes at `a` raises nothing (`20_memory.md` R55, R57). -/
def LoadAllowed (s : State) (a n : Nat) : Prop :=
  AlignmentAllows s a n ∧ EveryByte s a n s.readableAt

/-- A store of `n` bytes at `a` raises nothing and writes no code (`20_memory.md` R55, R57, R68). -/
def StoreAllowed (s : State) (a n : Nat) : Prop :=
  AlignmentAllows s a n ∧ EveryByte s a n s.writableAt ∧
    EveryByte s a n fun b => !s.executableAt b

/-- An AMO of `n` bytes at `a` raises nothing and writes no code (`41_atomics.md` R140;
`20_memory.md` R56, R57, R68). -/
def AmoAllowed (s : State) (a n : Nat) : Prop :=
  Aligned a n ∧ EveryByte s a n s.readableAt ∧ EveryByte s a n s.writableAt ∧
    EveryByte s a n fun b => !s.executableAt b

/-! ## Groups of instructions -/

/-- The nine `.w` AMOs on the same operands. -/
def amoWords (aq rl : BitVec 1) (rd rs2 rs1 : Reg) : List Instr :=
  [.amoaddW aq rl rd rs2 rs1, .amoandW aq rl rd rs2 rs1, .amomaxW aq rl rd rs2 rs1,
   .amomaxuW aq rl rd rs2 rs1, .amominW aq rl rd rs2 rs1, .amominuW aq rl rd rs2 rs1,
   .amoorW aq rl rd rs2 rs1, .amoswapW aq rl rd rs2 rs1, .amoxorW aq rl rd rs2 rs1]

/-- The nine `.d` AMOs on the same operands. -/
def amoDoubles (aq rl : BitVec 1) (rd rs2 rs1 : Reg) : List Instr :=
  [.amoaddD aq rl rd rs2 rs1, .amoandD aq rl rd rs2 rs1, .amomaxD aq rl rd rs2 rs1,
   .amomaxuD aq rl rd rs2 rs1, .amominD aq rl rd rs2 rs1, .amominuD aq rl rd rs2 rs1,
   .amoorD aq rl rd rs2 rs1, .amoswapD aq rl rd rs2 rs1, .amoxorD aq rl rd rs2 rs1]

/-- The six CSR instructions on the same CSR and destination. -/
def csrInstrs (rd : Reg) (c : CsrNum) (rs1 : Reg) (zimm : BitVec 5) : List Instr :=
  [.csrrc rd c rs1, .csrrci rd c zimm, .csrrs rd c rs1, .csrrsi rd c zimm, .csrrw rd c rs1,
   .csrrwi rd c zimm]

/-- The instruction writes an f register (`10_state.md` R23). -/
def isFloatLoad : Instr → Bool
  | .cFld .. | .cFldsp .. | .cFlw .. | .cFlwsp .. => true
  | _ => false

/-- The instruction writes a CSR (`45_csr.md` R270). -/
def isCsrInstr : Instr → Bool
  | .csrrc .. | .csrrci .. | .csrrs .. | .csrrsi .. | .csrrw .. | .csrrwi .. => true
  | _ => false

/-- A compressed store (`20_memory.md` R60). -/
def isStore : Instr → Bool
  | .cFsd .. | .cFsdsp .. | .cFsw .. | .cFswsp .. | .cSd .. | .cSdsp .. | .cSw .. | .cSwsp .. => true
  | _ => false

/-- An AMO (`20_memory.md` R60). -/
def isAmo : Instr → Bool
  | .amoaddD .. | .amoaddW .. | .amoandD .. | .amoandW .. | .amomaxD .. | .amomaxW ..
  | .amomaxuD .. | .amomaxuW .. | .amominD .. | .amominW .. | .amominuD .. | .amominuW ..
  | .amoorD .. | .amoorW .. | .amoswapD .. | .amoswapW .. | .amoxorD .. | .amoxorW .. => true
  | _ => false

/-- An instruction that writes no x register: branches, stores, ecall, ebreak, c.ebreak, c.j, c.jr
and the floating-point loads (`10_state.md` R23). -/
def writesNoX : Instr → Bool
  | .beq .. | .bge .. | .bgeu .. | .blt .. | .bltu .. | .bne .. | .cBeqz .. | .cBnez .. => true
  | .cFsd .. | .cFsdsp .. | .cFsw .. | .cFswsp .. | .cSd .. | .cSdsp .. | .cSw .. | .cSwsp .. => true
  | .cFld .. | .cFldsp .. | .cFlw .. | .cFlwsp .. => true
  | .ecall | .ebreak | .cEbreak | .cJ .. | .cJr .. => true
  | _ => false

/-- The address an instruction accesses in memory, if it accesses any (`20_memory.md` R60;
`44_compressed_mem_ctrl.md` R230; `41_atomics.md` R140). -/
def dataAddress (s : State) : Instr → Option Nat
  | .amoaddD _ _ _ _ rs1 | .amoaddW _ _ _ _ rs1 | .amoandD _ _ _ _ rs1
  | .amoandW _ _ _ _ rs1 | .amomaxD _ _ _ _ rs1 | .amomaxW _ _ _ _ rs1
  | .amomaxuD _ _ _ _ rs1 | .amomaxuW _ _ _ _ rs1 | .amominD _ _ _ _ rs1
  | .amominW _ _ _ _ rs1 | .amominuD _ _ _ _ rs1 | .amominuW _ _ _ _ rs1
  | .amoorD _ _ _ _ rs1 | .amoorW _ _ _ _ rs1 | .amoswapD _ _ _ _ rs1
  | .amoswapW _ _ _ _ rs1 | .amoxorD _ _ _ _ rs1 | .amoxorW _ _ _ _ rs1 => some (s.xval rs1)
  | .cLw _ u r | .cFlw _ u r | .cSw _ u r | .cFsw _ u r => some (addrWord r u s).toNat
  | .cLwsp _ u | .cFlwsp _ u | .cSwsp _ u | .cFswsp _ u => some (addrWordSp u s).toNat
  | .cLd _ u r | .cFld _ u r | .cSd _ u r | .cFsd _ u r => some (addrDouble r u s).toNat
  | .cLdsp _ u | .cFldsp _ u | .cSdsp _ u | .cFsdsp _ u => some (addrDoubleSp u s).toNat
  | _ => none

/-! ## Bits and quotients as numbers -/

/-- Bits `hi` down to `lo` of a number. -/
def field (v hi lo : Nat) : Nat := v / 2 ^ lo % 2 ^ (hi + 1 - lo)

/-- Each bit `i` of `v` is the bit of `x` that `low` names at place `i` (`none`: zero); past the end
of `low` it is the bit `sign` names (`none`: zero). -/
def Assembles {w n : Nat} (v : BitVec w) (x : BitVec n) (low : List (Option Nat))
    (sign : Option Nat) : Prop :=
  ∀ i, i < w → v.getLsbD i = ((low[i]?).getD sign).any x.getLsbD

/-- The signed quotient rounded toward zero, and -1 for a zero divisor (`46_div.md` R300). -/
def quotient (a b : Int) : Int := if b = 0 then -1 else a.tdiv b

/-- An illegal 16-bit word, item by item (`30_encoding.md` R103). -/
def IllegalHalf (cfg : Config) (v : Nat) : Prop :=
  -- item 4: c.addi4spn with uimm = 0
  (field v 1 0 = 0 ∧ field v 15 13 = 0 ∧ field v 12 5 = 0) ∨
  -- item 5: c.addiw with rd = x0
  (field v 1 0 = 1 ∧ field v 15 13 = 1 ∧ cfg.xlen = .rv64 ∧ field v 11 7 = 0) ∨
  -- items 3 and 10: c.addi16sp and c.lui with imm = 0
  (field v 1 0 = 1 ∧ field v 15 13 = 3 ∧ field v 12 12 = 0 ∧ field v 6 2 = 0) ∨
  -- item 13: c.srli and c.srai by 32 or more at XLEN = 32
  (field v 1 0 = 1 ∧ field v 15 13 = 4 ∧ field v 11 10 < 2 ∧ cfg.xlen = .rv32 ∧
    field v 12 12 = 1) ∨
  -- item 13: c.slli by 32 or more at XLEN = 32
  (field v 1 0 = 2 ∧ field v 15 13 = 0 ∧ cfg.xlen = .rv32 ∧ field v 12 12 = 1) ∨
  -- item 11: c.lwsp with rd = x0
  (field v 1 0 = 2 ∧ field v 15 13 = 2 ∧ field v 11 7 = 0) ∨
  -- item 8: c.ldsp with rd = x0
  (field v 1 0 = 2 ∧ field v 15 13 = 3 ∧ cfg.xlen = .rv64 ∧ field v 11 7 = 0) ∨
  -- item 7: c.jr with rs1 = x0
  (field v 1 0 = 2 ∧ field v 15 13 = 4 ∧ field v 12 12 = 0 ∧ field v 11 7 = 0 ∧
    field v 6 2 = 0) ∨
  -- item 1: c.add with rd = x0 and rs2 not x0
  (field v 1 0 = 2 ∧ field v 15 13 = 4 ∧ field v 12 12 = 1 ∧ field v 11 7 = 0 ∧
    field v 6 2 ≠ 0)

/-! ## Well-formed states -/

/-- The form every state of a run has: sparse tables in canonical form and within their key space,
`x[0]` zero, every register within its width, `pc` even (`10_state.md` R20, R21, R24, R26, R30, R34;
`20_memory.md` R50). -/
structure State.Inv (s : State) : Prop where
  memCanonical : s.mem.wf = true
  memInSpace : ∀ e ∈ s.mem, e.1 < 2 ^ s.w
  csrsCanonical : s.csrs.wf = true
  csrsInSpace : ∀ e ∈ s.csrs, e.1 < 4096 ∧ e.2.toNat < 2 ^ s.w
  zeroRegister : s.x[0] = 0
  xWidth : ∀ i (h : i < 32), (s.x[i]).toNat < 2 ^ s.w
  fWidth : ∀ i (h : i < 32), (s.f[i]).toNat < 2 ^ flenOf s.cfg
  pcWidth : s.pc.toNat < 2 ^ s.w
  pcEven : s.pc.toNat % 2 = 0

/-! ## Runs -/

/-- `t` follows from `s` by some number of steps that each answer a next state
(`60_exceptions.md` R337: a run ends at the first trap or refusal). -/
inductive Runs : State → State → Prop where
  | here (s : State) : Runs s s
  | more {s t u : State} : step s = .next t → Runs t u → Runs s u

/-- A safe run of `n` steps: none of them is refused. -/
def NeverRefused : Nat → State → Prop
  | 0, _ => True
  | n + 1, s =>
    match step s with
    | .next t => NeverRefused n t
    | .fault _ => True
    | .refused _ => False

end Sys2Proof.Machine
end

