-- ==== Sys2Proof/Certificates/Slice0/Obligations.lean ====
section
/-!
DEFINITION. The statements for the provers. Each docstring names the rules of `spec/` it rests on.
`s` is any state and `cfg` any launch parameters unless a statement says otherwise; where a
statement needs memory or the CSR array in canonical form, that is part of `State.Inv`, which
`StepKeepsInvariant` and `ResetStateMeetsInvariant` are about.
-/
section
open Sys2Proof Sys2Proof.Machine

/-! ## Decoding and encoding -/

/-- Example words of the spec, one or more per family, decode to the instruction they stand for
(`40_integer_arith.md` R121, R122; `41_atomics.md` R144; `42_branches.md` R174;
`43_compressed_alu.md` R203; `44_compressed_mem_ctrl.md` R242, R244, R254, R255; `45_csr.md` R271;
`46_div.md` R304; `47_system.md` R311). -/
def Obligations.SampleWordsDecode : Prop :=
  decode launchConfig (.full 0x002081B3) = .instr (.add 3 1 2) ∧
  decode launchConfig (.full 0xFFF30293) = .instr (.addi 5 6 0xFFF) ∧
  decode launchConfig (.full 0x0663A2AF) = .instr (.amoaddW 1 1 5 6 7) ∧
  decode launchConfig (.full 0xFE62CCE3) = .instr (.blt 5 6 0xFFC) ∧
  decode launchConfig (.half 0x7139) = .instr (.cAddi16sp 0x3C) ∧
  decode launchConfig (.half 0x50FE) = .instr (.cLwsp 1 0x3F) ∧
  decode launchConfig (.half 0xE406) = .instr (.cSdsp 1 1) ∧
  decode launchConfig (.half 0xAFFD) = .instr (.cJ 0x3FF) ∧
  decode { launchConfig with xlen := .rv32 } (.half 0x2005) = .instr (.cJal 0x010) ∧
  decode launchConfig (.full 0x340332F3) = .instr (.csrrc 5 0x340 6) ∧
  decode launchConfig (.full 0x027342BB) = .instr (.divw 5 6 7) ∧
  decode launchConfig (.full 0x00000073) = .instr .ecall

/-- Decoding the word of a well-formed instruction gives the instruction back, for every instruction
and every operand value (`30_encoding.md` R100 to R102). The bound on compressed shifts at `XLEN =
32` is the spec's decision D19 (log entry 19). -/
def Obligations.DecodeOfEncode : Prop :=
  ∀ (cfg : Config) (i : Instr), i.wellFormed cfg = true → decode cfg (encode i) = .instr i

/-- A word that decodes is the word of the instruction it decodes to: no bit of it is ignored
(`30_encoding.md` R100 to R102). -/
def Obligations.EncodeOfDecode : Prop :=
  ∀ (cfg : Config) (c : Code) (i : Instr), decode cfg c = .instr i → encode i = c

/-- The decoder answers only instructions that exist under the launch parameters and have legal
operands (`30_encoding.md` R100 to R103). The bound on compressed shifts at `XLEN = 32` is the
spec's decision D19 (log entry 19). -/
def Obligations.DecodedIsWellFormed : Prop :=
  ∀ (cfg : Config) (c : Code) (i : Instr), decode cfg c = .instr i → i.wellFormed cfg = true

/-- The illegal words are exactly the illegal items of the spec's list, all of them 16-bit words of
a machine with compressed instructions (`30_encoding.md` R103). That an illegal word is one outcome
of its own is the spec's decision D8, item 13 its decision D19 (log entry 19). -/
def Obligations.IllegalWordsAreTheListed : Prop :=
  (∀ (cfg : Config) (w : BitVec 16),
    decode cfg (.half w) = .illegal ↔ cfg.hasC = true ∧ IllegalHalf cfg w.toNat) ∧
  ∀ (cfg : Config) (w : BitVec 32), decode cfg (.full w) ≠ .illegal

/-- A word is refused exactly where it is no well-formed instruction's word and not illegal
(`30_encoding.md` R104). That such a word is refused is the spec's decision D27 (log entry 18). -/
def Obligations.RefusedWordsMatchNoRow : Prop :=
  ∀ (cfg : Config) (c : Code), decode cfg c = .notInExcerpt ↔
    decode cfg c ≠ .illegal ∧ ∀ i : Instr, i.wellFormed cfg = true → encode i ≠ c

/-- The immediates of the 32-bit formats, bit by bit (`30_encoding.md` R107, R108, R109). -/
def Obligations.WordImmediatesAssembled : Prop :=
  ∀ (w : Nat) (x : BitVec 32),
    Assembles (immI w (imm12Of x)) x
      [some 20, some 21, some 22, some 23, some 24, some 25, some 26, some 27, some 28, some 29,
       some 30] (some 31) ∧
    Assembles (zimm5 w (rs1Of x)) x [some 15, some 16, some 17, some 18, some 19] none ∧
    Assembles (immU w (imm20Of x)) x
      [none, none, none, none, none, none, none, none, none, none, none, none,
       some 12, some 13, some 14, some 15, some 16, some 17, some 18, some 19, some 20, some 21,
       some 22, some 23, some 24, some 25, some 26, some 27, some 28, some 29, some 30]
      (some 31) ∧
    Assembles (offsetB w (offsetBOf x)) x
      [none, some 8, some 9, some 10, some 11, some 25, some 26, some 27, some 28, some 29,
       some 30, some 7] (some 31)

/-- The immediates of the 16-bit formats, bit by bit, row by row of the spec's table
(`30_encoding.md` R110). -/
def Obligations.CompressedImmediatesAssembled : Prop :=
  ∀ (w : Nat) (x : BitVec 16),
    Assembles (immC w (immCIOf x)) x [some 2, some 3, some 4, some 5, some 6] (some 12) ∧
    Assembles (immCLui w (immCIOf x)) x
      [none, none, none, none, none, none, none, none, none, none, none, none,
       some 2, some 3, some 4, some 5, some 6] (some 12) ∧
    Assembles (imm16sp w (imm16spOf x)) x
      [none, none, none, none, some 6, some 2, some 5, some 3, some 4] (some 12) ∧
    Assembles (uimm4spn w (uimm4spnOf x)) x
      [none, none, some 6, some 5, some 11, some 12, some 7, some 8, some 9, some 10] none ∧
    Assembles (BitVec.ofNat 6 (shamt (immCIOf x))) x
      [some 2, some 3, some 4, some 5, some 6, some 12] none ∧
    Assembles (uimmWord w (uimmWordOf x)) x
      [none, none, some 6, some 10, some 11, some 12, some 5] none ∧
    Assembles (uimmDouble w (uimmDoubleOf x)) x
      [none, none, none, some 10, some 11, some 12, some 5, some 6] none ∧
    Assembles (uimmWordSp w (uimmLwspOf x)) x
      [none, none, some 4, some 5, some 6, some 12, some 2, some 3] none ∧
    Assembles (uimmDoubleSp w (uimmLdspOf x)) x
      [none, none, none, some 5, some 6, some 12, some 2, some 3, some 4] none ∧
    Assembles (uimmWordSp w (uimmSwspOf x)) x
      [none, none, some 9, some 10, some 11, some 12, some 7, some 8] none ∧
    Assembles (uimmDoubleSp w (uimmSdspOf x)) x
      [none, none, none, some 10, some 11, some 12, some 7, some 8, some 9] none ∧
    Assembles (offsetCB w (offsetCBOf x)) x
      [none, some 3, some 4, some 10, some 11, some 2, some 5, some 6] (some 12) ∧
    Assembles (offsetCJ w (offsetCJOf x)) x
      [none, some 3, some 4, some 5, some 11, some 2, some 7, some 6, some 9, some 10, some 8]
      (some 12)

/-! ## Fetch and the step -/

/-- Fetch at `pc`: an odd `pc`, a first parcel, a second parcel (`20_memory.md` R59). Fetch is the
spec's decision throughout: D3, D6, D17, D18 (log entries 8, 27, 32, 34). That a fetch needs no byte
to be readable is the MODEL'S reading of R53 beside R59 (log entry 37). -/
def Obligations.FetchReadsOneOrTwoParcels : Prop :=
  ∀ s : State,
    (s.pcNat % 2 = 1 → fetch s = .failed .instructionAddressMisaligned) ∧
    (s.pcNat % 2 = 0 → ¬ EveryByte s s.pcNat 2 s.executableAt →
      fetch s = .failed .instructionAccessFault) ∧
    (s.pcNat % 2 = 0 → EveryByte s s.pcNat 2 s.executableAt → s.numAt s.pcNat 2 % 4 ≠ 3 →
      fetch s = .code (.half (BitVec.ofNat 16 (s.numAt s.pcNat 2)))) ∧
    (s.pcNat % 2 = 0 → EveryByte s s.pcNat 2 s.executableAt → s.numAt s.pcNat 2 % 4 = 3 →
      ¬ EveryByte s (s.pcNat + 2) 2 s.executableAt →
      fetch s = .failed .instructionAccessFault) ∧
    (s.pcNat % 2 = 0 → EveryByte s s.pcNat 2 s.executableAt → s.numAt s.pcNat 2 % 4 = 3 →
      EveryByte s (s.pcNat + 2) 2 s.executableAt →
      fetch s = .code (.full (BitVec.ofNat 32 (s.numAt s.pcNat 4))))

/-- A step whose fetched word decodes to an instruction is `exec` of that instruction at that state:
the step adds nothing around it (`00_scope.md` R11). The split of a step into three outcomes is the
spec's decision D7 (log entry 16). -/
def Obligations.StepRunsDecodedInstruction : Prop :=
  ∀ (s : State) (c : Code) (i : Instr),
    fetch s = .code c → decode s.cfg c = .instr i → step s = exec i s

/-- What a step answers where there is no instruction to execute: the fetch exception with `tval =
pc`, `IllegalInstruction` with the word, or a refusal (`60_exceptions.md` R330, R334;
`30_encoding.md` R103, R104). The trap, its `tval` and the refusal are the spec's decisions D7, D28
and D27 (log entries 16, 18, 26). -/
def Obligations.StepStopsBeforeExecution : Prop :=
  ∀ s : State,
    (∀ e, fetch s = .failed e → Traps (step s) s e (some s.pcNat)) ∧
    (∀ c, fetch s = .code c → decode s.cfg c = .illegal →
      Traps (step s) s .illegalInstruction (some c.zext.toNat)) ∧
    ∀ c, fetch s = .code c → decode s.cfg c = .notInExcerpt →
      step s = .refused (.notInExcerpt c)

/-- Where the bytes of a well-formed instruction's encoding stand executable at an even `pc`, lowest
byte first, the step executes that instruction (`20_memory.md` R59; `30_encoding.md` R81, R82,
R100). The byte order and the length rule are the spec's decisions D3 and D17 (log entries 8, 34).
That the bytes need not be readable is the MODEL'S reading of R53 beside R59 (log entry 37). -/
def Obligations.EncodedInstructionRuns : Prop :=
  ∀ (s : State) (i : Instr), i.wellFormed s.cfg = true → s.pcNat % 2 = 0 →
    EveryByte s s.pcNat (encode i).len s.executableAt →
    ((List.range (encode i).len).map fun k => s.byteAt ((s.pcNat + k) % 2 ^ s.w)) =
      (encode i).bytes →
    step s = exec i s

/-! ## Integer computational instructions -/

/-- add, addi, addiw, addw, and, andi, auipc complete in every state with the value the spec gives,
write nothing but `x[rd]` (nothing at all where `rd` is `x0`) and go on at `pc + 4`
(`40_integer_arith.md` R120 to R127). That `x0` takes no write is the spec's own inference (R21
'derived', log entry 34). That `pc + 4` is taken modulo 2^XLEN is the spec's decision D16 (R27, log
entry 28). -/
def Obligations.IntegerArithmeticResults : Prop :=
  ∀ (s : State) (rd rs1 rs2 : Reg) (imm : BitVec 12) (u : BitVec 20),
    WritesX (exec (.add rd rs1 rs2) s) s rd ((s.xval rs1 + s.xval rs2) % 2 ^ s.w) 4 ∧
    WritesX (exec (.addi rd rs1 imm) s) s rd (wrap s.w (s.xval rs1 + imm.toInt)) 4 ∧
    WritesX (exec (.addiw rd rs1 imm) s) s rd
      (wrap s.w (signedOf 32 (s.xval rs1 + imm.toInt))) 4 ∧
    WritesX (exec (.addw rd rs1 rs2) s) s rd
      (wrap s.w (signedOf 32 (s.xval rs1 + s.xval rs2))) 4 ∧
    WritesX (exec (.and rd rs1 rs2) s) s rd (s.xval rs1 &&& s.xval rs2) 4 ∧
    WritesX (exec (.andi rd rs1 imm) s) s rd (s.xval rs1 &&& wrap s.w imm.toInt) 4 ∧
    WritesX (exec (.auipc rd u) s) s rd (wrap s.w (s.pcNat + u.toInt * 4096)) 4

/-! ## Atomic memory operations -/

/-- The nine `.w` AMOs, where the word at `x[rs1]` is aligned, readable, writable and not
executable: the new word, the sign-extended old word in `x[rd]`, nothing else; for every `aq`, `rl`
(`41_atomics.md` R140, R142 and the rule of each). The low 32 bits of `x[rs2]`, the alignment and
permission conditions and the byte order are the spec's decisions D20, D5, D6, D3 (log entries 8,
10, 14, 20, 27), as is what `aq` and `rl` do, D21 (log entry 15). That `pc + 4` is taken modulo
2^XLEN is the spec's decision D16 (R27, log entry 28). -/
def Obligations.AmoWordResults : Prop :=
  ∀ (s : State) (aq rl : BitVec 1) (rd rs2 rs1 : Reg),
    s.mem.wf = true → AmoAllowed s (s.xval rs1) 4 →
    let t := s.numAt (s.xval rs1) 4
    let v := s.xval rs2 % 2 ^ 32
    AmoWrites (exec (.amoaddW aq rl rd rs2 rs1) s) s rd rs1 4 ((t + v) % 2 ^ 32) ∧
    AmoWrites (exec (.amoandW aq rl rd rs2 rs1) s) s rd rs1 4 (t &&& v) ∧
    AmoWrites (exec (.amomaxW aq rl rd rs2 rs1) s) s rd rs1 4
      (if signedOf 32 t ≥ signedOf 32 v then t else v) ∧
    AmoWrites (exec (.amomaxuW aq rl rd rs2 rs1) s) s rd rs1 4 (if t ≥ v then t else v) ∧
    AmoWrites (exec (.amominW aq rl rd rs2 rs1) s) s rd rs1 4
      (if signedOf 32 t ≤ signedOf 32 v then t else v) ∧
    AmoWrites (exec (.amominuW aq rl rd rs2 rs1) s) s rd rs1 4 (if t ≤ v then t else v) ∧
    AmoWrites (exec (.amoorW aq rl rd rs2 rs1) s) s rd rs1 4 (t ||| v) ∧
    AmoWrites (exec (.amoswapW aq rl rd rs2 rs1) s) s rd rs1 4 v ∧
    AmoWrites (exec (.amoxorW aq rl rd rs2 rs1) s) s rd rs1 4 (t ^^^ v)

/-- The nine `.d` AMOs at `XLEN = 64`, the only width they exist at, under the same conditions for
the doubleword (`41_atomics.md` R140, R141, R142 and the rule of each). The alignment and permission
conditions, the byte order and `aq` and `rl` are the spec's decisions D5, D6, D3, D21 (log entries
8, 10, 15, 20, 27). That `pc + 4` is taken modulo 2^XLEN is the spec's decision D16 (R27, log entry
28). -/
def Obligations.AmoDoubleResults : Prop :=
  ∀ (s : State) (aq rl : BitVec 1) (rd rs2 rs1 : Reg), s.cfg.xlen = .rv64 →
    s.mem.wf = true → AmoAllowed s (s.xval rs1) 8 →
    let t := s.numAt (s.xval rs1) 8
    let v := s.xval rs2
    AmoWrites (exec (.amoaddD aq rl rd rs2 rs1) s) s rd rs1 8 ((t + v) % 2 ^ 64) ∧
    AmoWrites (exec (.amoandD aq rl rd rs2 rs1) s) s rd rs1 8 (t &&& v) ∧
    AmoWrites (exec (.amomaxD aq rl rd rs2 rs1) s) s rd rs1 8
      (if signedOf 64 t ≥ signedOf 64 v then t else v) ∧
    AmoWrites (exec (.amomaxuD aq rl rd rs2 rs1) s) s rd rs1 8 (if t ≥ v then t else v) ∧
    AmoWrites (exec (.amominD aq rl rd rs2 rs1) s) s rd rs1 8
      (if signedOf 64 t ≤ signedOf 64 v then t else v) ∧
    AmoWrites (exec (.amominuD aq rl rd rs2 rs1) s) s rd rs1 8 (if t ≤ v then t else v) ∧
    AmoWrites (exec (.amoorD aq rl rd rs2 rs1) s) s rd rs1 8 (t ||| v) ∧
    AmoWrites (exec (.amoswapD aq rl rd rs2 rs1) s) s rd rs1 8 v ∧
    AmoWrites (exec (.amoxorD aq rl rd rs2 rs1) s) s rd rs1 8 (t ^^^ v)

/-- Where an AMO of either width stops: misaligned first, whatever `MISALIGNED` is; then a byte not
readable and writable; then, refused, a byte that is executable (`20_memory.md` R56, R57, R58, R68;
`41_atomics.md` R140). All three stops are the spec's decisions D5, D6, D23, D28, D36 (log entries
10, 16, 20, 26). That a trap is terminal is its decision D7. -/
def Obligations.AmoStops : Prop :=
  ∀ (s : State) (aq rl : BitVec 1) (rd rs2 rs1 : Reg) (n : Nat) (i : Instr),
    (n = 4 ∧ i ∈ amoWords aq rl rd rs2 rs1 ∨ n = 8 ∧ i ∈ amoDoubles aq rl rd rs2 rs1) →
    let a := s.xval rs1
    (¬ Aligned a n → Traps (exec i s) s .storeAddressMisaligned (some a)) ∧
    (Aligned a n → ¬ (EveryByte s a n s.readableAt ∧ EveryByte s a n s.writableAt) →
      Traps (exec i s) s .storeAccessFault (some a)) ∧
    (Aligned a n → EveryByte s a n s.readableAt → EveryByte s a n s.writableAt →
      (¬ EveryByte s a n fun b => !s.executableAt b) →
      exec i s = .refused (.storeToExecutable (BitVec.ofNat 64 a)))

/-- The `aq` and `rl` bits of an AMO change nothing (`20_memory.md` R66; `41_atomics.md` R142). This
is the spec's decision D21 (log entry 15). -/
def Obligations.AqRlChangeNothing : Prop :=
  ∀ (s : State) (aq rl aq' rl' : BitVec 1) (rd rs2 rs1 : Reg),
    (amoWords aq rl rd rs2 rs1).map (fun i => exec i s) =
      (amoWords aq' rl' rd rs2 rs1).map (fun i => exec i s) ∧
    (amoDoubles aq rl rd rs2 rs1).map (fun i => exec i s) =
      (amoDoubles aq' rl' rd rs2 rs1).map (fun i => exec i s)

/-! ## Branches -/

/-- The six branches complete in every state: `pc + offset` where the comparison holds, else `pc +
4`, both modulo 2^XLEN, and nothing else changes (`42_branches.md` R170 to R176). The rules of the
six give the comparisons. That a taken branch completes in every state is the spec's decision D18
(R170, R26): it takes in `HAS_C = false` with a target that is 2 modulo 4, where the MODEL'S CHOICE
is to go on and a core without C would trap (log entry 32, unsafe). That `pc` wraps is the spec's
decision D16 (R27, log entry 28). -/
def Obligations.BranchResults : Prop :=
  ∀ (s : State) (rs1 rs2 : Reg) (o : BitVec 12),
    let taken := wrap s.w (s.pcNat + 2 * o.toInt)
    let next := (s.pcNat + 4) % 2 ^ s.w
    GoesTo (exec (.beq rs1 rs2 o) s) s (if s.xval rs1 = s.xval rs2 then taken else next) ∧
    GoesTo (exec (.bge rs1 rs2 o) s) s (if s.xint rs1 ≥ s.xint rs2 then taken else next) ∧
    GoesTo (exec (.bgeu rs1 rs2 o) s) s (if s.xval rs1 ≥ s.xval rs2 then taken else next) ∧
    GoesTo (exec (.blt rs1 rs2 o) s) s (if s.xint rs1 < s.xint rs2 then taken else next) ∧
    GoesTo (exec (.bltu rs1 rs2 o) s) s (if s.xval rs1 < s.xval rs2 then taken else next) ∧
    GoesTo (exec (.bne rs1 rs2 o) s) s (if s.xval rs1 ≠ s.xval rs2 then taken else next)

/-- The ten branch pseudo-instructions emit the branches their rules name, which are taken exactly
where the rules say (`42_branches.md` R177 to R186). The rules of the ten give what is emitted and
when it is taken; where a branch goes is R170. That it completes in every state is the spec's
decision D18: it takes in `HAS_C = false` with a target that is 2 modulo 4, where the MODEL'S CHOICE
is to go on and a core without C would trap (log entry 32, unsafe). That `pc` wraps is the spec's
decision D16 (R27, log entry 28). -/
def Obligations.PseudoBranchesTaken : Prop :=
  ∀ (s : State) (r1 r2 : Reg) (o : BitVec 12),
    let taken := wrap s.w (s.pcNat + 2 * o.toInt)
    let next := (s.pcNat + 4) % 2 ^ s.w
    BranchPseudo (.beqz r1 o) (.beq r1 0 o) s (if s.xval r1 = 0 then taken else next) ∧
    BranchPseudo (.bgez r1 o) (.bge r1 0 o) s (if s.xint r1 ≥ 0 then taken else next) ∧
    BranchPseudo (.bgt r1 r2 o) (.blt r2 r1 o) s
      (if s.xint r1 > s.xint r2 then taken else next) ∧
    BranchPseudo (.bgtu r1 r2 o) (.bltu r2 r1 o) s
      (if s.xval r1 > s.xval r2 then taken else next) ∧
    BranchPseudo (.bgtz r1 o) (.blt 0 r1 o) s (if s.xint r1 > 0 then taken else next) ∧
    BranchPseudo (.ble r1 r2 o) (.bge r2 r1 o) s
      (if s.xint r1 ≤ s.xint r2 then taken else next) ∧
    BranchPseudo (.bleu r1 r2 o) (.bgeu r2 r1 o) s
      (if s.xval r1 ≤ s.xval r2 then taken else next) ∧
    BranchPseudo (.blez r1 o) (.bge 0 r1 o) s (if s.xint r1 ≤ 0 then taken else next) ∧
    BranchPseudo (.bltz r1 o) (.blt r1 0 o) s (if s.xint r1 < 0 then taken else next) ∧
    BranchPseudo (.bnez r1 o) (.bne r1 0 o) s (if s.xval r1 ≠ 0 then taken else next)

/-- `call` emits an auipc and a jalr with the operands the rule names. The first half leaves `x[rd]`
at the symbol less `offsetLo`, for every offset at `XLEN = 32` and for every offset that the split
can express at `XLEN = 64`, where `rd` is not `x0`; and the effect the spec records for the whole of
it is, for every offset, the return address in `x[rd]` (nothing written where `rd` is `x0`), `pc` at
the symbol, nothing else (`48_pseudo.md` R321). The split is the spec's decision D30, the bounds its
arithmetic consequence (log entry 35). That the offset is a signed 64-bit value is the MODEL'S
CHOICE, as is recording the effect for an offset that the split cannot express (log entry 36). That
`pc` wraps is the spec's decision D16 (R27, log entry 28), that `x0` takes no write its own
inference (R21 'derived', log entry 34). -/
def Obligations.CallReachesItsSymbol : Prop :=
  ∀ (s : State) (rd : Reg) (o : BitVec 64),
    (Pseudo.call rd o).emits = [.machine (.auipc rd (callHi o)), .outside (.jalr rd (callLo o) rd)] ∧
    (rd ≠ 0 → (s.w = 64 → -2 ^ 31 - 2 ^ 11 ≤ o.toInt ∧ o.toInt < 2 ^ 31 - 2 ^ 11) →
      ∃ t, exec (.auipc rd (callHi o)) s = .next t ∧
        wrap s.w (t.xval rd + (callLo o).toInt) = wrap s.w (s.pcNat + o.toInt)) ∧
    (callEffect rd o s).xval rd = (if rd = 0 then 0 else (s.pcNat + 8) % 2 ^ s.w) ∧
    (callEffect rd o s).pcNat = wrap s.w (s.pcNat + o.toInt) ∧
    ChangesOnly s (callEffect rd o s) [rd] [] [] []

/-! ## Compressed computational instructions -/

/-- c.add, c.and, c.addw, c.mv, c.or, c.sub, c.subw, c.xor complete in every state with the value
the spec gives, write nothing but the destination register and go on at `pc + 2`
(`43_compressed_alu.md` R200, R201, R206, R207, R211, R212, R216, R217, R218). That `x0` takes no
write is the spec's own inference (R21 'derived', log entry 34). That `pc + 2` is taken modulo
2^XLEN is the spec's decision D16 (R27, log entry 28). -/
def Obligations.CompressedRegisterResults : Prop :=
  ∀ (s : State) (rd rs2 : Reg) (d r : CReg),
    WritesX (exec (.cAdd rd rs2) s) s rd ((s.xval rd + s.xval rs2) % 2 ^ s.w) 2 ∧
    WritesX (exec (.cMv rd rs2) s) s rd (s.xval rs2) 2 ∧
    WritesX (exec (.cAnd d r) s) s (creg d) (s.xval (creg d) &&& s.xval (creg r)) 2 ∧
    WritesX (exec (.cOr d r) s) s (creg d) (s.xval (creg d) ||| s.xval (creg r)) 2 ∧
    WritesX (exec (.cXor d r) s) s (creg d) (s.xval (creg d) ^^^ s.xval (creg r)) 2 ∧
    WritesX (exec (.cSub d r) s) s (creg d)
      (wrap s.w ((s.xval (creg d) : Int) - s.xval (creg r))) 2 ∧
    WritesX (exec (.cAddw d r) s) s (creg d)
      (wrap s.w (signedOf 32 (s.xval (creg d) + s.xval (creg r)))) 2 ∧
    WritesX (exec (.cSubw d r) s) s (creg d)
      (wrap s.w (signedOf 32 ((s.xval (creg d) : Int) - s.xval (creg r)))) 2

/-- c.addi, c.addi16sp, c.addi4spn, c.addiw, c.andi, c.li, c.lui complete in every state with the
value the spec gives, write nothing but the destination register (`x[2]` for c.addi16sp) and go on
at `pc + 2` (`43_compressed_alu.md` R200, R202 to R205, R208, R209, R210). That `x0` takes no write
is the spec's own inference (R21 'derived', log entry 34). That `pc + 2` is taken modulo 2^XLEN is
the spec's decision D16 (R27, log entry 28). -/
def Obligations.CompressedImmediateResults : Prop :=
  ∀ (s : State) (rd : Reg) (d : CReg) (imm : BitVec 6) (u : BitVec 8),
    WritesX (exec (.cAddi rd imm) s) s rd (wrap s.w (s.xval rd + imm.toInt)) 2 ∧
    WritesX (exec (.cAddi16sp imm) s) s 2 (wrap s.w (s.xval 2 + 16 * imm.toInt)) 2 ∧
    WritesX (exec (.cAddi4spn d u) s) s (creg d) ((s.xval 2 + 4 * u.toNat) % 2 ^ s.w) 2 ∧
    WritesX (exec (.cAddiw rd imm) s) s rd
      (wrap s.w (signedOf 32 (s.xval rd + imm.toInt))) 2 ∧
    WritesX (exec (.cAndi d imm) s) s (creg d) (s.xval (creg d) &&& wrap s.w imm.toInt) 2 ∧
    WritesX (exec (.cLi rd imm) s) s rd (wrap s.w imm.toInt) 2 ∧
    WritesX (exec (.cLui rd imm) s) s rd (wrap s.w (4096 * imm.toInt)) 2

/-- c.slli, c.srai, c.srli complete for every shift amount below `XLEN` (a larger one is illegal,
`30_encoding.md` R103 item 13) with the value the spec gives, write nothing but the destination
register and go on at `pc + 2` (`43_compressed_alu.md` R200, R213, R214, R215). The bound is the
spec's decision D19 (log entry 19). That `x0` takes no write is the spec's own inference (R21
'derived', log entry 34). That `pc + 2` is taken modulo 2^XLEN is the spec's decision D16 (R27, log
entry 28). -/
def Obligations.CompressedShiftResults : Prop :=
  ∀ (s : State) (rd : Reg) (d : CReg) (u : BitVec 6), u.toNat < s.w →
    WritesX (exec (.cSlli rd u) s) s rd (s.xval rd * 2 ^ u.toNat % 2 ^ s.w) 2 ∧
    WritesX (exec (.cSrai d u) s) s (creg d) (wrap s.w (s.xint (creg d) / 2 ^ u.toNat)) 2 ∧
    WritesX (exec (.cSrli d u) s) s (creg d) (s.xval (creg d) / 2 ^ u.toNat) 2

/-- A compressed instruction whose expanded form is in the excerpt does what that form does, but for
the length: `pc + 2` in place of `pc + 4` (`43_compressed_alu.md` R200 (b), R201 to R205, R206 to
R209, R211). That `pc` wraps is the spec's decision D16 (R27, log entry 28). -/
def Obligations.CompressedAgreesWithExpanded : Prop :=
  ∀ (s : State) (rd rs2 : Reg) (d r : CReg) (imm : BitVec 6) (u : BitVec 8),
    SameButLength (exec (.cAdd rd rs2) s) (exec (.add rd rd rs2) s) s ∧
    SameButLength (exec (.cMv rd rs2) s) (exec (.add rd 0 rs2) s) s ∧
    SameButLength (exec (.cAddi rd imm) s) (exec (.addi rd rd (imm.signExtend 12)) s) s ∧
    SameButLength (exec (.cLi rd imm) s) (exec (.addi rd 0 (imm.signExtend 12)) s) s ∧
    SameButLength (exec (.cAddi16sp imm) s)
      (exec (.addi 2 2 ((imm ++ 0#4).signExtend 12)) s) s ∧
    SameButLength (exec (.cAddi4spn d u) s)
      (exec (.addi (creg d) 2 ((u ++ 0#2).setWidth 12)) s) s ∧
    SameButLength (exec (.cAddiw rd imm) s) (exec (.addiw rd rd (imm.signExtend 12)) s) s ∧
    SameButLength (exec (.cAddw d r) s) (exec (.addw (creg d) (creg d) (creg r)) s) s ∧
    SameButLength (exec (.cAnd d r) s) (exec (.and (creg d) (creg d) (creg r)) s) s ∧
    SameButLength (exec (.cAndi d imm) s)
      (exec (.andi (creg d) (creg d) (imm.signExtend 12)) s) s

/-! ## Compressed loads and stores -/

/-- The address of a compressed access is the base register plus the unsigned offset, modulo 2^XLEN
(`44_compressed_mem_ctrl.md` R230; `20_memory.md` R50; `30_encoding.md` R110). That addresses wrap
is the spec's decision D16 (log entry 28). -/
def Obligations.EffectiveAddresses : Prop :=
  ∀ (s : State) (r : CReg) (u : BitVec 5) (v : BitVec 6),
    (addrWord r u s).toNat = (s.xval (creg r) + 4 * u.toNat) % 2 ^ s.w ∧
    (addrDouble r u s).toNat = (s.xval (creg r) + 8 * u.toNat) % 2 ^ s.w ∧
    (addrWordSp v s).toNat = (s.xval 2 + 4 * v.toNat) % 2 ^ s.w ∧
    (addrDoubleSp v s).toNat = (s.xval 2 + 8 * v.toNat) % 2 ^ s.w

/-- c.lw, c.lwsp, c.ld, c.ldsp complete where the access is allowed: the sign-extended value in the
destination register, nothing else, `pc + 2` (`44_compressed_mem_ctrl.md` R230, R239 to R242). Byte
order, alignment and permissions are the spec's decisions D3, D4, D6 (log entries 8, 9, 27, 28).
That `pc + 2` is taken modulo 2^XLEN is the spec's decision D16 (R27, log entry 28). -/
def Obligations.IntegerLoadResults : Prop :=
  ∀ (s : State) (rd : Reg) (d r : CReg) (u : BitVec 5) (v : BitVec 6),
    (LoadAllowed s (addrWord r u s).toNat 4 →
      WritesX (exec (.cLw d u r) s) s (creg d)
        (wrap s.w (signedOf 32 (s.numAt (addrWord r u s).toNat 4))) 2) ∧
    (LoadAllowed s (addrWordSp v s).toNat 4 →
      WritesX (exec (.cLwsp rd v) s) s rd
        (wrap s.w (signedOf 32 (s.numAt (addrWordSp v s).toNat 4))) 2) ∧
    (LoadAllowed s (addrDouble r u s).toNat 8 →
      WritesX (exec (.cLd d u r) s) s (creg d)
        (wrap s.w (s.numAt (addrDouble r u s).toNat 8)) 2) ∧
    (LoadAllowed s (addrDoubleSp v s).toNat 8 →
      WritesX (exec (.cLdsp rd v) s) s rd (wrap s.w (s.numAt (addrDoubleSp v s).toNat 8)) 2)

/-- c.fld, c.fldsp with D, and c.flw, c.flwsp with F, complete where the access is allowed: the
value in the f register, ones above a word where `FLEN = 64`, nothing else, `pc + 2`
(`44_compressed_mem_ctrl.md` R230 to R234; `10_state.md` R31). The ones above a word are the spec's
decision D25 (log entry 13); byte order, alignment and permissions its decisions D3, D4, D6 (log
entries 8, 9, 27, 28). That `pc + 2` is taken modulo 2^XLEN is the spec's decision D16 (R27, log
entry 28). -/
def Obligations.FloatLoadResults : Prop :=
  ∀ (s : State) (rd : Reg) (d r : CReg) (u : BitVec 5) (v : BitVec 6),
    (s.cfg.hasD = true → LoadAllowed s (addrDouble r u s).toNat 8 →
      WritesF (exec (.cFld d u r) s) s (creg d)
        (BitVec.ofNat 64 (s.numAt (addrDouble r u s).toNat 8)) 2) ∧
    (s.cfg.hasD = true → LoadAllowed s (addrDoubleSp v s).toNat 8 →
      WritesF (exec (.cFldsp rd v) s) s rd
        (BitVec.ofNat 64 (s.numAt (addrDoubleSp v s).toNat 8)) 2) ∧
    (s.cfg.hasF = true → LoadAllowed s (addrWord r u s).toNat 4 →
      WritesF (exec (.cFlw d u r) s) s (creg d)
        (BitVec.ofNat 64 ((if s.cfg.hasD then 0xFFFFFFFF00000000 else 0) +
          s.numAt (addrWord r u s).toNat 4)) 2) ∧
    (s.cfg.hasF = true → LoadAllowed s (addrWordSp v s).toNat 4 →
      WritesF (exec (.cFlwsp rd v) s) s rd
        (BitVec.ofNat 64 ((if s.cfg.hasD then 0xFFFFFFFF00000000 else 0) +
          s.numAt (addrWordSp v s).toNat 4)) 2)

/-- c.sw, c.swsp, and c.sd, c.sdsp at `XLEN = 64`, complete where the access is allowed: the low
bits of the x register in the bytes at the computed address, every other byte and register as
before, `pc + 2` (`44_compressed_mem_ctrl.md` R230, R243 to R246; `20_memory.md` R54). Byte order,
alignment, permissions and the refusal to write code are the spec's decisions D3, D4, D6, D23 (log
entries 8, 9, 20, 27, 28). That `pc + 2` is taken modulo 2^XLEN is the spec's decision D16 (R27, log
entry 28). -/
def Obligations.IntegerStoreResults : Prop :=
  ∀ (s : State) (rs2 : Reg) (d r : CReg) (u : BitVec 5) (v : BitVec 6), s.mem.wf = true →
    (StoreAllowed s (addrWord r u s).toNat 4 →
      StoresNum (exec (.cSw d u r) s) s (addrWord r u s).toNat 4
        (s.xval (creg d) % 2 ^ 32)) ∧
    (StoreAllowed s (addrWordSp v s).toNat 4 →
      StoresNum (exec (.cSwsp rs2 v) s) s (addrWordSp v s).toNat 4 (s.xval rs2 % 2 ^ 32)) ∧
    (s.cfg.xlen = .rv64 → StoreAllowed s (addrDouble r u s).toNat 8 →
      StoresNum (exec (.cSd d u r) s) s (addrDouble r u s).toNat 8 (s.xval (creg d))) ∧
    (s.cfg.xlen = .rv64 → StoreAllowed s (addrDoubleSp v s).toNat 8 →
      StoresNum (exec (.cSdsp rs2 v) s) s (addrDoubleSp v s).toNat 8 (s.xval rs2))

/-- c.fsd, c.fsdsp with D, and c.fsw, c.fswsp, complete where the access is allowed: the low bits of
the f register in the bytes at the computed address, every other byte and register as before, `pc +
2` (`44_compressed_mem_ctrl.md` R230, R235 to R238; `10_state.md` R31). The low half taken by a word
store is the spec's decision D25 (log entry 13); byte order, alignment, permissions and the refusal
to write code its decisions D3, D4, D6, D23 (log entries 8, 9, 20, 27, 28). That `pc + 2` is taken
modulo 2^XLEN is the spec's decision D16 (R27, log entry 28). -/
def Obligations.FloatStoreResults : Prop :=
  ∀ (s : State) (rs2 : Reg) (d r : CReg) (u : BitVec 5) (v : BitVec 6), s.mem.wf = true →
    (s.cfg.hasD = true → StoreAllowed s (addrDouble r u s).toNat 8 →
      StoresNum (exec (.cFsd d u r) s) s (addrDouble r u s).toNat 8 (s.fget (creg d)).toNat) ∧
    (s.cfg.hasD = true → StoreAllowed s (addrDoubleSp v s).toNat 8 →
      StoresNum (exec (.cFsdsp rs2 v) s) s (addrDoubleSp v s).toNat 8 (s.fget rs2).toNat) ∧
    (StoreAllowed s (addrWord r u s).toNat 4 →
      StoresNum (exec (.cFsw d u r) s) s (addrWord r u s).toNat 4
        ((s.fget (creg d)).toNat % 2 ^ 32)) ∧
    (StoreAllowed s (addrWordSp v s).toNat 4 →
      StoresNum (exec (.cFswsp rs2 v) s) s (addrWordSp v s).toNat 4
        ((s.fget rs2).toNat % 2 ^ 32))

/-- Where a compressed load stops, with the address as `tval`: misaligned under `MISALIGNED = trap`
first, then a byte that is not readable (`44_compressed_mem_ctrl.md` R230 (d); `20_memory.md` R55,
R57, R58). Both stops, their order and their `tval` are the spec's decisions D4, D6, D7, D28 (log
entries 9, 16, 26). -/
def Obligations.LoadStops : Prop :=
  ∀ (s : State) (rd : Reg) (d r : CReg) (u : BitVec 5) (v : BitVec 6) (n a : Nat) (i : Instr),
    (n = 4 ∧ a = (addrWord r u s).toNat ∧ (i = .cLw d u r ∨ i = .cFlw d u r) ∨
      n = 4 ∧ a = (addrWordSp v s).toNat ∧ (i = .cLwsp rd v ∨ i = .cFlwsp rd v) ∨
      n = 8 ∧ a = (addrDouble r u s).toNat ∧ (i = .cLd d u r ∨ i = .cFld d u r) ∨
      n = 8 ∧ a = (addrDoubleSp v s).toNat ∧ (i = .cLdsp rd v ∨ i = .cFldsp rd v)) →
    (¬ AlignmentAllows s a n → Traps (exec i s) s .loadAddressMisaligned (some a)) ∧
    (AlignmentAllows s a n → ¬ EveryByte s a n s.readableAt →
      Traps (exec i s) s .loadAccessFault (some a))

/-- Where a compressed store stops, with the address as `tval`: misaligned under `MISALIGNED = trap`
first, then a byte that is not writable, then, refused, a byte that is executable
(`44_compressed_mem_ctrl.md` R230 (d); `20_memory.md` R55, R57, R58, R68). All three stops, their
order and their `tval` are the spec's decisions D4, D6, D7, D23, D28 (log entries 9, 16, 20, 26). -/
def Obligations.StoreStops : Prop :=
  ∀ (s : State) (rs2 : Reg) (d r : CReg) (u : BitVec 5) (v : BitVec 6) (n a : Nat) (i : Instr),
    (n = 4 ∧ a = (addrWord r u s).toNat ∧ (i = .cSw d u r ∨ i = .cFsw d u r) ∨
      n = 4 ∧ a = (addrWordSp v s).toNat ∧ (i = .cSwsp rs2 v ∨ i = .cFswsp rs2 v) ∨
      n = 8 ∧ a = (addrDouble r u s).toNat ∧ (i = .cSd d u r ∨ i = .cFsd d u r) ∨
      n = 8 ∧ a = (addrDoubleSp v s).toNat ∧ (i = .cSdsp rs2 v ∨ i = .cFsdsp rs2 v)) →
    (¬ AlignmentAllows s a n → Traps (exec i s) s .storeAddressMisaligned (some a)) ∧
    (AlignmentAllows s a n → ¬ EveryByte s a n s.writableAt →
      Traps (exec i s) s .storeAccessFault (some a)) ∧
    (AlignmentAllows s a n → EveryByte s a n s.writableAt →
      (¬ EveryByte s a n fun b => !s.executableAt b) →
      exec i s = .refused (.storeToExecutable (BitVec.ofNat 64 a)))

/-- A word stored by c.sw and loaded back by c.lw from the same address is the sign-extended low
word of the register (`20_memory.md` R54, R65). That a store is seen at once is the spec's decision
D22 (log entry 33). -/
def Obligations.LoadReturnsStoredWord : Prop :=
  ∀ (s : State) (d d' r : CReg) (u : BitVec 5), s.mem.wf = true →
    StoreAllowed s (addrWord r u s).toNat 4 → LoadAllowed s (addrWord r u s).toNat 4 →
    ∃ t t', exec (.cSw d u r) s = .next t ∧ exec (.cLw d' u r) t = .next t' ∧
      t'.xval (creg d') = wrap s.w (signedOf 32 (s.xval (creg d)))

/-- Memory is little-endian: of a doubleword written at an address, the word there is its low half
and the word four bytes on is its high half (`20_memory.md` R52). The byte order is the spec's
decision D3, from outside its source (log entry 8). -/
def Obligations.HalvesOfStoredDoubleword : Prop :=
  ∀ (s : State) (a : BitVec s.w) (v : BitVec 64), s.mem.wf = true →
    (s.putBytes a 8 v).numAt a.toNat 4 = v.toNat % 2 ^ 32 ∧
    (s.putBytes a 8 v).numAt (a.toNat + 4) 4 = v.toNat / 2 ^ 32

/-- Two canonical memories that read alike at every address are the same memory. The canonical form
is the model's own; the array it stands for is the spec's (`10_state.md` R38). It is the model's own
property (log entry 7). -/
def Obligations.EqualContentsEqualMemory : Prop :=
  ∀ m m' : Memory, m.wf = true → m'.wf = true → (∀ a, m.read a = m'.read a) → m = m'

/-! ## Compressed control transfer -/

/-- c.beqz and c.bnez complete in every state: `pc + offset` where the register is or is not zero,
else `pc + 2`, and nothing else changes (`44_compressed_mem_ctrl.md` R250, R251, R252). That `pc`
wraps is the spec's decision D16 (R27, log entry 28), that no target raises an exception its
decision D18 (R26, log entry 32). -/
def Obligations.CompressedBranchResults : Prop :=
  ∀ (s : State) (r : CReg) (o : BitVec 8),
    let taken := wrap s.w (s.pcNat + 2 * o.toInt)
    let next := (s.pcNat + 2) % 2 ^ s.w
    GoesTo (exec (.cBeqz r o) s) s (if s.xval (creg r) = 0 then taken else next) ∧
    GoesTo (exec (.cBnez r o) s) s (if s.xval (creg r) ≠ 0 then taken else next)

/-- c.j, c.jal, c.jalr, c.jr complete in every state: the target, a register target with bit 0
cleared and read before the link is written, the link `pc + 2` in `x[1]` for c.jal and c.jalr, and
nothing else changes (`44_compressed_mem_ctrl.md` R250, R254 to R257). The cleared bit 0 of a
register target is the spec's decision D15 (log entry 12). That `pc` wraps is its decision D16 (R27,
log entry 28), that no target raises an exception its decision D18 (R26, log entry 32). -/
def Obligations.CompressedJumpResults : Prop :=
  ∀ (s : State) (rs1 : Reg) (o : BitVec 11),
    GoesTo (exec (.cJ o) s) s (wrap s.w (s.pcNat + 2 * o.toInt)) ∧
    LinksAndGoesTo (exec (.cJal o) s) s (wrap s.w (s.pcNat + 2 * o.toInt)) ∧
    LinksAndGoesTo (exec (.cJalr rs1) s) s (s.xval rs1 - s.xval rs1 % 2) ∧
    GoesTo (exec (.cJr rs1) s) s (s.xval rs1 - s.xval rs1 % 2)

/-! ## CSRs -/

/-- The six CSR instructions complete on a plain CSR: the new CSR value, the old one in `x[rd]`,
nothing else, `pc + 4`; the sources are read first, so `rd = rs1` swaps (`45_csr.md` R270 to R276;
`10_state.md` R35). What a plain CSR is, and that it is always read and written, are the spec's
decisions D12 and D13 (log entry 17). That `pc + 4` is taken modulo 2^XLEN is the spec's decision
D16 (R27, log entry 28). -/
def Obligations.CsrResults : Prop :=
  ∀ (s : State) (rd rs1 : Reg) (c : CsrNum) (z : BitVec 5),
    s.csrs.wf = true → s.csrKind c = .plain →
    let t := s.csrVal c
    CsrWrites (exec (.csrrc rd c rs1) s) s rd c (t - (t &&& s.xval rs1)) ∧
    CsrWrites (exec (.csrrci rd c z) s) s rd c (t - (t &&& z.toNat)) ∧
    CsrWrites (exec (.csrrs rd c rs1) s) s rd c (t ||| s.xval rs1) ∧
    CsrWrites (exec (.csrrsi rd c z) s) s rd c (t ||| z.toNat) ∧
    CsrWrites (exec (.csrrw rd c rs1) s) s rd c (s.xval rs1) ∧
    CsrWrites (exec (.csrrwi rd c z) s) s rd c z.toNat

/-- Where a CSR instruction stops: on an absent CSR `IllegalInstruction` with the instruction word
as `tval`, on one of kind `other` refused (`45_csr.md` R270; `10_state.md` R36). Both stops are the
spec's decision D12 (log entry 17). That a trap is terminal is its decision D7, the `tval` its
decision D28 (log entries 16, 26). -/
def Obligations.CsrStops : Prop :=
  ∀ (s : State) (rd rs1 : Reg) (c : CsrNum) (z : BitVec 5), ∀ i ∈ csrInstrs rd c rs1 z,
    (s.csrKind c = .absent →
      Traps (exec i s) s .illegalInstruction (some (encode i).zext.toNat)) ∧
    (s.csrKind c = .other → exec i s = .refused (.otherCsr c))

/-- The seven CSR pseudo-instructions emit the instructions their rules name; on a plain CSR csrr
reads it and leaves it, and csrc, csrci, csrs, csrsi, csrw, csrwi change it and no register
(`45_csr.md` R277 to R283). The rules of the seven give what is emitted and its effect. What a plain
CSR is, and that it is always read and written, are the spec's decisions D12 and D13 (R35, R270, log
entry 17: unsafe for a launch that calls a CSR plain that is not). That `pc + 4` is taken modulo
2^XLEN is the spec's decision D16 (R27, log entry 28). -/
def Obligations.PseudoCsrEffects : Prop :=
  ∀ (s : State) (rd rs1 : Reg) (c : CsrNum) (z : BitVec 5),
    s.csrs.wf = true → s.csrKind c = .plain →
    let t := s.csrVal c
    CsrPseudo (.csrr rd c) (.csrrs rd c 0) s rd c t ∧
    CsrPseudo (.csrc c rs1) (.csrrc 0 c rs1) s 0 c (t - (t &&& s.xval rs1)) ∧
    CsrPseudo (.csrci c z) (.csrrci 0 c z) s 0 c (t - (t &&& z.toNat)) ∧
    CsrPseudo (.csrs c rs1) (.csrrs 0 c rs1) s 0 c (t ||| s.xval rs1) ∧
    CsrPseudo (.csrsi c z) (.csrrsi 0 c z) s 0 c (t ||| z.toNat) ∧
    CsrPseudo (.csrw c rs1) (.csrrw 0 c rs1) s 0 c (s.xval rs1) ∧
    CsrPseudo (.csrwi c z) (.csrrwi 0 c z) s 0 c z.toNat

/-! ## Division -/

/-- div and divw complete in every state: the signed quotient rounded toward zero, -1 for a zero
divisor, wrapped where it does not fit; nothing but `x[rd]` changes, `pc + 4` (`46_div.md` R300,
R301, R304). The two corner values are the spec's decision D14 (log entry 11). That `pc + 4` is
taken modulo 2^XLEN is the spec's decision D16 (R27, log entry 28). -/
def Obligations.SignedDivisionResults : Prop :=
  ∀ (s : State) (rd rs1 rs2 : Reg),
    WritesX (exec (.div rd rs1 rs2) s) s rd
      (wrap s.w (quotient (s.xint rs1) (s.xint rs2))) 4 ∧
    WritesX (exec (.divw rd rs1 rs2) s) s rd
      (wrap s.w (signedOf 32
        (quotient (signedOf 32 (s.xval rs1)) (signedOf 32 (s.xval rs2))))) 4

/-- divu and divuw complete in every state: the floor of the unsigned quotient, all ones for a zero
divisor, the word sign-extended; nothing but `x[rd]` changes, `pc + 4` (`46_div.md` R300, R302,
R303). The value for a zero divisor is the spec's decision D14 (log entry 11). That `pc + 4` is
taken modulo 2^XLEN is the spec's decision D16 (R27, log entry 28). -/
def Obligations.UnsignedDivisionResults : Prop :=
  ∀ (s : State) (rd rs1 rs2 : Reg),
    WritesX (exec (.divu rd rs1 rs2) s) s rd
      (if s.xval rs2 = 0 then 2 ^ s.w - 1 else s.xval rs1 / s.xval rs2) 4 ∧
    WritesX (exec (.divuw rd rs1 rs2) s) s rd
      (wrap s.w (signedOf 32 (if s.xval rs2 % 2 ^ 32 = 0 then 2 ^ 32 - 1
        else ((s.xval rs1 % 2 ^ 32 / (s.xval rs2 % 2 ^ 32) : Nat) : Int)))) 4

/-- The corner values of division: a zero divisor gives all ones, and the most negative dividend
divided by -1 gives the dividend (`46_div.md` R300 (b)). These values are the spec's decision D14,
from outside its source (log entry 11). -/
def Obligations.DivisionCorners : Prop :=
  ∀ (s : State) (rd rs1 rs2 : Reg),
    (s.xval rs2 = 0 →
      WritesX (exec (.div rd rs1 rs2) s) s rd (2 ^ s.w - 1) 4 ∧
      WritesX (exec (.divu rd rs1 rs2) s) s rd (2 ^ s.w - 1) 4) ∧
    (s.xval rs2 % 2 ^ 32 = 0 →
      WritesX (exec (.divw rd rs1 rs2) s) s rd (2 ^ s.w - 1) 4 ∧
      WritesX (exec (.divuw rd rs1 rs2) s) s rd (2 ^ s.w - 1) 4) ∧
    (s.xint rs1 = -2 ^ (s.w - 1) → s.xint rs2 = -1 →
      WritesX (exec (.div rd rs1 rs2) s) s rd (s.xval rs1) 4) ∧
    (s.xval rs1 % 2 ^ 32 = 2 ^ 31 → s.xval rs2 % 2 ^ 32 = 2 ^ 32 - 1 →
      WritesX (exec (.divw rd rs1 rs2) s) s rd (wrap s.w (-2 ^ 31)) 4)

/-! ## Environment instructions -/

/-- ecall, ebreak and c.ebreak are the words the spec gives and always stop: `EnvironmentCall` or
`Breakpoint` at their own address, no `tval` (`47_system.md` R310, R311; `44_compressed_mem_ctrl.md`
R253; `60_exceptions.md` R336). The rules of the three give the words, the exception and the
address. That the trap is terminal, with no state after it, is the spec's decision D7 (R336, log
entry 16); that it records no `tval` is R330, the spec's decision D28 (log entry 26). -/
def Obligations.EnvironmentInstructionsTrap : Prop :=
  ∀ s : State,
    decode s.cfg (.full 0x00000073) = .instr .ecall ∧
    decode s.cfg (.full 0x00100073) = .instr .ebreak ∧
    (s.cfg.hasC = true → decode s.cfg (.half 0x9002) = .instr .cEbreak) ∧
    Traps (exec .ecall s) s .environmentCall none ∧
    Traps (exec .ebreak s) s .breakpoint none ∧
    Traps (exec .cEbreak s) s .breakpoint none

/-! ## Registers -/

/-- `x[0]` reads as zero, and a write to it changes nothing (`10_state.md` R21). It is the spec's
own inference (R21 'derived', log entry 34). -/
def Obligations.ZeroRegister : Prop :=
  ∀ (s : State) (v : BitVec s.w), s.xval 0 = 0 ∧ s.xset 0 v = s

/-! ## The whole machine -/

/-- Which instructions can change what: an f register only a floating-point load, a CSR only a CSR
instruction, memory only a store or an AMO, and an x register none of the instructions the spec says
write none (`10_state.md` R23, R38; `20_memory.md` R60). R23 is the spec's own inference ('derived',
log entry 34). -/
def Obligations.OnlyTheirInstructionsChange : Prop :=
  ∀ (s t : State) (i : Instr), exec i s = .next t →
    ((∃ r, t.fget r ≠ s.fget r) → isFloatLoad i = true) ∧
    ((∃ c, t.csrVal c ≠ s.csrVal c) → isCsrInstr i = true) ∧
    ((∃ a, t.byteAt a ≠ s.byteAt a) → isStore i = true ∨ isAmo i = true) ∧
    ((∃ r, t.xval r ≠ s.xval r) → writesNoX i = false)

/-- Every trap names its own instruction's address, and as `tval` what the spec's table says:
nothing, `pc`, the instruction word, or the address the instruction accesses (`60_exceptions.md`
R330, R336). What a trap records is the spec's decision D28, that it ends the run D7 (log entries
16, 26). -/
def Obligations.TrapsReportTheirInstruction : Prop :=
  ∀ (s : State) (e : Exception) (epc : BitVec 64) (tval : Option (BitVec 64)),
    step s = .fault (.trap e epc tval) →
    epc = BitVec.ofNat 64 s.pcNat ∧
    match e with
    | .breakpoint | .environmentCall => tval = none
    | .instructionAddressMisaligned | .instructionAccessFault =>
      tval = some (BitVec.ofNat 64 s.pcNat)
    | .illegalInstruction => ∃ c, fetch s = .code c ∧ tval = some c.zext
    | .loadAddressMisaligned | .loadAccessFault =>
      ∃ c i a, fetch s = .code c ∧ decode s.cfg c = .instr i ∧ isStore i = false ∧
        isAmo i = false ∧ dataAddress s i = some a ∧ tval = some (BitVec.ofNat 64 a)
    | .storeAddressMisaligned | .storeAccessFault =>
      ∃ c i a, fetch s = .code c ∧ decode s.cfg c = .instr i ∧
        (isStore i = true ∨ isAmo i = true) ∧ dataAddress s i = some a ∧
        tval = some (BitVec.ofNat 64 a)

/-- From an even `pc` the next `pc` is even, and no step raises `InstructionAddressMisaligned`
(`10_state.md` R26; `60_exceptions.md` R330). That bit 0 of a register target is cleared is the
spec's decision D15, that odd `pc` traps its decision D18 (log entries 12, 32). -/
def Obligations.PcStaysEven : Prop :=
  ∀ s : State, s.pcNat % 2 = 0 →
    (∀ t, step s = .next t → t.pcNat % 2 = 0) ∧
    ∀ epc tval, step s ≠ .fault (.trap .instructionAddressMisaligned epc tval)

/-- Every step keeps the invariant of the state: canonical memory and CSR array, `x[0]` zero, every
register within its width, `pc` even (`10_state.md` R20, R21, R24, R26, R30, R34; `20_memory.md`
R50). The canonical forms and the width of the stored cells are the model's own (log entries 7, 24);
that `pc` is even is the spec's decision D18 and D15 (log entries 12, 32). -/
def Obligations.StepKeepsInvariant : Prop :=
  ∀ s t : State, s.Inv → step s = .next t → t.Inv

/-- The state after reset meets the invariant (`10_state.md` R40). The state is the model's launch
(log entries 2 to 7). -/
def Obligations.ResetStateMeetsInvariant : Prop := State.reset.Inv

/-- Along every run the launch parameters stay, and so does every byte that is executable or not
writable: no fetch reads a byte the program has written (`70_reset_and_hazards.md` R378;
`20_memory.md` R57, R68). That a write to code is refused is the spec's decision D23 (log entry 20);
that the parameters are in the state is the model's choice (log entry 1). -/
def Obligations.RunsKeepCodeAndParameters : Prop :=
  ∀ s t : State, s.mem.wf = true → Runs s t →
    t.cfg = s.cfg ∧
    ∀ a, s.executableAt a = true ∨ s.writableAt a = false → t.byteAt a = s.byteAt a

/-! ## Launch -/

/-- A launch leaves `pc` at `RESET_PC` and `x[0]` zero, and takes the parameters as given
(`70_reset_and_hazards.md` R370). The zeros of the other registers and CSRs and of memory are the
MODEL'S CHOICE, where the spec says 'unspecified' (log entries 4, 5, 6, 7). -/
def Obligations.LaunchState : Prop :=
  ∀ cfg : Config,
    (State.launch cfg).pc = cfg.resetPc ∧ (State.launch cfg).cfg = cfg ∧
    (∀ r, (State.launch cfg).xval r = 0) ∧ (∀ r, (State.launch cfg).fget r = 0) ∧
    (∀ c, (State.launch cfg).csrVal c = 0) ∧ ∀ a, (State.launch cfg).byteAt a = 0

/-- The parameters `State.reset` launches with: those with a default in the spec have it
(`00_scope.md` R3); `XLEN`, `RESET_PC` and `MemMap` are the MODEL'S CHOICE (log entries 2, 3). -/
def Obligations.ResetParameters : Prop :=
  State.reset.cfg.xlen = .rv64 ∧ State.reset.pcNat = 0x1000 ∧
  State.reset.cfg.hasM = true ∧ State.reset.cfg.hasA = true ∧ State.reset.cfg.hasF = true ∧
  State.reset.cfg.hasD = true ∧ State.reset.cfg.hasC = true ∧
  State.reset.cfg.misaligned = .trap ∧ State.reset.cfg.ecallCode = .code11 ∧
  ∀ c, State.reset.csrKind c = .absent

/-! ## Floating-point pseudo-instructions -/

/-- `fabs.d` and `fabs.s` emit fsgnjx with `rs1` twice. With D, the effect recorded for `fabs.d`
clears bit 63 of `f[rs1]` into `f[rd]`. With F, that of `fabs.s` clears bit 31 where `FLEN = 32`;
where `FLEN = 64` it does so under ones if the upper bits of `f[rs1]` are ones, and leaves any value
`free` in `f[rd]` if they are not. Nothing else changes, and without the extension there is no
effect (`48_pseudo.md` R320, R322, R323). The bits are the spec's from outside its source (log entry
35); that an undefined result is a free value, and that the record leaves `pc` out, is the MODEL'S
CHOICE (log entry 38). -/
def Obligations.FabsEffects : Prop :=
  ∀ (s : State) (rd rs1 : Reg) (free : BitVec 64),
    let v := (s.fget rs1).toNat
    (Pseudo.fabsD rd rs1).emits = [.outside (.fsgnjxD rd rs1 rs1)] ∧
    (Pseudo.fabsS rd rs1).emits = [.outside (.fsgnjxS rd rs1 rs1)] ∧
    (if s.cfg.hasD then
      RecordsF (fabsDEffect rd rs1 s) s rd (BitVec.ofNat 64 (v % 2 ^ 63))
    else fabsDEffect rd rs1 s = none) ∧
    (if s.cfg.hasF then
      RecordsF (fabsSEffect rd rs1 free s) s rd
        (if s.cfg.hasD = false then BitVec.ofNat 64 (v % 2 ^ 31)
        else if v / 2 ^ 32 = 2 ^ 32 - 1 then BitVec.ofNat 64 (2 ^ 64 - 2 ^ 32 + v % 2 ^ 31)
        else free)
    else fabsSEffect rd rs1 free s = none)

end
end

