-- ==== Sys2Proof/Laws/State.lean ====
section
/-!
SUPPORT. The small lemmas of the state's updates: each update writes its own field and leaves every
other field, and every view of another field, as it was. All are true by unfolding.
-/
namespace Sys2Proof.Machine

/-! ## `xset` -/

@[simp] theorem State.xset_cfg (s : State) (r : Reg) (v : BitVec s.w) : (s.xset r v).cfg = s.cfg := rfl
@[simp] theorem State.xset_pc (s : State) (r : Reg) (v : BitVec s.w) : (s.xset r v).pc = s.pc := rfl
@[simp] theorem State.xset_f (s : State) (r : Reg) (v : BitVec s.w) : (s.xset r v).f = s.f := rfl
@[simp] theorem State.xset_csrs (s : State) (r : Reg) (v : BitVec s.w) : (s.xset r v).csrs = s.csrs := rfl
@[simp] theorem State.xset_mem (s : State) (r : Reg) (v : BitVec s.w) : (s.xset r v).mem = s.mem := rfl
@[simp] theorem State.w_xset (s : State) (r : Reg) (v : BitVec s.w) :
    (s.xset r v).w = s.w := rfl
@[simp] theorem State.pcv_xset (s : State) (r : Reg) (v : BitVec s.w) :
    (s.xset r v).pcv = s.pcv := rfl
@[simp] theorem State.fget_xset (s : State) (r : Reg) (v : BitVec s.w) (q : Reg) :
    (s.xset r v).fget q = s.fget q := rfl
@[simp] theorem State.csrGet_xset (s : State) (r : Reg) (v : BitVec s.w) (q : CsrNum) :
    (s.xset r v).csrGet q = s.csrGet q := rfl
@[simp] theorem State.pcNat_xset (s : State) (r : Reg) (v : BitVec s.w) :
    (s.xset r v).pcNat = s.pcNat := rfl
@[simp] theorem State.csrVal_xset (s : State) (r : Reg) (v : BitVec s.w) (q : CsrNum) :
    (s.xset r v).csrVal q = s.csrVal q := rfl
@[simp] theorem State.byteAt_xset (s : State) (r : Reg) (v : BitVec s.w) (q : Nat) :
    (s.xset r v).byteAt q = s.byteAt q := rfl

/-! ## `fset` -/

@[simp] theorem State.fset_cfg (s : State) (r : Reg) (v : BitVec 64) : (s.fset r v).cfg = s.cfg := rfl
@[simp] theorem State.fset_pc (s : State) (r : Reg) (v : BitVec 64) : (s.fset r v).pc = s.pc := rfl
@[simp] theorem State.fset_x (s : State) (r : Reg) (v : BitVec 64) : (s.fset r v).x = s.x := rfl
@[simp] theorem State.fset_csrs (s : State) (r : Reg) (v : BitVec 64) : (s.fset r v).csrs = s.csrs := rfl
@[simp] theorem State.fset_mem (s : State) (r : Reg) (v : BitVec 64) : (s.fset r v).mem = s.mem := rfl
@[simp] theorem State.w_fset (s : State) (r : Reg) (v : BitVec 64) :
    (s.fset r v).w = s.w := rfl
@[simp] theorem State.xget_fset (s : State) (r : Reg) (v : BitVec 64) (q : Reg) :
    (s.fset r v).xget q = s.xget q := rfl
@[simp] theorem State.pcv_fset (s : State) (r : Reg) (v : BitVec 64) :
    (s.fset r v).pcv = s.pcv := rfl
@[simp] theorem State.csrGet_fset (s : State) (r : Reg) (v : BitVec 64) (q : CsrNum) :
    (s.fset r v).csrGet q = s.csrGet q := rfl
@[simp] theorem State.xval_fset (s : State) (r : Reg) (v : BitVec 64) (q : Reg) :
    (s.fset r v).xval q = s.xval q := rfl
@[simp] theorem State.xint_fset (s : State) (r : Reg) (v : BitVec 64) (q : Reg) :
    (s.fset r v).xint q = s.xint q := rfl
@[simp] theorem State.pcNat_fset (s : State) (r : Reg) (v : BitVec 64) :
    (s.fset r v).pcNat = s.pcNat := rfl
@[simp] theorem State.csrVal_fset (s : State) (r : Reg) (v : BitVec 64) (q : CsrNum) :
    (s.fset r v).csrVal q = s.csrVal q := rfl
@[simp] theorem State.byteAt_fset (s : State) (r : Reg) (v : BitVec 64) (q : Nat) :
    (s.fset r v).byteAt q = s.byteAt q := rfl

/-! ## `setPc` -/

@[simp] theorem State.setPc_cfg (s : State) (v : BitVec s.w) : (s.setPc v).cfg = s.cfg := rfl
@[simp] theorem State.setPc_x (s : State) (v : BitVec s.w) : (s.setPc v).x = s.x := rfl
@[simp] theorem State.setPc_f (s : State) (v : BitVec s.w) : (s.setPc v).f = s.f := rfl
@[simp] theorem State.setPc_csrs (s : State) (v : BitVec s.w) : (s.setPc v).csrs = s.csrs := rfl
@[simp] theorem State.setPc_mem (s : State) (v : BitVec s.w) : (s.setPc v).mem = s.mem := rfl
@[simp] theorem State.w_setPc (s : State) (v : BitVec s.w) :
    (s.setPc v).w = s.w := rfl
@[simp] theorem State.xget_setPc (s : State) (v : BitVec s.w) (q : Reg) :
    (s.setPc v).xget q = s.xget q := rfl
@[simp] theorem State.fget_setPc (s : State) (v : BitVec s.w) (q : Reg) :
    (s.setPc v).fget q = s.fget q := rfl
@[simp] theorem State.csrGet_setPc (s : State) (v : BitVec s.w) (q : CsrNum) :
    (s.setPc v).csrGet q = s.csrGet q := rfl
@[simp] theorem State.xval_setPc (s : State) (v : BitVec s.w) (q : Reg) :
    (s.setPc v).xval q = s.xval q := rfl
@[simp] theorem State.xint_setPc (s : State) (v : BitVec s.w) (q : Reg) :
    (s.setPc v).xint q = s.xint q := rfl
@[simp] theorem State.csrVal_setPc (s : State) (v : BitVec s.w) (q : CsrNum) :
    (s.setPc v).csrVal q = s.csrVal q := rfl
@[simp] theorem State.byteAt_setPc (s : State) (v : BitVec s.w) (q : Nat) :
    (s.setPc v).byteAt q = s.byteAt q := rfl

/-! ## `advance` -/

@[simp] theorem State.advance_cfg (s : State) (n : Nat) : (s.advance n).cfg = s.cfg := rfl
@[simp] theorem State.advance_x (s : State) (n : Nat) : (s.advance n).x = s.x := rfl
@[simp] theorem State.advance_f (s : State) (n : Nat) : (s.advance n).f = s.f := rfl
@[simp] theorem State.advance_csrs (s : State) (n : Nat) : (s.advance n).csrs = s.csrs := rfl
@[simp] theorem State.advance_mem (s : State) (n : Nat) : (s.advance n).mem = s.mem := rfl
@[simp] theorem State.w_advance (s : State) (n : Nat) :
    (s.advance n).w = s.w := rfl
@[simp] theorem State.xget_advance (s : State) (n : Nat) (q : Reg) :
    (s.advance n).xget q = s.xget q := rfl
@[simp] theorem State.fget_advance (s : State) (n : Nat) (q : Reg) :
    (s.advance n).fget q = s.fget q := rfl
@[simp] theorem State.csrGet_advance (s : State) (n : Nat) (q : CsrNum) :
    (s.advance n).csrGet q = s.csrGet q := rfl
@[simp] theorem State.xval_advance (s : State) (n : Nat) (q : Reg) :
    (s.advance n).xval q = s.xval q := rfl
@[simp] theorem State.xint_advance (s : State) (n : Nat) (q : Reg) :
    (s.advance n).xint q = s.xint q := rfl
@[simp] theorem State.csrVal_advance (s : State) (n : Nat) (q : CsrNum) :
    (s.advance n).csrVal q = s.csrVal q := rfl
@[simp] theorem State.byteAt_advance (s : State) (n : Nat) (q : Nat) :
    (s.advance n).byteAt q = s.byteAt q := rfl

/-! ## `csrSet` -/

@[simp] theorem State.csrSet_cfg (s : State) (c : CsrNum) (v : BitVec s.w) : (s.csrSet c v).cfg = s.cfg := rfl
@[simp] theorem State.csrSet_pc (s : State) (c : CsrNum) (v : BitVec s.w) : (s.csrSet c v).pc = s.pc := rfl
@[simp] theorem State.csrSet_x (s : State) (c : CsrNum) (v : BitVec s.w) : (s.csrSet c v).x = s.x := rfl
@[simp] theorem State.csrSet_f (s : State) (c : CsrNum) (v : BitVec s.w) : (s.csrSet c v).f = s.f := rfl
@[simp] theorem State.csrSet_mem (s : State) (c : CsrNum) (v : BitVec s.w) : (s.csrSet c v).mem = s.mem := rfl
@[simp] theorem State.w_csrSet (s : State) (c : CsrNum) (v : BitVec s.w) :
    (s.csrSet c v).w = s.w := rfl
@[simp] theorem State.xget_csrSet (s : State) (c : CsrNum) (v : BitVec s.w) (q : Reg) :
    (s.csrSet c v).xget q = s.xget q := rfl
@[simp] theorem State.pcv_csrSet (s : State) (c : CsrNum) (v : BitVec s.w) :
    (s.csrSet c v).pcv = s.pcv := rfl
@[simp] theorem State.fget_csrSet (s : State) (c : CsrNum) (v : BitVec s.w) (q : Reg) :
    (s.csrSet c v).fget q = s.fget q := rfl
@[simp] theorem State.xval_csrSet (s : State) (c : CsrNum) (v : BitVec s.w) (q : Reg) :
    (s.csrSet c v).xval q = s.xval q := rfl
@[simp] theorem State.xint_csrSet (s : State) (c : CsrNum) (v : BitVec s.w) (q : Reg) :
    (s.csrSet c v).xint q = s.xint q := rfl
@[simp] theorem State.pcNat_csrSet (s : State) (c : CsrNum) (v : BitVec s.w) :
    (s.csrSet c v).pcNat = s.pcNat := rfl
@[simp] theorem State.byteAt_csrSet (s : State) (c : CsrNum) (v : BitVec s.w) (q : Nat) :
    (s.csrSet c v).byteAt q = s.byteAt q := rfl

/-! ## `putBytes` -/

@[simp] theorem State.putBytes_cfg (s : State) (a : BitVec s.w) (n : Nat) (v : BitVec (8 * n)) : (s.putBytes a n v).cfg = s.cfg := rfl
@[simp] theorem State.putBytes_pc (s : State) (a : BitVec s.w) (n : Nat) (v : BitVec (8 * n)) : (s.putBytes a n v).pc = s.pc := rfl
@[simp] theorem State.putBytes_x (s : State) (a : BitVec s.w) (n : Nat) (v : BitVec (8 * n)) : (s.putBytes a n v).x = s.x := rfl
@[simp] theorem State.putBytes_f (s : State) (a : BitVec s.w) (n : Nat) (v : BitVec (8 * n)) : (s.putBytes a n v).f = s.f := rfl
@[simp] theorem State.putBytes_csrs (s : State) (a : BitVec s.w) (n : Nat) (v : BitVec (8 * n)) : (s.putBytes a n v).csrs = s.csrs := rfl
@[simp] theorem State.w_putBytes (s : State) (a : BitVec s.w) (n : Nat) (v : BitVec (8 * n)) :
    (s.putBytes a n v).w = s.w := rfl
@[simp] theorem State.xget_putBytes (s : State) (a : BitVec s.w) (n : Nat) (v : BitVec (8 * n)) (q : Reg) :
    (s.putBytes a n v).xget q = s.xget q := rfl
@[simp] theorem State.pcv_putBytes (s : State) (a : BitVec s.w) (n : Nat) (v : BitVec (8 * n)) :
    (s.putBytes a n v).pcv = s.pcv := rfl
@[simp] theorem State.fget_putBytes (s : State) (a : BitVec s.w) (n : Nat) (v : BitVec (8 * n)) (q : Reg) :
    (s.putBytes a n v).fget q = s.fget q := rfl
@[simp] theorem State.csrGet_putBytes (s : State) (a : BitVec s.w) (n : Nat) (v : BitVec (8 * n)) (q : CsrNum) :
    (s.putBytes a n v).csrGet q = s.csrGet q := rfl
@[simp] theorem State.xval_putBytes (s : State) (a : BitVec s.w) (n : Nat) (v : BitVec (8 * n)) (q : Reg) :
    (s.putBytes a n v).xval q = s.xval q := rfl
@[simp] theorem State.xint_putBytes (s : State) (a : BitVec s.w) (n : Nat) (v : BitVec (8 * n)) (q : Reg) :
    (s.putBytes a n v).xint q = s.xint q := rfl
@[simp] theorem State.pcNat_putBytes (s : State) (a : BitVec s.w) (n : Nat) (v : BitVec (8 * n)) :
    (s.putBytes a n v).pcNat = s.pcNat := rfl
@[simp] theorem State.csrVal_putBytes (s : State) (a : BitVec s.w) (n : Nat) (v : BitVec (8 * n)) (q : CsrNum) :
    (s.putBytes a n v).csrVal q = s.csrVal q := rfl

/-! ## `loadBytes` -/

@[simp] theorem State.loadBytes_cfg (s : State) (a : BitVec s.w) (bs : List Byte) : (s.loadBytes a bs).cfg = s.cfg := rfl
@[simp] theorem State.loadBytes_pc (s : State) (a : BitVec s.w) (bs : List Byte) : (s.loadBytes a bs).pc = s.pc := rfl
@[simp] theorem State.loadBytes_x (s : State) (a : BitVec s.w) (bs : List Byte) : (s.loadBytes a bs).x = s.x := rfl
@[simp] theorem State.loadBytes_f (s : State) (a : BitVec s.w) (bs : List Byte) : (s.loadBytes a bs).f = s.f := rfl
@[simp] theorem State.loadBytes_csrs (s : State) (a : BitVec s.w) (bs : List Byte) : (s.loadBytes a bs).csrs = s.csrs := rfl
@[simp] theorem State.w_loadBytes (s : State) (a : BitVec s.w) (bs : List Byte) :
    (s.loadBytes a bs).w = s.w := rfl
@[simp] theorem State.xget_loadBytes (s : State) (a : BitVec s.w) (bs : List Byte) (q : Reg) :
    (s.loadBytes a bs).xget q = s.xget q := rfl
@[simp] theorem State.pcv_loadBytes (s : State) (a : BitVec s.w) (bs : List Byte) :
    (s.loadBytes a bs).pcv = s.pcv := rfl
@[simp] theorem State.fget_loadBytes (s : State) (a : BitVec s.w) (bs : List Byte) (q : Reg) :
    (s.loadBytes a bs).fget q = s.fget q := rfl
@[simp] theorem State.csrGet_loadBytes (s : State) (a : BitVec s.w) (bs : List Byte) (q : CsrNum) :
    (s.loadBytes a bs).csrGet q = s.csrGet q := rfl
@[simp] theorem State.xval_loadBytes (s : State) (a : BitVec s.w) (bs : List Byte) (q : Reg) :
    (s.loadBytes a bs).xval q = s.xval q := rfl
@[simp] theorem State.xint_loadBytes (s : State) (a : BitVec s.w) (bs : List Byte) (q : Reg) :
    (s.loadBytes a bs).xint q = s.xint q := rfl
@[simp] theorem State.pcNat_loadBytes (s : State) (a : BitVec s.w) (bs : List Byte) :
    (s.loadBytes a bs).pcNat = s.pcNat := rfl
@[simp] theorem State.csrVal_loadBytes (s : State) (a : BitVec s.w) (bs : List Byte) (q : CsrNum) :
    (s.loadBytes a bs).csrVal q = s.csrVal q := rfl

end Sys2Proof.Machine
end

