-- ==== Sys2Proof/Laws/Tables.lean ====
section
/-!
SUPPORT. Sparse tables: a write is seen where it was made and nowhere else, every write keeps the
canonical form, and two canonical tables with the same contents are equal.
-/
namespace Sys2Proof.Machine

section
variable {β : Type} [DecidableEq β] {d : β}

/-- The canonical form as propositions. -/
theorem Table.wf_iff {t : List (Nat × β)} :
    Table.wf d t = true ↔ t.Pairwise (fun a b => a.1 < b.1) ∧ ∀ e ∈ t, e.2 ≠ d := by
  simp [Table.wf]

theorem Table.wf_nil : Table.wf d ([] : List (Nat × β)) = true := by
  simp [Table.wf]

/-- The tail of a canonical table is canonical, and the head's key is below every other key. -/
theorem Table.wf_cons {e : Nat × β} {t : List (Nat × β)} :
    Table.wf d (e :: t) = true ↔
      (∀ a ∈ t, e.1 < a.1) ∧ e.2 ≠ d ∧ Table.wf d t = true := by
  simp [Table.wf_iff, List.pairwise_cons]
  tauto

omit [DecidableEq β] in
/-- A key below every key of the table reads as the default. -/
theorem Table.read_of_lt {t : List (Nat × β)} {k : Nat} (h : ∀ a ∈ t, k < a.1) :
    Table.read d t k = d := by
  induction t with
  | nil => rfl
  | cons e t ih =>
    have h1 := h e (by simp)
    have h2 : e.1 ≠ k := by omega
    simp [Table.read, h2, ih fun a ha => h a (by simp [ha])]

theorem Table.read_entry {k q : Nat} {v : β} {t : List (Nat × β)} (h : ∀ a ∈ t, k < a.1) :
    Table.read d (Table.entry d k v t) q = if q = k then v else Table.read d t q := by
  unfold Table.entry
  by_cases hv : v = d
  · by_cases hq : q = k
    · subst hq; simp [hv, Table.read_of_lt h]
    · simp [hv, hq]
  · simp [hv, Table.read, eq_comm]

/-- What a canonical table reads after a write. -/
theorem Table.read_write {t : List (Nat × β)} (k q : Nat) (v : β) (h : Table.wf d t = true) :
    Table.read d (Table.write d t k v) q = if q = k then v else Table.read d t q := by
  induction t with
  | nil => exact Table.read_entry (by simp)
  | cons e t ih =>
    obtain ⟨j, u⟩ := e
    obtain ⟨h1, -, h3⟩ := Table.wf_cons.mp h
    unfold Table.write
    split
    · rename_i hk
      refine Table.read_entry fun a ha => ?_
      rcases List.mem_cons.mp ha with rfl | ha
      · exact hk
      · exact hk.trans (h1 a ha)
    · split
      · rename_i hk
        subst hk
        rw [Table.read_entry h1]
        by_cases hq : q = k
        · simp [hq]
        · simp [Table.read, hq, Ne.symm hq]
      · rename_i h4 h5
        simp only [Table.read, ih h3]
        by_cases hq : j = q
        · have : q ≠ k := by omega
          simp [hq, this]
        · simp [hq]

/-- Every key after a write is an old key or the written one. -/
theorem Table.mem_write {t : List (Nat × β)} {k : Nat} {v : β} {e : Nat × β}
    (he : e ∈ Table.write d t k v) : e ∈ t ∨ e = (k, v) := by
  induction t with
  | nil =>
    simp only [Table.write, Table.entry] at he
    split at he <;> simp_all
  | cons x t ih =>
    obtain ⟨j, u⟩ := x
    simp only [Table.write, Table.entry] at he
    split at he
    · split at he <;> simp_all; tauto
    · split at he
      · split at he <;> simp_all; tauto
      · rcases List.mem_cons.mp he with rfl | h
        · simp
        · rcases ih h with h | h <;> simp [h]

theorem Table.wf_entry {k : Nat} {v : β} {t : List (Nat × β)} (ht : Table.wf d t = true)
    (h : ∀ a ∈ t, k < a.1) : Table.wf d (Table.entry d k v t) = true := by
  unfold Table.entry
  split
  · exact ht
  · exact Table.wf_cons.mpr ⟨h, by assumption, ht⟩

/-- A write keeps the canonical form. -/
theorem Table.wf_write {t : List (Nat × β)} (k : Nat) (v : β) (h : Table.wf d t = true) :
    Table.wf d (Table.write d t k v) = true := by
  induction t with
  | nil => exact Table.wf_entry Table.wf_nil (by simp)
  | cons e t ih =>
    obtain ⟨j, u⟩ := e
    obtain ⟨h1, h2, h3⟩ := Table.wf_cons.mp h
    unfold Table.write
    split
    · rename_i hk
      refine Table.wf_entry h fun a ha => ?_
      rcases List.mem_cons.mp ha with rfl | ha
      · exact hk
      · exact hk.trans (h1 a ha)
    · split
      · rename_i hk
        subst hk
        exact Table.wf_entry h3 h1
      · rename_i h4 h5
        refine Table.wf_cons.mpr ⟨fun a ha => ?_, h2, ih h3⟩
        rcases Table.mem_write ha with ha | rfl
        · exact h1 a ha
        · show j < k
          omega

end

/-! ## Memory -/

theorem Memory.wf_write {m : Memory} (a : Nat) (b : Byte) (h : m.wf = true) :
    (m.write a b).wf = true := Table.wf_write a b h

/-- What a canonical memory reads after one byte is written. -/
theorem Memory.read_write {m : Memory} (a q : Nat) (b : Byte) (h : m.wf = true) :
    (m.write a b).read q = if q = a then b else m.read q := Table.read_write a q b h

theorem Memory.wf_writeCells {m : Memory} (cs : List Host.Cell) (h : m.wf = true) :
    (m.writeCells cs).wf = true := by
  induction cs generalizing m with
  | nil => exact h
  | cons c cs ih => exact ih (Memory.wf_write _ _ h)

/-- Writing cells leaves every address that none of them names. -/
theorem Memory.read_writeCells_other {m : Memory} (cs : List Host.Cell) (q : Nat)
    (h : m.wf = true) (hq : ∀ c ∈ cs, c.1 ≠ q) : (m.writeCells cs).read q = m.read q := by
  induction cs generalizing m with
  | nil => rfl
  | cons c cs ih =>
    obtain ⟨a, b⟩ := c
    have h1 : q ≠ a := fun e => hq (a, b) (by simp) e.symm
    rw [Memory.writeCells, ih (Memory.wf_write _ _ h) (fun c hc => hq c (by simp [hc])),
      Memory.read_write _ _ _ h, if_neg h1]

/-- Writing cells with distinct addresses stores each of them. -/
theorem Memory.read_writeCells_of_mem {m : Memory} (cs : List Host.Cell) (a : Nat) (b : Byte)
    (h : m.wf = true) (hd : (cs.map Prod.fst).Nodup) (hm : (a, b) ∈ cs) :
    (m.writeCells cs).read a = b := by
  induction cs generalizing m with
  | nil => simp at hm
  | cons c cs ih =>
    obtain ⟨a', b'⟩ := c
    simp only [List.map_cons, List.nodup_cons] at hd
    rcases List.mem_cons.mp hm with heq | hm
    · cases heq
      rw [Memory.writeCells, Memory.read_writeCells_other _ _ (Memory.wf_write _ _ h),
        Memory.read_write _ _ _ h, if_pos rfl]
      intro c hc e
      exact hd.1 (e ▸ List.mem_map_of_mem hc)
    · exact ih (Memory.wf_write _ _ h) hd.2 hm

/-- Every entry after cells are written is an old one or one of the cells. -/
theorem Memory.mem_writeCells {m : Memory} (cs : List Host.Cell) {e : Host.Cell}
    (he : e ∈ m.writeCells cs) : e ∈ m ∨ e ∈ cs := by
  induction cs generalizing m with
  | nil => exact .inl he
  | cons c cs ih =>
    rcases ih he with h | h
    · rcases Table.mem_write h with h | rfl
      · exact .inl h
      · simp
    · simp [h]

/-! ## CSRs -/

theorem Csrs.wf_write {t : Csrs} (c : Nat) (v : RegCell) (h : t.wf = true) :
    (t.write c v).wf = true := Table.wf_write c v h

/-- What a canonical CSR array reads after one CSR is written. -/
theorem Csrs.read_write {t : Csrs} (c q : Nat) (v : RegCell) (h : t.wf = true) :
    (t.write c v).read q = if q = c then v else t.read q := Table.read_write c q v h

end Sys2Proof.Machine
end

