-- ==== Sys2Proof/Laws/Registers.lean ====
section
/-!
SUPPORT. What a register, the program counter or a CSR holds after it is written.
-/
namespace Sys2Proof.Machine

theorem State.w_cases (s : State) : s.w = 32 ∨ s.w = 64 := by
  unfold State.w
  cases s.cfg.xlen <;> simp [Xlen.bits]

theorem State.w_pos (s : State) : 0 < s.w := by
  rcases s.w_cases with h | h <;> omega

theorem State.w_le (s : State) : s.w ≤ 64 := by
  rcases s.w_cases with h | h <;> omega

theorem State.le_w (s : State) : 32 ≤ s.w := by
  rcases s.w_cases with h | h <;> omega

theorem State.w_of_cfg {s t : State} (h : t.cfg = s.cfg) : t.w = s.w := by
  unfold State.w
  rw [h]

/-- Narrowing to at most 64 bits and back loses nothing. -/
theorem setWidth_setWidth_64 {w : Nat} (v : BitVec w) (h : w ≤ 64) :
    (v.setWidth 64).setWidth w = v := by
  apply BitVec.eq_of_toNat_eq
  have h1 : v.toNat < 2 ^ 64 := v.isLt.trans_le (Nat.pow_le_pow_right (by omega) h)
  rw [BitVec.toNat_setWidth, BitVec.toNat_setWidth, Nat.mod_eq_of_lt h1, Nat.mod_eq_of_lt v.isLt]

/-! ## Integer registers -/

@[simp] theorem State.xget_zero (s : State) : s.xget 0#5 = 0#s.w := rfl

@[simp] theorem State.xval_zero (s : State) : s.xval 0#5 = 0 := by
  simp [State.xval]

theorem State.xval_lt (s : State) (r : Reg) : s.xval r < 2 ^ s.w := (s.xget r).isLt

/-- A register other than `x0`, from its cell. -/
theorem State.xval_eq (s : State) {r : Reg} (h : r ≠ 0) :
    s.xval r = (s.x[r.toNat]'r.isLt).toNat % 2 ^ s.w := by
  unfold State.xval State.xget
  rw [if_neg h, BitVec.toNat_setWidth]

theorem State.x_xset (s : State) (r : Reg) (v : BitVec s.w) :
    (s.xset r v).x = if r = 0 then s.x else s.x.set r.toNat (v.setWidth 64) r.isLt := rfl

/-- A register after `x[r] <- v`. -/
theorem State.xval_xset (s : State) (r q : Reg) (v : BitVec s.w) :
    (s.xset r v).xval q = if q = r then (if r = 0 then 0 else v.toNat) else s.xval q := by
  by_cases h0 : q = 0
  · subst h0
    by_cases hq : (0 : Reg) = r
    · subst hq; simp
    · rw [if_neg hq]
      exact (State.xval_zero _).trans (State.xval_zero s).symm
  · rw [State.xval_eq _ h0, State.xval_eq _ h0]
    simp only [State.x_xset, State.w_xset]
    by_cases hq : q = r
    · subst hq
      simp only [if_true, if_neg h0, Vector.getElem_set_self]
      have h := congrArg BitVec.toNat (setWidth_setWidth_64 v s.w_le)
      rwa [BitVec.toNat_setWidth] at h
    · by_cases hr : r = 0
      · simp only [if_pos hr, if_neg hq]
      · simp only [if_neg hr, if_neg hq]
        rw [Vector.getElem_set_ne _ _ (fun h => hq (BitVec.eq_of_toNat_eq h.symm))]

theorem State.xval_xset_self (s : State) (r : Reg) (v : BitVec s.w) :
    (s.xset r v).xval r = if r = 0 then 0 else v.toNat := by
  simp [State.xval_xset]

theorem State.xval_xset_ne (s : State) {r q : Reg} (v : BitVec s.w) (h : q ≠ r) :
    (s.xset r v).xval q = s.xval q := by
  simp [State.xval_xset, h]

/-! ## Program counter -/

@[simp] theorem State.pcNat_setPc (s : State) (v : BitVec s.w) : (s.setPc v).pcNat = v.toNat :=
  congrArg BitVec.toNat (setWidth_setWidth_64 v s.w_le)

@[simp] theorem State.pcNat_advance (s : State) (n : Nat) :
    (s.advance n).pcNat = (s.pcNat + n) % 2 ^ s.w := by
  rw [State.advance, State.pcNat_setPc]
  simp [BitVec.toNat_add, State.pcNat]

/-! ## Floating-point registers -/

theorem flenOf_le (cfg : Config) : flenOf cfg ≤ 64 := by
  unfold flenOf
  split <;> [skip; split] <;> omega

/-- A floating-point register after `f[r] <- v`. -/
theorem State.fget_fset (s : State) (r q : Reg) (v : BitVec 64) :
    (s.fset r v).fget q =
      if q = r then (v.setWidth (flenOf s.cfg)).setWidth 64 else s.fget q := by
  unfold State.fget State.fset
  split
  · rename_i h
    subst h
    simp only [Vector.getElem_set_self]
    rw [setWidth_setWidth_64 _ (flenOf_le _)]
  · rename_i h
    simp only
    rw [Vector.getElem_set_ne _ _ (fun e => h (BitVec.eq_of_toNat_eq e.symm))]

/-! ## CSRs -/

/-- A CSR after `CSRs[c] <- v`. -/
theorem State.csrVal_csrSet (s : State) (c q : CsrNum) (v : BitVec s.w) (h : s.csrs.wf = true) :
    (s.csrSet c v).csrVal q = if q = c then v.toNat else s.csrVal q := by
  have hq' : (s.csrSet c v).csrVal q =
      ((s.csrs.write c.toNat (v.setWidth 64)).read q.toNat).toNat % 2 ^ s.w :=
    BitVec.toNat_setWidth ..
  rw [hq', Csrs.read_write _ _ _ h]
  by_cases hq : q = c
  · subst hq
    have h := congrArg BitVec.toNat (setWidth_setWidth_64 v s.w_le)
    rw [BitVec.toNat_setWidth] at h
    rw [if_pos rfl, if_pos rfl, h]
  · have : q.toNat ≠ c.toNat := fun e => hq (BitVec.eq_of_toNat_eq e)
    rw [if_neg hq, if_neg this]
    exact (BitVec.toNat_setWidth ..).symm

end Sys2Proof.Machine
end

