-- ==== Sys2Proof/Laws/Bytes.lean ====
section
/-!
SUPPORT. Multi-byte values in memory: what a read of several bytes gives, what a write of several
bytes leaves, and the checks of an access as propositions.
-/
namespace Sys2Proof.Machine

/-! ## Addresses -/

theorem byteAddr_toNat {w : Nat} (a : BitVec w) (k : Nat) :
    (a + BitVec.ofNat w k).toNat = (a.toNat + k) % 2 ^ w := by
  simp [BitVec.toNat_add]

theorem byteAddrs_eq {w : Nat} (a : BitVec w) (n : Nat) :
    byteAddrs a n = (List.range n).map fun k => (a.toNat + k) % 2 ^ w := by
  simp [byteAddrs]

/-- No two bytes of a short access share an address. -/
theorem nodup_addrs (a w n : Nat) (h : n ≤ 2 ^ w) :
    ((List.range n).map fun k => (a + k) % 2 ^ w).Nodup := by
  refine List.Nodup.map_on (fun i hi j hj e => ?_) List.nodup_range
  have h1 : i ≡ j [MOD 2 ^ w] := Nat.ModEq.add_left_cancel' a e
  exact Nat.ModEq.eq_of_lt_of_lt h1 ((List.mem_range.mp hi).trans_le h)
    ((List.mem_range.mp hj).trans_le h)

theorem State.eight_le (s : State) : 8 ≤ 2 ^ s.w :=
  le_trans (by norm_num) (Nat.pow_le_pow_right (by norm_num : 0 < 2) s.le_w)

/-! ## Reading -/

theorem leNat_lt (bs : List Byte) : leNat bs < 256 ^ bs.length := by
  induction bs with
  | nil => simp [leNat]
  | cons b bs ih =>
    have := b.isLt
    simp only [leNat, List.length_cons, Nat.pow_succ]
    omega

theorem State.numAt_eq (s : State) (a n : Nat) :
    s.numAt a n = leNat ((List.range n).map fun k => s.byteAt ((a + k) % 2 ^ s.w)) := by
  induction n generalizing a with
  | zero => rfl
  | succ n ih =>
    rw [List.range_succ_eq_map, List.map_cons, List.map_map, leNat, State.numAt, ih]
    have : (fun k => s.byteAt ((a + 1 + k) % 2 ^ s.w)) =
        (fun k => s.byteAt ((a + k) % 2 ^ s.w)) ∘ Nat.succ := by
      funext k
      simp only [Function.comp, Nat.succ_eq_add_one]
      rw [show a + 1 + k = a + (k + 1) by omega]
    rw [this]
    simp

theorem State.numAt_lt (s : State) (a n : Nat) : s.numAt a n < 2 ^ (8 * n) := by
  rw [State.numAt_eq]
  have h := leNat_lt ((List.range n).map fun k => s.byteAt ((a + k) % 2 ^ s.w))
  rw [List.length_map, List.length_range] at h
  rwa [Nat.pow_mul]

/-- The value of an access is the number its bytes hold. -/
theorem State.toNat_bytesAt (s : State) (a : BitVec s.w) (n : Nat) :
    (s.bytesAt a n).toNat = s.numAt a.toNat n := by
  have h : leNat ((byteAddrs a n).map s.mem.read) = s.numAt a.toNat n := by
    rw [State.numAt_eq, byteAddrs_eq, List.map_map]
    rfl
  rw [State.bytesAt, BitVec.toNat_ofNat, h, Nat.mod_eq_of_lt (s.numAt_lt _ _)]

/-- Two states with the same bytes at an access hold the same number there. -/
theorem State.numAt_congr {s t : State} (hw : t.w = s.w) (a n : Nat)
    (h : ∀ k, k < n → t.byteAt ((a + k) % 2 ^ s.w) = s.byteAt ((a + k) % 2 ^ s.w)) :
    t.numAt a n = s.numAt a n := by
  rw [State.numAt_eq, State.numAt_eq, hw]
  congr 1
  exact List.map_congr_left fun k hk => h k (List.mem_range.mp hk)

/-! ## Writing -/

/-- The bytes of a number, put together again, are the number. -/
theorem leNat_bytes (v n : Nat) :
    leNat ((List.range n).map fun k => BitVec.ofNat 8 (v / 256 ^ k)) = v % 256 ^ n := by
  induction n generalizing v with
  | zero => simp [leNat, Nat.mod_one]
  | succ n ih =>
    rw [List.range_succ_eq_map, List.map_cons, List.map_map, leNat]
    have h : ((fun k => BitVec.ofNat 8 (v / 256 ^ k)) ∘ Nat.succ) =
        fun k => BitVec.ofNat 8 (v / 256 / 256 ^ k) := by
      funext k
      simp [Nat.pow_succ, Nat.div_div_eq_div_mul, Nat.mul_comm]
    rw [h, ih, Nat.pow_succ', Nat.mod_mul]
    simp

theorem extractLsb'_byte {n : Nat} (v : BitVec (8 * n)) (k : Nat) :
    v.extractLsb' (8 * k) 8 = BitVec.ofNat 8 (v.toNat / 256 ^ k) := by
  apply BitVec.eq_of_toNat_eq
  rw [BitVec.extractLsb'_toNat, BitVec.toNat_ofNat, Nat.shiftRight_eq_div_pow, Nat.pow_mul]

theorem cellsOf_keys {w n : Nat} (a : BitVec w) (v : BitVec (8 * n)) :
    (cellsOf a v).map Prod.fst = (List.range n).map fun k => (a.toNat + k) % 2 ^ w := by
  simp [cellsOf, Function.comp_def]

/-- A byte that is not among those written is as it was. -/
theorem State.byteAt_putBytes_other (s : State) (a : BitVec s.w) (n : Nat) (v : BitVec (8 * n))
    (hm : s.mem.wf = true) (q : Nat)
    (hq : q ∉ (List.range n).map fun k => (a.toNat + k) % 2 ^ s.w) :
    (s.putBytes a n v).byteAt q = s.byteAt q := by
  refine Memory.read_writeCells_other _ _ hm fun c hc e => hq ?_
  rw [← cellsOf_keys (n := n) a v, ← e]
  exact List.mem_map_of_mem hc

/-- The written bytes. -/
theorem State.byteAt_putBytes (s : State) (a : BitVec s.w) (n : Nat) (v : BitVec (8 * n))
    (hm : s.mem.wf = true) (hn : n ≤ 8) (k : Nat) (hk : k < n) :
    (s.putBytes a n v).byteAt ((a.toNat + k) % 2 ^ s.w) =
      BitVec.ofNat 8 (v.toNat / 256 ^ k) := by
  refine Memory.read_writeCells_of_mem _ _ _ hm ?_ ?_
  · rw [cellsOf_keys]
    exact nodup_addrs _ _ _ (hn.trans s.eight_le)
  · simp only [cellsOf, List.mem_map, List.mem_range]
    exact ⟨k, hk, by rw [byteAddr_toNat, extractLsb'_byte]⟩

/-- A number written is the number read. -/
theorem State.numAt_putBytes (s : State) (a : BitVec s.w) (n : Nat) (v : BitVec (8 * n))
    (hm : s.mem.wf = true) (hn : n ≤ 8) :
    (s.putBytes a n v).numAt a.toNat n = v.toNat := by
  rw [State.numAt_eq]
  have h : ((List.range n).map fun k =>
      (s.putBytes a n v).byteAt ((a.toNat + k) % 2 ^ (s.putBytes a n v).w)) =
      (List.range n).map fun k => BitVec.ofNat 8 (v.toNat / 256 ^ k) :=
    List.map_congr_left fun k hk => s.byteAt_putBytes a n v hm hn k (List.mem_range.mp hk)
  rw [h, leNat_bytes]
  exact Nat.mod_eq_of_lt (by simpa [Nat.pow_mul] using v.isLt)

/-! ## Checks -/

theorem misaligned_eq_false {w : Nat} (a : BitVec w) (n : Nat) :
    misaligned a n = false ↔ Aligned a.toNat n := by
  simp [misaligned, Aligned]

/-- "Every byte of the access" as a proposition. -/
theorem all_byteAddrs (s : State) (a : BitVec s.w) (n : Nat) (p : Nat → Bool) :
    (byteAddrs a n).all p = true ↔ EveryByte s a.toNat n p := by
  simp [byteAddrs_eq, EveryByte]

theorem loadCheck_eq_none (s : State) (a : BitVec s.w) (n : Nat) :
    loadCheck s a n = none ↔ LoadAllowed s a.toNat n := by
  unfold loadCheck LoadAllowed AlignmentAllows
  rw [← misaligned_eq_false, ← all_byteAddrs]
  cases s.cfg.misaligned <;> cases misaligned a n <;>
    cases (byteAddrs a n).all s.readableAt <;> simp

theorem storeCheck_eq_none (s : State) (a : BitVec s.w) (n : Nat) :
    storeCheck s a n = none ↔ AlignmentAllows s a.toNat n ∧ EveryByte s a.toNat n s.writableAt := by
  unfold storeCheck AlignmentAllows
  rw [← misaligned_eq_false, ← all_byteAddrs]
  cases s.cfg.misaligned <;> cases misaligned a n <;>
    cases (byteAddrs a n).all s.writableAt <;> simp

theorem amoCheck_eq_none (s : State) (a : BitVec s.w) (n : Nat) :
    amoCheck s a n = none ↔ Aligned a.toNat n ∧ EveryByte s a.toNat n s.readableAt ∧
      EveryByte s a.toNat n s.writableAt := by
  have h : ((byteAddrs a n).all fun b => s.readableAt b && s.writableAt b) = true ↔
      EveryByte s a.toNat n s.readableAt ∧ EveryByte s a.toNat n s.writableAt := by
    rw [all_byteAddrs]
    simp only [EveryByte, Bool.and_eq_true]
    exact ⟨fun h => ⟨fun k hk => (h k hk).1, fun k hk => (h k hk).2⟩,
      fun h k hk => ⟨h.1 k hk, h.2 k hk⟩⟩
  unfold amoCheck
  rw [← misaligned_eq_false, ← h]
  cases misaligned a n <;>
    cases (byteAddrs a n).all fun b => s.readableAt b && s.writableAt b <;> simp

theorem touchesCode_eq_false (s : State) (a : BitVec s.w) (n : Nat) :
    touchesCode s a n = false ↔ EveryByte s a.toNat n fun b => !s.executableAt b := by
  unfold touchesCode
  rw [← all_byteAddrs, List.any_eq_false, List.all_eq_true]
  simp

end Sys2Proof.Machine
end

