-- ==== Sys2Proof/Laws/Effects.lean ====
section
/-!
SUPPORT. One lemma per shared operation that says all it can answer, and the ways an instruction
writes one register or stores one number, in the terms of `Safety.lean`.
-/
namespace Sys2Proof.Machine

/-! ## What each shared operation answers -/

theorem raise_eq (e : Exception) (tval : Option (BitVec 64)) (s : State) :
    raise e tval s = .fault (.trap e (s.pcv.setWidth 64) tval) := rfl

/-- A load answers a next state exactly where it is allowed, and then that of its continuation. -/
theorem loadThen_eq_next (s : State) (a : BitVec s.w) (n : Nat) (k : BitVec (8 * n) → State)
    (t : State) :
    loadThen s a n k = .next t ↔ LoadAllowed s a.toNat n ∧ t = k (s.bytesAt a n) := by
  unfold loadThen
  rw [← loadCheck_eq_none]
  cases loadCheck s a n <;> simp [raise, eq_comm]

theorem loadThen_next {s : State} {a : BitVec s.w} {n : Nat} (k : BitVec (8 * n) → State)
    (h : LoadAllowed s a.toNat n) : loadThen s a n k = .next (k (s.bytesAt a n)) :=
  (loadThen_eq_next ..).mpr ⟨h, rfl⟩

/-- A store answers a next state exactly where it is allowed, with the bytes written. -/
theorem storeThen_eq_next (s : State) (a : BitVec s.w) (n : Nat) (v : BitVec (8 * n)) (ilen : Nat)
    (t : State) :
    storeThen s a n v ilen = .next t ↔
      StoreAllowed s a.toNat n ∧ t = (s.putBytes a n v).advance ilen := by
  have h := storeCheck_eq_none s a n
  have h2 := touchesCode_eq_false s a n
  unfold storeThen StoreAllowed
  rw [← and_assoc, ← h, ← h2]
  cases storeCheck s a n <;> cases touchesCode s a n <;> simp [raise, eq_comm]

theorem storeThen_next {s : State} {a : BitVec s.w} {n : Nat} (v : BitVec (8 * n)) (ilen : Nat)
    (h : StoreAllowed s a.toNat n) :
    storeThen s a n v ilen = .next ((s.putBytes a n v).advance ilen) :=
  (storeThen_eq_next ..).mpr ⟨h, rfl⟩

/-- The state an AMO leaves. -/
theorem amo_eq_next (n : Nat) (op : BitVec (8 * n) → BitVec (8 * n) → BitVec (8 * n))
    (rd rs2 rs1 : Reg) (s t : State) :
    amo n op rd rs2 rs1 s = .next t ↔ AmoAllowed s (s.xval rs1) n ∧
      t = (((s.putBytes (s.xget rs1) n
          (op (s.bytesAt (s.xget rs1) n) ((s.xget rs2).setWidth (8 * n)))).xset rd
        ((s.bytesAt (s.xget rs1) n).signExtend s.w)).advance 4) := by
  have h := amoCheck_eq_none s (s.xget rs1) n
  have h2 := touchesCode_eq_false s (s.xget rs1) n
  unfold amo AmoAllowed State.xval
  rw [← and_assoc, ← and_assoc, and_assoc (a := Aligned _ _), ← h, ← h2]
  cases amoCheck s (s.xget rs1) n <;> cases touchesCode s (s.xget rs1) n <;> simp [raise, eq_comm]

/-- A CSR instruction answers a next state exactly on a plain CSR. -/
theorem csrOp_eq_next (s : State) (i : Instr) (rd : Reg) (c : CsrNum)
    (new : BitVec s.w → BitVec s.w) (t : State) :
    csrOp s i rd c new = .next t ↔ s.csrKind c = .plain ∧
      t = ((s.csrSet c (new (s.csrGet c))).xset rd (s.csrGet c)).advance 4 := by
  unfold csrOp
  cases s.csrKind c <;> simp [raise, eq_comm]

/-! ## Frames -/

theorem ChangesOnly.refl (s : State) (xs fs : List Reg) (cs : List CsrNum) (addrs : List Nat) :
    ChangesOnly s s xs fs cs addrs :=
  ⟨rfl, fun _ _ => rfl, fun _ _ => rfl, fun _ _ => rfl, fun _ _ => rfl⟩

/-- Setting `pc` is no change of anything else. -/
theorem ChangesOnly.setPc {s t : State} {xs fs : List Reg} {cs : List CsrNum} {addrs : List Nat}
    (h : ChangesOnly s t xs fs cs addrs) (v : BitVec t.w) :
    ChangesOnly s (t.setPc v) xs fs cs addrs :=
  ⟨h.cfg, h.xregs, h.fregs, h.csrs, h.bytes⟩

theorem ChangesOnly.advance {s t : State} {xs fs : List Reg} {cs : List CsrNum} {addrs : List Nat}
    (h : ChangesOnly s t xs fs cs addrs) (n : Nat) :
    ChangesOnly s (t.advance n) xs fs cs addrs := h.setPc _

theorem ChangesOnly.xset {s t : State} {fs : List Reg} {cs : List CsrNum} {addrs : List Nat}
    (h : ChangesOnly s t [] fs cs addrs) (r : Reg) (v : BitVec t.w) :
    ChangesOnly s (t.xset r v) [r] fs cs addrs :=
  ⟨h.cfg, fun q hq => (t.xval_xset_ne v (by simpa using hq)).trans (h.xregs q (by simp)),
    h.fregs, h.csrs, h.bytes⟩

theorem ChangesOnly.fset {s t : State} {xs : List Reg} {cs : List CsrNum} {addrs : List Nat}
    (h : ChangesOnly s t xs [] cs addrs) (r : Reg) (v : BitVec 64) :
    ChangesOnly s (t.fset r v) xs [r] cs addrs :=
  ⟨h.cfg, h.xregs,
    fun q hq => by
      rw [State.fget_fset, if_neg (by simpa using hq)]
      exact h.fregs q (by simp),
    h.csrs, h.bytes⟩

theorem ChangesOnly.csrSet {s : State} (hw : s.csrs.wf = true) (c : CsrNum) (v : BitVec s.w) :
    ChangesOnly s (s.csrSet c v) [] [] [c] [] :=
  ⟨rfl, fun _ _ => rfl, fun _ _ => rfl,
    fun q hq => by rw [State.csrVal_csrSet _ _ _ _ hw, if_neg (by simpa using hq)],
    fun _ _ => rfl⟩

theorem ChangesOnly.putBytes {s : State} (hw : s.mem.wf = true) (a : BitVec s.w) (n : Nat)
    (v : BitVec (8 * n)) : ChangesOnly s (s.putBytes a n v) [] [] []
      ((List.range n).map fun k => (a.toNat + k) % 2 ^ s.w) :=
  ⟨rfl, fun _ _ => rfl, fun _ _ => rfl, fun _ _ => rfl,
    fun q hq => s.byteAt_putBytes_other a n v hw q hq⟩

/-- Writing one x register and going on. -/
theorem writesX_xset (s : State) (rd : Reg) (v : BitVec s.w) (n : Nat) :
    WritesX (.next ((s.xset rd v).advance n)) s rd v.toNat n :=
  ⟨_, rfl, by simp [State.xval_xset_self], by simp,
    ((ChangesOnly.refl s [] [] [] []).xset rd v).advance n⟩

/-- Writing one f register and going on. -/
theorem writesF_fset (s : State) (rd : Reg) (v : BitVec 64) (n : Nat) :
    WritesF (.next ((s.fset rd v).advance n)) s rd
      ((v.setWidth (flenOf s.cfg)).setWidth 64) n :=
  ⟨_, rfl, by simp [State.fget_fset], by simp,
    ((ChangesOnly.refl s [] [] [] []).fset rd v).advance n⟩

/-- Going to an address. -/
theorem goesTo_setPc (s : State) (v : BitVec s.w) : GoesTo (.next (s.setPc v)) s v.toNat :=
  ⟨_, rfl, by simp, (ChangesOnly.refl s [] [] [] []).setPc v⟩

/-- Storing one number and going on. -/
theorem storesNum_storeThen {s : State} {a : BitVec s.w} {n : Nat} (v : BitVec (8 * n))
    (hw : s.mem.wf = true) (hn : n ≤ 8) (h : StoreAllowed s a.toNat n) :
    StoresNum (storeThen s a n v 2) s a.toNat n v.toNat := by
  refine ⟨_, storeThen_next v 2 h, ?_, by simp, (ChangesOnly.putBytes hw a n v).advance 2⟩
  rw [← s.numAt_putBytes a n v hw hn]
  exact State.numAt_congr (s := s.putBytes a n v) (t := (s.putBytes a n v).advance 2) rfl _ _
    fun _ _ => rfl

end Sys2Proof.Machine
end

