-- ==== Sys2Proof/Laws/Arith.lean ====
section
/-!
SUPPORT. Machine arithmetic as arithmetic on integers: a value of the machine as `BitVec.ofInt` of
an integer expression, and the number that is.
-/
namespace Sys2Proof.Machine

theorem toNat_ofInt_eq_wrap (w : Nat) (z : Int) : (BitVec.ofInt w z).toNat = wrap w z := by
  rw [BitVec.toNat_ofInt, wrap]
  norm_cast

/-- A bit vector is `ofInt` of its unsigned value. -/
theorem eq_ofInt_toNat {w : Nat} (v : BitVec w) : v = BitVec.ofInt w v.toNat := by
  rw [BitVec.ofInt_natCast, BitVec.ofNat_toNat, BitVec.setWidth_eq]

/-- A bit vector is `ofInt` of its signed value. -/
theorem eq_ofInt_toInt {w : Nat} (v : BitVec w) : v = BitVec.ofInt w v.toInt :=
  BitVec.ofInt_toInt.symm

theorem wrap_natCast (w n : Nat) : wrap w n = n % 2 ^ w := by
  rw [← toNat_ofInt_eq_wrap, BitVec.ofInt_natCast, BitVec.toNat_ofNat]

/-- Wrapping again changes nothing. -/
theorem wrap_wrap (w : Nat) (z : Int) : wrap w (wrap w z : Nat) = wrap w z := by
  rw [wrap_natCast, ← toNat_ofInt_eq_wrap]
  exact Nat.mod_eq_of_lt (BitVec.isLt _)

theorem signExtend_eq_ofInt {v : Nat} (w : Nat) (a : BitVec v) :
    a.signExtend w = BitVec.ofInt w a.toInt := rfl

/-- The signed value of the low 32 bits. -/
theorem toInt_setWidth_eq {v : Nat} (w : Nat) (a : BitVec v) :
    (a.setWidth w).toInt = signedOf w a.toNat := by
  rw [BitVec.toInt_setWidth, signedOf]

theorem toInt_eq_signedOf {w : Nat} (a : BitVec w) : a.toInt = signedOf w a.toNat := by
  rw [← toInt_setWidth_eq, BitVec.setWidth_eq]

/-- Reading few bits of a wrapped value is reading them of the value. -/
theorem signedOf_wrap {n w : Nat} (h : n ≤ w) (z : Int) :
    signedOf n (wrap w z : Nat) = signedOf n z := by
  have h1 : ((wrap w z : Nat) : Int) = z % (2 ^ w : Int) := by
    rw [wrap, Int.toNat_of_nonneg (Int.emod_nonneg _ (by positivity))]
  have h2 : ((2 ^ n : Nat) : Int) ∣ (2 ^ w : Int) := by
    push_cast
    exact pow_dvd_pow 2 h
  rw [h1, signedOf, signedOf, Int.bmod_def, Int.bmod_def, Int.emod_emod_of_dvd z h2]

/-- The low 32 bits of a wider result, sign-extended. -/
theorem sextWord_ofInt {w : Nat} (v : Nat) (h : 32 ≤ w) (z : Int) :
    sextWord v (BitVec.ofInt w z) = BitVec.ofInt v (signedOf 32 z) := by
  rw [sextWord, signExtend_eq_ofInt, toInt_setWidth_eq, toNat_ofInt_eq_wrap, signedOf_wrap h]

theorem toInt_lt_toInt_zero_iff {w : Nat} (a : BitVec w) : a.toInt < 0 ↔ 2 ^ w ≤ 2 * a.toNat := by
  rw [BitVec.toInt_eq_toNat_cond]
  have := a.isLt
  split <;> omega

/-- A power of two times an immediate, as the concatenation with zeros makes it. -/
theorem toInt_append_zeros {v : Nat} (k : Nat) (a : BitVec v) :
    (a ++ 0#k).toInt = a.toInt * 2 ^ k := by
  have h : (a ++ 0#k).toNat = a.toNat * 2 ^ k := by
    simp [BitVec.toNat_append, Nat.shiftLeft_eq]
  rw [BitVec.toInt_eq_toNat_cond, BitVec.toInt_eq_toNat_cond, h]
  have h2 : 2 * (a.toNat * 2 ^ k) < 2 ^ (v + k) ↔ 2 * a.toNat < 2 ^ v := by
    rw [Nat.pow_add, ← Nat.mul_assoc]
    exact Nat.mul_lt_mul_right (by positivity)
  by_cases hc : 2 * a.toNat < 2 ^ v
  · rw [if_pos hc, if_pos (h2.mpr hc)]
    push_cast
    ring
  · rw [if_neg hc, if_neg fun e => hc (h2.mp e)]
    push_cast
    rw [pow_add]
    ring

theorem toNat_append_zeros {v : Nat} (k : Nat) (a : BitVec v) :
    (a ++ 0#k).toNat = a.toNat * 2 ^ k := by
  simp [BitVec.toNat_append, Nat.shiftLeft_eq]

end Sys2Proof.Machine
end

