-- ==== Sys2Proof/Laws/Fields.lean ====
section
/-!
SUPPORT. Bit fields: what each field of an encoded word is, and that a word is its fields put
together again.
-/
namespace Sys2Proof

/-! ## Parts of a concatenation -/

@[simp] theorem getLsbD_cat {a b : Nat} (x : BitVec a) (y : BitVec b) (i : Nat) :
    BitVec.getLsbD (w := no_index (a + b)) (no_index (x ++ y)) i =
      if i < b then y.getLsbD i else x.getLsbD (i - b) := by
  rw [BitVec.getLsbD_append]

/-- A part that lies in the low half of a concatenation. -/
theorem extract_cat_low {a b : Nat} (x : BitVec a) (y : BitVec b) (s l : Nat) (h : s + l ≤ b) :
    BitVec.extractLsb' (n := no_index (a + b)) s l (no_index (x ++ y)) = y.extractLsb' s l :=
  BitVec.extractLsb'_append_eq_of_add_le h

/-- A part that lies in the high half of a concatenation. -/
theorem extract_cat_high {a b : Nat} (x : BitVec a) (y : BitVec b) (s l : Nat) (h : b ≤ s) :
    BitVec.extractLsb' (n := no_index (a + b)) s l (no_index (x ++ y)) =
      x.extractLsb' (s - b) l :=
  BitVec.extractLsb'_append_eq_of_le h

/-! ## Fields of `encR` -/

@[simp] theorem opcodeOf_encR (f7 : BitVec 7) (rs2 rs1 : Reg) (f3 : BitVec 3) (rd : Reg) (op : BitVec 7) :
    opcodeOf (encR f7 rs2 rs1 f3 rd op) = op := by
  simp [opcodeOf, encR, extract_cat_low]

@[simp] theorem rdOf_encR (f7 : BitVec 7) (rs2 rs1 : Reg) (f3 : BitVec 3) (rd : Reg) (op : BitVec 7) :
    rdOf (encR f7 rs2 rs1 f3 rd op) = rd := by
  simp [rdOf, encR, extract_cat_low, extract_cat_high]

@[simp] theorem funct3Of_encR (f7 : BitVec 7) (rs2 rs1 : Reg) (f3 : BitVec 3) (rd : Reg) (op : BitVec 7) :
    funct3Of (encR f7 rs2 rs1 f3 rd op) = f3 := by
  simp [funct3Of, encR, extract_cat_low, extract_cat_high]

@[simp] theorem rs1Of_encR (f7 : BitVec 7) (rs2 rs1 : Reg) (f3 : BitVec 3) (rd : Reg) (op : BitVec 7) :
    rs1Of (encR f7 rs2 rs1 f3 rd op) = rs1 := by
  simp [rs1Of, encR, extract_cat_low, extract_cat_high]

@[simp] theorem rs2Of_encR (f7 : BitVec 7) (rs2 rs1 : Reg) (f3 : BitVec 3) (rd : Reg) (op : BitVec 7) :
    rs2Of (encR f7 rs2 rs1 f3 rd op) = rs2 := by
  simp [rs2Of, encR, extract_cat_low, extract_cat_high]

@[simp] theorem funct7Of_encR (f7 : BitVec 7) (rs2 rs1 : Reg) (f3 : BitVec 3) (rd : Reg) (op : BitVec 7) :
    funct7Of (encR f7 rs2 rs1 f3 rd op) = f7 := by
  simp [funct7Of, encR, extract_cat_high]

/-! ## Fields of `encAmo` -/

@[simp] theorem opcodeOf_encAmo (f5 : BitVec 5) (aq rl : BitVec 1) (rs2 rs1 : Reg) (f3 : BitVec 3) (rd : Reg) :
    opcodeOf (encAmo f5 aq rl rs2 rs1 f3 rd) = 0b0101111#7 := by
  simp [opcodeOf, encAmo, extract_cat_low]

@[simp] theorem rdOf_encAmo (f5 : BitVec 5) (aq rl : BitVec 1) (rs2 rs1 : Reg) (f3 : BitVec 3) (rd : Reg) :
    rdOf (encAmo f5 aq rl rs2 rs1 f3 rd) = rd := by
  simp [rdOf, encAmo, extract_cat_low, extract_cat_high]

@[simp] theorem funct3Of_encAmo (f5 : BitVec 5) (aq rl : BitVec 1) (rs2 rs1 : Reg) (f3 : BitVec 3) (rd : Reg) :
    funct3Of (encAmo f5 aq rl rs2 rs1 f3 rd) = f3 := by
  simp [funct3Of, encAmo, extract_cat_low, extract_cat_high]

@[simp] theorem rs1Of_encAmo (f5 : BitVec 5) (aq rl : BitVec 1) (rs2 rs1 : Reg) (f3 : BitVec 3) (rd : Reg) :
    rs1Of (encAmo f5 aq rl rs2 rs1 f3 rd) = rs1 := by
  simp [rs1Of, encAmo, extract_cat_low, extract_cat_high]

@[simp] theorem rs2Of_encAmo (f5 : BitVec 5) (aq rl : BitVec 1) (rs2 rs1 : Reg) (f3 : BitVec 3) (rd : Reg) :
    rs2Of (encAmo f5 aq rl rs2 rs1 f3 rd) = rs2 := by
  simp [rs2Of, encAmo, extract_cat_low, extract_cat_high]

@[simp] theorem funct5Of_encAmo (f5 : BitVec 5) (aq rl : BitVec 1) (rs2 rs1 : Reg) (f3 : BitVec 3) (rd : Reg) :
    funct5Of (encAmo f5 aq rl rs2 rs1 f3 rd) = f5 := by
  simp [funct5Of, encAmo, extract_cat_high]

@[simp] theorem aqOf_encAmo (f5 : BitVec 5) (aq rl : BitVec 1) (rs2 rs1 : Reg) (f3 : BitVec 3) (rd : Reg) :
    aqOf (encAmo f5 aq rl rs2 rs1 f3 rd) = aq := by
  simp [aqOf, encAmo, extract_cat_low, extract_cat_high]

@[simp] theorem rlOf_encAmo (f5 : BitVec 5) (aq rl : BitVec 1) (rs2 rs1 : Reg) (f3 : BitVec 3) (rd : Reg) :
    rlOf (encAmo f5 aq rl rs2 rs1 f3 rd) = rl := by
  simp [rlOf, encAmo, extract_cat_low, extract_cat_high]

/-! ## Fields of `encI` -/

@[simp] theorem opcodeOf_encI (imm : BitVec 12) (rs1 : Reg) (f3 : BitVec 3) (rd : Reg) (op : BitVec 7) :
    opcodeOf (encI imm rs1 f3 rd op) = op := by
  simp [opcodeOf, encI, extract_cat_low]

@[simp] theorem rdOf_encI (imm : BitVec 12) (rs1 : Reg) (f3 : BitVec 3) (rd : Reg) (op : BitVec 7) :
    rdOf (encI imm rs1 f3 rd op) = rd := by
  simp [rdOf, encI, extract_cat_low, extract_cat_high]

@[simp] theorem funct3Of_encI (imm : BitVec 12) (rs1 : Reg) (f3 : BitVec 3) (rd : Reg) (op : BitVec 7) :
    funct3Of (encI imm rs1 f3 rd op) = f3 := by
  simp [funct3Of, encI, extract_cat_low, extract_cat_high]

@[simp] theorem rs1Of_encI (imm : BitVec 12) (rs1 : Reg) (f3 : BitVec 3) (rd : Reg) (op : BitVec 7) :
    rs1Of (encI imm rs1 f3 rd op) = rs1 := by
  simp [rs1Of, encI, extract_cat_low, extract_cat_high]

@[simp] theorem imm12Of_encI (imm : BitVec 12) (rs1 : Reg) (f3 : BitVec 3) (rd : Reg) (op : BitVec 7) :
    imm12Of (encI imm rs1 f3 rd op) = imm := by
  simp [imm12Of, encI, extract_cat_high]

/-! ## Fields of `encU` -/

@[simp] theorem opcodeOf_encU (imm : BitVec 20) (rd : Reg) (op : BitVec 7) :
    opcodeOf (encU imm rd op) = op := by
  simp [opcodeOf, encU, extract_cat_low]

@[simp] theorem rdOf_encU (imm : BitVec 20) (rd : Reg) (op : BitVec 7) :
    rdOf (encU imm rd op) = rd := by
  simp [rdOf, encU, extract_cat_low, extract_cat_high]

@[simp] theorem imm20Of_encU (imm : BitVec 20) (rd : Reg) (op : BitVec 7) :
    imm20Of (encU imm rd op) = imm := by
  simp [imm20Of, encU, extract_cat_high]

/-! ## Fields of `encB` -/

@[simp] theorem opcodeOf_encB (o : BitVec 12) (rs2 rs1 : Reg) (f3 : BitVec 3) :
    opcodeOf (encB o rs2 rs1 f3) = 0b1100011#7 := by
  simp [opcodeOf, encB, extract_cat_low]

@[simp] theorem funct3Of_encB (o : BitVec 12) (rs2 rs1 : Reg) (f3 : BitVec 3) :
    funct3Of (encB o rs2 rs1 f3) = f3 := by
  simp [funct3Of, encB, extract_cat_low, extract_cat_high]

@[simp] theorem rs1Of_encB (o : BitVec 12) (rs2 rs1 : Reg) (f3 : BitVec 3) :
    rs1Of (encB o rs2 rs1 f3) = rs1 := by
  simp [rs1Of, encB, extract_cat_low, extract_cat_high]

@[simp] theorem rs2Of_encB (o : BitVec 12) (rs2 rs1 : Reg) (f3 : BitVec 3) :
    rs2Of (encB o rs2 rs1 f3) = rs2 := by
  simp [rs2Of, encB, extract_cat_low, extract_cat_high]

@[simp] theorem offsetBOf_encB (o : BitVec 12) (rs2 rs1 : Reg) (f3 : BitVec 3) :
    offsetBOf (encB o rs2 rs1 f3) = o := by
  unfold offsetBOf encB
  apply BitVec.eq_of_getLsbD_eq
  intro i hi
  interval_cases i <;> simp [-BitVec.getLsbD_eq_getElem, BitVec.getLsbD_extractLsb']

/-! ## Fields of `encCR` -/

@[simp] theorem cOpOf_encCR (b : BitVec 1) (rd rs2 : Reg) :
    cOpOf (encCR b rd rs2) = 0b10#2 := by
  simp [cOpOf, encCR, extract_cat_low]

@[simp] theorem cFunct3Of_encCR (b : BitVec 1) (rd rs2 : Reg) :
    cFunct3Of (encCR b rd rs2) = 0b100#3 := by
  simp [cFunct3Of, encCR, extract_cat_high]

@[simp] theorem cBit12Of_encCR (b : BitVec 1) (rd rs2 : Reg) :
    cBit12Of (encCR b rd rs2) = b := by
  simp [cBit12Of, encCR, extract_cat_low, extract_cat_high]

@[simp] theorem cRdOf_encCR (b : BitVec 1) (rd rs2 : Reg) :
    cRdOf (encCR b rd rs2) = rd := by
  simp [cRdOf, encCR, extract_cat_low, extract_cat_high]

@[simp] theorem cRs2Of_encCR (b : BitVec 1) (rd rs2 : Reg) :
    cRs2Of (encCR b rd rs2) = rs2 := by
  simp [cRs2Of, encCR, extract_cat_low, extract_cat_high]

/-! ## Fields of `encCI` -/

@[simp] theorem cOpOf_encCI (f3 : BitVec 3) (i : BitVec 6) (rd : Reg) (op : BitVec 2) :
    cOpOf (encCI f3 i rd op) = op := by
  simp [cOpOf, encCI, extract_cat_low]

@[simp] theorem cFunct3Of_encCI (f3 : BitVec 3) (i : BitVec 6) (rd : Reg) (op : BitVec 2) :
    cFunct3Of (encCI f3 i rd op) = f3 := by
  simp [cFunct3Of, encCI, extract_cat_high]

@[simp] theorem cRdOf_encCI (f3 : BitVec 3) (i : BitVec 6) (rd : Reg) (op : BitVec 2) :
    cRdOf (encCI f3 i rd op) = rd := by
  simp [cRdOf, encCI, extract_cat_low, extract_cat_high]

@[simp] theorem immCIOf_encCI (f3 : BitVec 3) (i : BitVec 6) (rd : Reg) (op : BitVec 2) :
    immCIOf (encCI f3 i rd op) = i := by
  unfold immCIOf encCI
  apply BitVec.eq_of_getLsbD_eq
  intro i hi
  interval_cases i <;> simp [-BitVec.getLsbD_eq_getElem, BitVec.getLsbD_extractLsb']

/-! ## Fields of `encAddi16sp` -/

@[simp] theorem cOpOf_encAddi16sp (i : BitVec 6) :
    cOpOf (encAddi16sp i) = 0b01#2 := by
  simp [cOpOf, encAddi16sp, extract_cat_low]

@[simp] theorem cFunct3Of_encAddi16sp (i : BitVec 6) :
    cFunct3Of (encAddi16sp i) = 0b011#3 := by
  simp [cFunct3Of, encAddi16sp, extract_cat_high]

@[simp] theorem cRdOf_encAddi16sp (i : BitVec 6) :
    cRdOf (encAddi16sp i) = 0b00010#5 := by
  simp [cRdOf, encAddi16sp, extract_cat_low, extract_cat_high]

@[simp] theorem imm16spOf_encAddi16sp (i : BitVec 6) :
    imm16spOf (encAddi16sp i) = i := by
  unfold imm16spOf encAddi16sp
  apply BitVec.eq_of_getLsbD_eq
  intro i hi
  interval_cases i <;> simp [-BitVec.getLsbD_eq_getElem, BitVec.getLsbD_extractLsb']

/-! ## Fields of `encCIW` -/

@[simp] theorem cOpOf_encCIW (u : BitVec 8) (rd : CReg) :
    cOpOf (encCIW u rd) = 0b00#2 := by
  simp [cOpOf, encCIW, extract_cat_low]

@[simp] theorem cFunct3Of_encCIW (u : BitVec 8) (rd : CReg) :
    cFunct3Of (encCIW u rd) = 0b000#3 := by
  simp [cFunct3Of, encCIW, extract_cat_high]

@[simp] theorem cLowRegOf_encCIW (u : BitVec 8) (rd : CReg) :
    cLowRegOf (encCIW u rd) = rd := by
  simp [cLowRegOf, encCIW, extract_cat_low, extract_cat_high]

@[simp] theorem uimm4spnOf_encCIW (u : BitVec 8) (rd : CReg) :
    uimm4spnOf (encCIW u rd) = u := by
  unfold uimm4spnOf encCIW
  apply BitVec.eq_of_getLsbD_eq
  intro i hi
  interval_cases i <;> simp [-BitVec.getLsbD_eq_getElem, BitVec.getLsbD_extractLsb']

/-! ## Fields of `encCLWord` -/

@[simp] theorem cOpOf_encCLWord (f3 : BitVec 3) (u : BitVec 5) (rs1 r : CReg) :
    cOpOf (encCLWord f3 u rs1 r) = 0b00#2 := by
  simp [cOpOf, encCLWord, extract_cat_low]

@[simp] theorem cFunct3Of_encCLWord (f3 : BitVec 3) (u : BitVec 5) (rs1 r : CReg) :
    cFunct3Of (encCLWord f3 u rs1 r) = f3 := by
  simp [cFunct3Of, encCLWord, extract_cat_high]

@[simp] theorem cHighRegOf_encCLWord (f3 : BitVec 3) (u : BitVec 5) (rs1 r : CReg) :
    cHighRegOf (encCLWord f3 u rs1 r) = rs1 := by
  simp [cHighRegOf, encCLWord, extract_cat_low, extract_cat_high]

@[simp] theorem cLowRegOf_encCLWord (f3 : BitVec 3) (u : BitVec 5) (rs1 r : CReg) :
    cLowRegOf (encCLWord f3 u rs1 r) = r := by
  simp [cLowRegOf, encCLWord, extract_cat_low, extract_cat_high]

@[simp] theorem uimmWordOf_encCLWord (f3 : BitVec 3) (u : BitVec 5) (rs1 r : CReg) :
    uimmWordOf (encCLWord f3 u rs1 r) = u := by
  unfold uimmWordOf encCLWord
  apply BitVec.eq_of_getLsbD_eq
  intro i hi
  interval_cases i <;> simp [-BitVec.getLsbD_eq_getElem, BitVec.getLsbD_extractLsb']

/-! ## Fields of `encCLDouble` -/

@[simp] theorem cOpOf_encCLDouble (f3 : BitVec 3) (u : BitVec 5) (rs1 r : CReg) :
    cOpOf (encCLDouble f3 u rs1 r) = 0b00#2 := by
  simp [cOpOf, encCLDouble, extract_cat_low]

@[simp] theorem cFunct3Of_encCLDouble (f3 : BitVec 3) (u : BitVec 5) (rs1 r : CReg) :
    cFunct3Of (encCLDouble f3 u rs1 r) = f3 := by
  simp [cFunct3Of, encCLDouble, extract_cat_high]

@[simp] theorem cHighRegOf_encCLDouble (f3 : BitVec 3) (u : BitVec 5) (rs1 r : CReg) :
    cHighRegOf (encCLDouble f3 u rs1 r) = rs1 := by
  simp [cHighRegOf, encCLDouble, extract_cat_low, extract_cat_high]

@[simp] theorem cLowRegOf_encCLDouble (f3 : BitVec 3) (u : BitVec 5) (rs1 r : CReg) :
    cLowRegOf (encCLDouble f3 u rs1 r) = r := by
  simp [cLowRegOf, encCLDouble, extract_cat_low, extract_cat_high]

@[simp] theorem uimmDoubleOf_encCLDouble (f3 : BitVec 3) (u : BitVec 5) (rs1 r : CReg) :
    uimmDoubleOf (encCLDouble f3 u rs1 r) = u := by
  unfold uimmDoubleOf encCLDouble
  apply BitVec.eq_of_getLsbD_eq
  intro i hi
  interval_cases i <;> simp [-BitVec.getLsbD_eq_getElem, BitVec.getLsbD_extractLsb']

/-! ## Fields of `encLwsp` -/

@[simp] theorem cOpOf_encLwsp (f3 : BitVec 3) (u : BitVec 6) (rd : Reg) :
    cOpOf (encLwsp f3 u rd) = 0b10#2 := by
  simp [cOpOf, encLwsp, extract_cat_low]

@[simp] theorem cFunct3Of_encLwsp (f3 : BitVec 3) (u : BitVec 6) (rd : Reg) :
    cFunct3Of (encLwsp f3 u rd) = f3 := by
  simp [cFunct3Of, encLwsp, extract_cat_high]

@[simp] theorem cRdOf_encLwsp (f3 : BitVec 3) (u : BitVec 6) (rd : Reg) :
    cRdOf (encLwsp f3 u rd) = rd := by
  simp [cRdOf, encLwsp, extract_cat_low, extract_cat_high]

@[simp] theorem uimmLwspOf_encLwsp (f3 : BitVec 3) (u : BitVec 6) (rd : Reg) :
    uimmLwspOf (encLwsp f3 u rd) = u := by
  unfold uimmLwspOf encLwsp
  apply BitVec.eq_of_getLsbD_eq
  intro i hi
  interval_cases i <;> simp [-BitVec.getLsbD_eq_getElem, BitVec.getLsbD_extractLsb']

/-! ## Fields of `encLdsp` -/

@[simp] theorem cOpOf_encLdsp (f3 : BitVec 3) (u : BitVec 6) (rd : Reg) :
    cOpOf (encLdsp f3 u rd) = 0b10#2 := by
  simp [cOpOf, encLdsp, extract_cat_low]

@[simp] theorem cFunct3Of_encLdsp (f3 : BitVec 3) (u : BitVec 6) (rd : Reg) :
    cFunct3Of (encLdsp f3 u rd) = f3 := by
  simp [cFunct3Of, encLdsp, extract_cat_high]

@[simp] theorem cRdOf_encLdsp (f3 : BitVec 3) (u : BitVec 6) (rd : Reg) :
    cRdOf (encLdsp f3 u rd) = rd := by
  simp [cRdOf, encLdsp, extract_cat_low, extract_cat_high]

@[simp] theorem uimmLdspOf_encLdsp (f3 : BitVec 3) (u : BitVec 6) (rd : Reg) :
    uimmLdspOf (encLdsp f3 u rd) = u := by
  unfold uimmLdspOf encLdsp
  apply BitVec.eq_of_getLsbD_eq
  intro i hi
  interval_cases i <;> simp [-BitVec.getLsbD_eq_getElem, BitVec.getLsbD_extractLsb']

/-! ## Fields of `encSwsp` -/

@[simp] theorem cOpOf_encSwsp (f3 : BitVec 3) (u : BitVec 6) (rs2 : Reg) :
    cOpOf (encSwsp f3 u rs2) = 0b10#2 := by
  simp [cOpOf, encSwsp, extract_cat_low]

@[simp] theorem cFunct3Of_encSwsp (f3 : BitVec 3) (u : BitVec 6) (rs2 : Reg) :
    cFunct3Of (encSwsp f3 u rs2) = f3 := by
  simp [cFunct3Of, encSwsp, extract_cat_high]

@[simp] theorem cRs2Of_encSwsp (f3 : BitVec 3) (u : BitVec 6) (rs2 : Reg) :
    cRs2Of (encSwsp f3 u rs2) = rs2 := by
  simp [cRs2Of, encSwsp, extract_cat_low, extract_cat_high]

@[simp] theorem uimmSwspOf_encSwsp (f3 : BitVec 3) (u : BitVec 6) (rs2 : Reg) :
    uimmSwspOf (encSwsp f3 u rs2) = u := by
  unfold uimmSwspOf encSwsp
  apply BitVec.eq_of_getLsbD_eq
  intro i hi
  interval_cases i <;> simp [-BitVec.getLsbD_eq_getElem, BitVec.getLsbD_extractLsb']

/-! ## Fields of `encSdsp` -/

@[simp] theorem cOpOf_encSdsp (f3 : BitVec 3) (u : BitVec 6) (rs2 : Reg) :
    cOpOf (encSdsp f3 u rs2) = 0b10#2 := by
  simp [cOpOf, encSdsp, extract_cat_low]

@[simp] theorem cFunct3Of_encSdsp (f3 : BitVec 3) (u : BitVec 6) (rs2 : Reg) :
    cFunct3Of (encSdsp f3 u rs2) = f3 := by
  simp [cFunct3Of, encSdsp, extract_cat_high]

@[simp] theorem cRs2Of_encSdsp (f3 : BitVec 3) (u : BitVec 6) (rs2 : Reg) :
    cRs2Of (encSdsp f3 u rs2) = rs2 := by
  simp [cRs2Of, encSdsp, extract_cat_low, extract_cat_high]

@[simp] theorem uimmSdspOf_encSdsp (f3 : BitVec 3) (u : BitVec 6) (rs2 : Reg) :
    uimmSdspOf (encSdsp f3 u rs2) = u := by
  unfold uimmSdspOf encSdsp
  apply BitVec.eq_of_getLsbD_eq
  intro i hi
  interval_cases i <;> simp [-BitVec.getLsbD_eq_getElem, BitVec.getLsbD_extractLsb']

/-! ## Fields of `encCA` -/

@[simp] theorem cOpOf_encCA (f6 : BitVec 6) (rd : CReg) (f2 : BitVec 2) (rs2 : CReg) :
    cOpOf (encCA f6 rd f2 rs2) = 0b01#2 := by
  simp [cOpOf, encCA, extract_cat_low]

@[simp] theorem cHighRegOf_encCA (f6 : BitVec 6) (rd : CReg) (f2 : BitVec 2) (rs2 : CReg) :
    cHighRegOf (encCA f6 rd f2 rs2) = rd := by
  simp [cHighRegOf, encCA, extract_cat_low, extract_cat_high]

@[simp] theorem cLowRegOf_encCA (f6 : BitVec 6) (rd : CReg) (f2 : BitVec 2) (rs2 : CReg) :
    cLowRegOf (encCA f6 rd f2 rs2) = rs2 := by
  simp [cLowRegOf, encCA, extract_cat_low, extract_cat_high]

@[simp] theorem cLowFunct2Of_encCA (f6 : BitVec 6) (rd : CReg) (f2 : BitVec 2) (rs2 : CReg) :
    cLowFunct2Of (encCA f6 rd f2 rs2) = f2 := by
  simp [cLowFunct2Of, encCA, extract_cat_low, extract_cat_high]

@[simp] theorem cFunct3Of_encCA (f6 : BitVec 6) (rd : CReg) (f2 : BitVec 2) (rs2 : CReg) :
    cFunct3Of (encCA f6 rd f2 rs2) = f6.extractLsb' 3 3 := by
  simp [cFunct3Of, encCA, extract_cat_high]

@[simp] theorem cBit12Of_encCA (f6 : BitVec 6) (rd : CReg) (f2 : BitVec 2) (rs2 : CReg) :
    cBit12Of (encCA f6 rd f2 rs2) = f6.extractLsb' 2 1 := by
  simp [cBit12Of, encCA, extract_cat_high]

@[simp] theorem cFunct2Of_encCA (f6 : BitVec 6) (rd : CReg) (f2 : BitVec 2) (rs2 : CReg) :
    cFunct2Of (encCA f6 rd f2 rs2) = f6.extractLsb' 0 2 := by
  simp [cFunct2Of, encCA, extract_cat_high]

/-! ## Fields of `encCB` -/

@[simp] theorem cOpOf_encCB (f3 : BitVec 3) (o : BitVec 8) (rs1 : CReg) :
    cOpOf (encCB f3 o rs1) = 0b01#2 := by
  simp [cOpOf, encCB, extract_cat_low]

@[simp] theorem cFunct3Of_encCB (f3 : BitVec 3) (o : BitVec 8) (rs1 : CReg) :
    cFunct3Of (encCB f3 o rs1) = f3 := by
  simp [cFunct3Of, encCB, extract_cat_high]

@[simp] theorem cHighRegOf_encCB (f3 : BitVec 3) (o : BitVec 8) (rs1 : CReg) :
    cHighRegOf (encCB f3 o rs1) = rs1 := by
  simp [cHighRegOf, encCB, extract_cat_low, extract_cat_high]

@[simp] theorem offsetCBOf_encCB (f3 : BitVec 3) (o : BitVec 8) (rs1 : CReg) :
    offsetCBOf (encCB f3 o rs1) = o := by
  unfold offsetCBOf encCB
  apply BitVec.eq_of_getLsbD_eq
  intro i hi
  interval_cases i <;> simp [-BitVec.getLsbD_eq_getElem, BitVec.getLsbD_extractLsb']

/-! ## Fields of `encCBAlu` -/

@[simp] theorem cOpOf_encCBAlu (i : BitVec 6) (f2 : BitVec 2) (rd : CReg) :
    cOpOf (encCBAlu i f2 rd) = 0b01#2 := by
  simp [cOpOf, encCBAlu, extract_cat_low]

@[simp] theorem cFunct3Of_encCBAlu (i : BitVec 6) (f2 : BitVec 2) (rd : CReg) :
    cFunct3Of (encCBAlu i f2 rd) = 0b100#3 := by
  simp [cFunct3Of, encCBAlu, extract_cat_high]

@[simp] theorem cFunct2Of_encCBAlu (i : BitVec 6) (f2 : BitVec 2) (rd : CReg) :
    cFunct2Of (encCBAlu i f2 rd) = f2 := by
  simp [cFunct2Of, encCBAlu, extract_cat_low, extract_cat_high]

@[simp] theorem cHighRegOf_encCBAlu (i : BitVec 6) (f2 : BitVec 2) (rd : CReg) :
    cHighRegOf (encCBAlu i f2 rd) = rd := by
  simp [cHighRegOf, encCBAlu, extract_cat_low, extract_cat_high]

@[simp] theorem immCIOf_encCBAlu (i : BitVec 6) (f2 : BitVec 2) (rd : CReg) :
    immCIOf (encCBAlu i f2 rd) = i := by
  unfold immCIOf encCBAlu
  apply BitVec.eq_of_getLsbD_eq
  intro i hi
  interval_cases i <;> simp [-BitVec.getLsbD_eq_getElem, BitVec.getLsbD_extractLsb']

/-! ## Fields of `encCJ` -/

@[simp] theorem cOpOf_encCJ (f3 : BitVec 3) (o : BitVec 11) :
    cOpOf (encCJ f3 o) = 0b01#2 := by
  simp [cOpOf, encCJ, extract_cat_low]

@[simp] theorem cFunct3Of_encCJ (f3 : BitVec 3) (o : BitVec 11) :
    cFunct3Of (encCJ f3 o) = f3 := by
  simp [cFunct3Of, encCJ, extract_cat_high]

@[simp] theorem offsetCJOf_encCJ (f3 : BitVec 3) (o : BitVec 11) :
    offsetCJOf (encCJ f3 o) = o := by
  unfold offsetCJOf encCJ
  apply BitVec.eq_of_getLsbD_eq
  intro i hi
  interval_cases i <;> simp [-BitVec.getLsbD_eq_getElem, BitVec.getLsbD_extractLsb']

/-! ## A word is its fields -/

theorem encR_fields (w : BitVec 32) :
    encR (funct7Of w) (rs2Of w) (rs1Of w) (funct3Of w) (rdOf w) (opcodeOf w) = w := by
  apply BitVec.eq_of_getLsbD_eq
  intro i hi
  interval_cases i <;>
    simp [-BitVec.getLsbD_eq_getElem, BitVec.getLsbD_extractLsb', encR, funct7Of, rs2Of, rs1Of, funct3Of, rdOf, opcodeOf]

theorem encI_fields (w : BitVec 32) :
    encI (imm12Of w) (rs1Of w) (funct3Of w) (rdOf w) (opcodeOf w) = w := by
  apply BitVec.eq_of_getLsbD_eq
  intro i hi
  interval_cases i <;>
    simp [-BitVec.getLsbD_eq_getElem, BitVec.getLsbD_extractLsb', encI, imm12Of, rs1Of, funct3Of, rdOf, opcodeOf]

theorem encU_fields (w : BitVec 32) :
    encU (imm20Of w) (rdOf w) (opcodeOf w) = w := by
  apply BitVec.eq_of_getLsbD_eq
  intro i hi
  interval_cases i <;>
    simp [-BitVec.getLsbD_eq_getElem, BitVec.getLsbD_extractLsb', encU, imm20Of, rdOf, opcodeOf]

theorem encAmo_fields (w : BitVec 32) (h0 : opcodeOf w = 0b0101111#7) :
    encAmo (funct5Of w) (aqOf w) (rlOf w) (rs2Of w) (rs1Of w) (funct3Of w) (rdOf w) = w := by
  apply BitVec.eq_of_getLsbD_eq
  intro i hi
  rw [encAmo, ← h0]
  interval_cases i <;> simp [-BitVec.getLsbD_eq_getElem, BitVec.getLsbD_extractLsb', opcodeOf, funct5Of, aqOf, rlOf, rs2Of,
    rs1Of, funct3Of, rdOf]

theorem encB_fields (w : BitVec 32) (h0 : opcodeOf w = 0b1100011#7) :
    encB (offsetBOf w) (rs2Of w) (rs1Of w) (funct3Of w) = w := by
  apply BitVec.eq_of_getLsbD_eq
  intro i hi
  rw [encB, ← h0]
  interval_cases i <;> simp [-BitVec.getLsbD_eq_getElem, BitVec.getLsbD_extractLsb', opcodeOf, offsetBOf, rs2Of, rs1Of, funct3Of]

theorem encCR_fields (w : BitVec 16) (h0 : cOpOf w = 0b10#2) (h1 : cFunct3Of w = 0b100#3) :
    encCR (cBit12Of w) (cRdOf w) (cRs2Of w) = w := by
  apply BitVec.eq_of_getLsbD_eq
  intro i hi
  rw [encCR, ← h0, ← h1]
  interval_cases i <;>
    simp [-BitVec.getLsbD_eq_getElem, BitVec.getLsbD_extractLsb', cOpOf, cFunct3Of, cBit12Of, cRdOf, cRs2Of]

theorem encCI_fields (w : BitVec 16)  :
    encCI (cFunct3Of w) (immCIOf w) (cRdOf w) (cOpOf w) = w := by
  apply BitVec.eq_of_getLsbD_eq
  intro i hi
  rw [encCI]
  interval_cases i <;>
    simp [-BitVec.getLsbD_eq_getElem, BitVec.getLsbD_extractLsb', cFunct3Of, immCIOf, cRdOf, cOpOf]

theorem encAddi16sp_fields (w : BitVec 16) (h0 : cOpOf w = 0b01#2) (h1 : cFunct3Of w = 0b011#3) (h2 : cRdOf w = 0b00010#5) :
    encAddi16sp (imm16spOf w) = w := by
  apply BitVec.eq_of_getLsbD_eq
  intro i hi
  rw [encAddi16sp, ← h0, ← h1, ← h2]
  interval_cases i <;>
    simp [-BitVec.getLsbD_eq_getElem, BitVec.getLsbD_extractLsb', cOpOf, cFunct3Of, cRdOf, imm16spOf]

theorem encCIW_fields (w : BitVec 16) (h0 : cOpOf w = 0b00#2) (h1 : cFunct3Of w = 0b000#3) :
    encCIW (uimm4spnOf w) (cLowRegOf w) = w := by
  apply BitVec.eq_of_getLsbD_eq
  intro i hi
  rw [encCIW, ← h0, ← h1]
  interval_cases i <;>
    simp [-BitVec.getLsbD_eq_getElem, BitVec.getLsbD_extractLsb', cOpOf, cFunct3Of, uimm4spnOf, cLowRegOf]

theorem encCLWord_fields (w : BitVec 16) (h0 : cOpOf w = 0b00#2) :
    encCLWord (cFunct3Of w) (uimmWordOf w) (cHighRegOf w) (cLowRegOf w) = w := by
  apply BitVec.eq_of_getLsbD_eq
  intro i hi
  rw [encCLWord, ← h0]
  interval_cases i <;>
    simp [-BitVec.getLsbD_eq_getElem, BitVec.getLsbD_extractLsb', cOpOf, cFunct3Of, uimmWordOf, cHighRegOf, cLowRegOf]

theorem encCLDouble_fields (w : BitVec 16) (h0 : cOpOf w = 0b00#2) :
    encCLDouble (cFunct3Of w) (uimmDoubleOf w) (cHighRegOf w) (cLowRegOf w) = w := by
  apply BitVec.eq_of_getLsbD_eq
  intro i hi
  rw [encCLDouble, ← h0]
  interval_cases i <;>
    simp [-BitVec.getLsbD_eq_getElem, BitVec.getLsbD_extractLsb', cOpOf, cFunct3Of, uimmDoubleOf, cHighRegOf, cLowRegOf]

theorem encLwsp_fields (w : BitVec 16) (h0 : cOpOf w = 0b10#2) :
    encLwsp (cFunct3Of w) (uimmLwspOf w) (cRdOf w) = w := by
  apply BitVec.eq_of_getLsbD_eq
  intro i hi
  rw [encLwsp, ← h0]
  interval_cases i <;>
    simp [-BitVec.getLsbD_eq_getElem, BitVec.getLsbD_extractLsb', cOpOf, cFunct3Of, uimmLwspOf, cRdOf]

theorem encLdsp_fields (w : BitVec 16) (h0 : cOpOf w = 0b10#2) :
    encLdsp (cFunct3Of w) (uimmLdspOf w) (cRdOf w) = w := by
  apply BitVec.eq_of_getLsbD_eq
  intro i hi
  rw [encLdsp, ← h0]
  interval_cases i <;>
    simp [-BitVec.getLsbD_eq_getElem, BitVec.getLsbD_extractLsb', cOpOf, cFunct3Of, uimmLdspOf, cRdOf]

theorem encSwsp_fields (w : BitVec 16) (h0 : cOpOf w = 0b10#2) :
    encSwsp (cFunct3Of w) (uimmSwspOf w) (cRs2Of w) = w := by
  apply BitVec.eq_of_getLsbD_eq
  intro i hi
  rw [encSwsp, ← h0]
  interval_cases i <;>
    simp [-BitVec.getLsbD_eq_getElem, BitVec.getLsbD_extractLsb', cOpOf, cFunct3Of, uimmSwspOf, cRs2Of]

theorem encSdsp_fields (w : BitVec 16) (h0 : cOpOf w = 0b10#2) :
    encSdsp (cFunct3Of w) (uimmSdspOf w) (cRs2Of w) = w := by
  apply BitVec.eq_of_getLsbD_eq
  intro i hi
  rw [encSdsp, ← h0]
  interval_cases i <;>
    simp [-BitVec.getLsbD_eq_getElem, BitVec.getLsbD_extractLsb', cOpOf, cFunct3Of, uimmSdspOf, cRs2Of]

theorem encCA_fields (w : BitVec 16) (h0 : cOpOf w = 0b01#2) :
    encCA (cFunct3Of w ++ cBit12Of w ++ cFunct2Of w) (cHighRegOf w) (cLowFunct2Of w)
      (cLowRegOf w) = w := by
  apply BitVec.eq_of_getLsbD_eq
  intro i hi
  rw [encCA, ← h0]
  interval_cases i <;>
    simp [-BitVec.getLsbD_eq_getElem, BitVec.getLsbD_extractLsb', cOpOf, cFunct3Of, cBit12Of, cFunct2Of, cHighRegOf, cLowFunct2Of, cLowRegOf]

theorem encCB_fields (w : BitVec 16) (h0 : cOpOf w = 0b01#2) :
    encCB (cFunct3Of w) (offsetCBOf w) (cHighRegOf w) = w := by
  apply BitVec.eq_of_getLsbD_eq
  intro i hi
  rw [encCB, ← h0]
  interval_cases i <;>
    simp [-BitVec.getLsbD_eq_getElem, BitVec.getLsbD_extractLsb', cOpOf, cFunct3Of, offsetCBOf, cHighRegOf]

theorem encCBAlu_fields (w : BitVec 16) (h0 : cOpOf w = 0b01#2) (h1 : cFunct3Of w = 0b100#3) :
    encCBAlu (immCIOf w) (cFunct2Of w) (cHighRegOf w) = w := by
  apply BitVec.eq_of_getLsbD_eq
  intro i hi
  rw [encCBAlu, ← h0, ← h1]
  interval_cases i <;>
    simp [-BitVec.getLsbD_eq_getElem, BitVec.getLsbD_extractLsb', cOpOf, cFunct3Of, immCIOf, cFunct2Of, cHighRegOf]

theorem encCJ_fields (w : BitVec 16) (h0 : cOpOf w = 0b01#2) :
    encCJ (cFunct3Of w) (offsetCJOf w) = w := by
  apply BitVec.eq_of_getLsbD_eq
  intro i hi
  rw [encCJ, ← h0]
  interval_cases i <;>
    simp [-BitVec.getLsbD_eq_getElem, BitVec.getLsbD_extractLsb', cOpOf, cFunct3Of, offsetCJOf]

end Sys2Proof
end

