-- ==== Sys2Proof/Laws/PerInstr.lean ====
section
/-!
SUPPORT. The length of an instruction is in its first two bits (`30_encoding.md` R82), one lemma per
constructor of `Instr`.
-/
namespace Sys2Proof

/-- Bits 1:0 of a word say its length: `11` where it is a 32-bit word, anything else where it is a
16-bit word (`30_encoding.md` R82). -/
def Code.lengthBits : Code → Prop
  | .half w => cOpOf w ≠ 0b11#2
  | .full w => (opcodeOf w).extractLsb' 0 2 = 0b11#2

/-- The word of the instruction says its own length (`30_encoding.md` R82). -/
def Laws.LengthBits.Statement (i : Instr) : Prop := (encode i).lengthBits

theorem lengthBits_half {i : Instr} {w : BitVec 16} (b : BitVec 2) (h : encode i = .half w)
    (hb : cOpOf w = b) (h3 : b ≠ 0b11#2) : Laws.LengthBits.Statement i := by
  unfold Laws.LengthBits.Statement
  rw [h]
  exact fun e => h3 (hb.symm.trans e)

theorem lengthBits_full {i : Instr} {w : BitVec 32} (b : BitVec 7) (h : encode i = .full w)
    (hb : opcodeOf w = b) (h3 : b.extractLsb' 0 2 = 0b11#2) : Laws.LengthBits.Statement i := by
  unfold Laws.LengthBits.Statement
  rw [h]
  exact (congrArg (BitVec.extractLsb' 0 2) hb).trans h3

end Sys2Proof

namespace Sys2Proof.Laws.LengthBits

theorem add (rd rs1 rs2 : Reg) :
    Statement (.add rd rs1 rs2) := lengthBits_full _ rfl (opcodeOf_encR ..) (by decide)

theorem addi (rd rs1 : Reg) (imm : BitVec 12) :
    Statement (.addi rd rs1 imm) := lengthBits_full _ rfl (opcodeOf_encI ..) (by decide)

theorem addiw (rd rs1 : Reg) (imm : BitVec 12) :
    Statement (.addiw rd rs1 imm) := lengthBits_full _ rfl (opcodeOf_encI ..) (by decide)

theorem addw (rd rs1 rs2 : Reg) :
    Statement (.addw rd rs1 rs2) := lengthBits_full _ rfl (opcodeOf_encR ..) (by decide)

theorem amoaddD (aq rl : BitVec 1) (rd rs2 rs1 : Reg) :
    Statement (.amoaddD aq rl rd rs2 rs1) := lengthBits_full _ rfl (opcodeOf_encAmo ..) (by decide)

theorem amoaddW (aq rl : BitVec 1) (rd rs2 rs1 : Reg) :
    Statement (.amoaddW aq rl rd rs2 rs1) := lengthBits_full _ rfl (opcodeOf_encAmo ..) (by decide)

theorem amoandD (aq rl : BitVec 1) (rd rs2 rs1 : Reg) :
    Statement (.amoandD aq rl rd rs2 rs1) := lengthBits_full _ rfl (opcodeOf_encAmo ..) (by decide)

theorem amoandW (aq rl : BitVec 1) (rd rs2 rs1 : Reg) :
    Statement (.amoandW aq rl rd rs2 rs1) := lengthBits_full _ rfl (opcodeOf_encAmo ..) (by decide)

theorem amomaxD (aq rl : BitVec 1) (rd rs2 rs1 : Reg) :
    Statement (.amomaxD aq rl rd rs2 rs1) := lengthBits_full _ rfl (opcodeOf_encAmo ..) (by decide)

theorem amomaxW (aq rl : BitVec 1) (rd rs2 rs1 : Reg) :
    Statement (.amomaxW aq rl rd rs2 rs1) := lengthBits_full _ rfl (opcodeOf_encAmo ..) (by decide)

theorem amomaxuD (aq rl : BitVec 1) (rd rs2 rs1 : Reg) :
    Statement (.amomaxuD aq rl rd rs2 rs1) := lengthBits_full _ rfl (opcodeOf_encAmo ..) (by decide)

theorem amomaxuW (aq rl : BitVec 1) (rd rs2 rs1 : Reg) :
    Statement (.amomaxuW aq rl rd rs2 rs1) := lengthBits_full _ rfl (opcodeOf_encAmo ..) (by decide)

theorem amominD (aq rl : BitVec 1) (rd rs2 rs1 : Reg) :
    Statement (.amominD aq rl rd rs2 rs1) := lengthBits_full _ rfl (opcodeOf_encAmo ..) (by decide)

theorem amominW (aq rl : BitVec 1) (rd rs2 rs1 : Reg) :
    Statement (.amominW aq rl rd rs2 rs1) := lengthBits_full _ rfl (opcodeOf_encAmo ..) (by decide)

theorem amominuD (aq rl : BitVec 1) (rd rs2 rs1 : Reg) :
    Statement (.amominuD aq rl rd rs2 rs1) := lengthBits_full _ rfl (opcodeOf_encAmo ..) (by decide)

theorem amominuW (aq rl : BitVec 1) (rd rs2 rs1 : Reg) :
    Statement (.amominuW aq rl rd rs2 rs1) := lengthBits_full _ rfl (opcodeOf_encAmo ..) (by decide)

theorem amoorD (aq rl : BitVec 1) (rd rs2 rs1 : Reg) :
    Statement (.amoorD aq rl rd rs2 rs1) := lengthBits_full _ rfl (opcodeOf_encAmo ..) (by decide)

theorem amoorW (aq rl : BitVec 1) (rd rs2 rs1 : Reg) :
    Statement (.amoorW aq rl rd rs2 rs1) := lengthBits_full _ rfl (opcodeOf_encAmo ..) (by decide)

theorem amoswapD (aq rl : BitVec 1) (rd rs2 rs1 : Reg) :
    Statement (.amoswapD aq rl rd rs2 rs1) := lengthBits_full _ rfl (opcodeOf_encAmo ..) (by decide)

theorem amoswapW (aq rl : BitVec 1) (rd rs2 rs1 : Reg) :
    Statement (.amoswapW aq rl rd rs2 rs1) := lengthBits_full _ rfl (opcodeOf_encAmo ..) (by decide)

theorem amoxorD (aq rl : BitVec 1) (rd rs2 rs1 : Reg) :
    Statement (.amoxorD aq rl rd rs2 rs1) := lengthBits_full _ rfl (opcodeOf_encAmo ..) (by decide)

theorem amoxorW (aq rl : BitVec 1) (rd rs2 rs1 : Reg) :
    Statement (.amoxorW aq rl rd rs2 rs1) := lengthBits_full _ rfl (opcodeOf_encAmo ..) (by decide)

theorem and (rd rs1 rs2 : Reg) :
    Statement (.and rd rs1 rs2) := lengthBits_full _ rfl (opcodeOf_encR ..) (by decide)

theorem andi (rd rs1 : Reg) (imm : BitVec 12) :
    Statement (.andi rd rs1 imm) := lengthBits_full _ rfl (opcodeOf_encI ..) (by decide)

theorem auipc (rd : Reg) (imm : BitVec 20) :
    Statement (.auipc rd imm) := lengthBits_full _ rfl (opcodeOf_encU ..) (by decide)

theorem beq (rs1 rs2 : Reg) (offset : BitVec 12) :
    Statement (.beq rs1 rs2 offset) := lengthBits_full _ rfl (opcodeOf_encB ..) (by decide)

theorem bge (rs1 rs2 : Reg) (offset : BitVec 12) :
    Statement (.bge rs1 rs2 offset) := lengthBits_full _ rfl (opcodeOf_encB ..) (by decide)

theorem bgeu (rs1 rs2 : Reg) (offset : BitVec 12) :
    Statement (.bgeu rs1 rs2 offset) := lengthBits_full _ rfl (opcodeOf_encB ..) (by decide)

theorem blt (rs1 rs2 : Reg) (offset : BitVec 12) :
    Statement (.blt rs1 rs2 offset) := lengthBits_full _ rfl (opcodeOf_encB ..) (by decide)

theorem bltu (rs1 rs2 : Reg) (offset : BitVec 12) :
    Statement (.bltu rs1 rs2 offset) := lengthBits_full _ rfl (opcodeOf_encB ..) (by decide)

theorem bne (rs1 rs2 : Reg) (offset : BitVec 12) :
    Statement (.bne rs1 rs2 offset) := lengthBits_full _ rfl (opcodeOf_encB ..) (by decide)

theorem cAdd (rd rs2 : Reg) :
    Statement (.cAdd rd rs2) := lengthBits_half _ rfl (cOpOf_encCR ..) (by decide)

theorem cAddi (rd : Reg) (imm : BitVec 6) :
    Statement (.cAddi rd imm) := lengthBits_half _ rfl (cOpOf_encCI ..) (by decide)

theorem cAddi16sp (imm : BitVec 6) :
    Statement (.cAddi16sp imm) := lengthBits_half _ rfl (cOpOf_encAddi16sp ..) (by decide)

theorem cAddi4spn (rd : CReg) (uimm : BitVec 8) :
    Statement (.cAddi4spn rd uimm) := lengthBits_half _ rfl (cOpOf_encCIW ..) (by decide)

theorem cAddiw (rd : Reg) (imm : BitVec 6) :
    Statement (.cAddiw rd imm) := lengthBits_half _ rfl (cOpOf_encCI ..) (by decide)

theorem cAnd (rd rs2 : CReg) :
    Statement (.cAnd rd rs2) := lengthBits_half _ rfl (cOpOf_encCA ..) (by decide)

theorem cAddw (rd rs2 : CReg) :
    Statement (.cAddw rd rs2) := lengthBits_half _ rfl (cOpOf_encCA ..) (by decide)

theorem cAndi (rd : CReg) (imm : BitVec 6) :
    Statement (.cAndi rd imm) := lengthBits_half _ rfl (cOpOf_encCBAlu ..) (by decide)

theorem cBeqz (rs1 : CReg) (offset : BitVec 8) :
    Statement (.cBeqz rs1 offset) := lengthBits_half _ rfl (cOpOf_encCB ..) (by decide)

theorem cBnez (rs1 : CReg) (offset : BitVec 8) :
    Statement (.cBnez rs1 offset) := lengthBits_half _ rfl (cOpOf_encCB ..) (by decide)

theorem cEbreak :
    Statement (.cEbreak) := lengthBits_half _ rfl rfl (by decide)

theorem cFld (rd : CReg) (uimm : BitVec 5) (rs1 : CReg) :
    Statement (.cFld rd uimm rs1) := lengthBits_half _ rfl (cOpOf_encCLDouble ..) (by decide)

theorem cFldsp (rd : Reg) (uimm : BitVec 6) :
    Statement (.cFldsp rd uimm) := lengthBits_half _ rfl (cOpOf_encLdsp ..) (by decide)

theorem cFlw (rd : CReg) (uimm : BitVec 5) (rs1 : CReg) :
    Statement (.cFlw rd uimm rs1) := lengthBits_half _ rfl (cOpOf_encCLWord ..) (by decide)

theorem cFlwsp (rd : Reg) (uimm : BitVec 6) :
    Statement (.cFlwsp rd uimm) := lengthBits_half _ rfl (cOpOf_encLwsp ..) (by decide)

theorem cFsd (rs2 : CReg) (uimm : BitVec 5) (rs1 : CReg) :
    Statement (.cFsd rs2 uimm rs1) := lengthBits_half _ rfl (cOpOf_encCLDouble ..) (by decide)

theorem cFsdsp (rs2 : Reg) (uimm : BitVec 6) :
    Statement (.cFsdsp rs2 uimm) := lengthBits_half _ rfl (cOpOf_encSdsp ..) (by decide)

theorem cFsw (rs2 : CReg) (uimm : BitVec 5) (rs1 : CReg) :
    Statement (.cFsw rs2 uimm rs1) := lengthBits_half _ rfl (cOpOf_encCLWord ..) (by decide)

theorem cFswsp (rs2 : Reg) (uimm : BitVec 6) :
    Statement (.cFswsp rs2 uimm) := lengthBits_half _ rfl (cOpOf_encSwsp ..) (by decide)

theorem cJ (offset : BitVec 11) :
    Statement (.cJ offset) := lengthBits_half _ rfl (cOpOf_encCJ ..) (by decide)

theorem cJal (offset : BitVec 11) :
    Statement (.cJal offset) := lengthBits_half _ rfl (cOpOf_encCJ ..) (by decide)

theorem cJalr (rs1 : Reg) :
    Statement (.cJalr rs1) := lengthBits_half _ rfl (cOpOf_encCR ..) (by decide)

theorem cJr (rs1 : Reg) :
    Statement (.cJr rs1) := lengthBits_half _ rfl (cOpOf_encCR ..) (by decide)

theorem cLd (rd : CReg) (uimm : BitVec 5) (rs1 : CReg) :
    Statement (.cLd rd uimm rs1) := lengthBits_half _ rfl (cOpOf_encCLDouble ..) (by decide)

theorem cLdsp (rd : Reg) (uimm : BitVec 6) :
    Statement (.cLdsp rd uimm) := lengthBits_half _ rfl (cOpOf_encLdsp ..) (by decide)

theorem cLi (rd : Reg) (imm : BitVec 6) :
    Statement (.cLi rd imm) := lengthBits_half _ rfl (cOpOf_encCI ..) (by decide)

theorem cLui (rd : Reg) (imm : BitVec 6) :
    Statement (.cLui rd imm) := lengthBits_half _ rfl (cOpOf_encCI ..) (by decide)

theorem cLw (rd : CReg) (uimm : BitVec 5) (rs1 : CReg) :
    Statement (.cLw rd uimm rs1) := lengthBits_half _ rfl (cOpOf_encCLWord ..) (by decide)

theorem cLwsp (rd : Reg) (uimm : BitVec 6) :
    Statement (.cLwsp rd uimm) := lengthBits_half _ rfl (cOpOf_encLwsp ..) (by decide)

theorem cMv (rd rs2 : Reg) :
    Statement (.cMv rd rs2) := lengthBits_half _ rfl (cOpOf_encCR ..) (by decide)

theorem cOr (rd rs2 : CReg) :
    Statement (.cOr rd rs2) := lengthBits_half _ rfl (cOpOf_encCA ..) (by decide)

theorem cSd (rs2 : CReg) (uimm : BitVec 5) (rs1 : CReg) :
    Statement (.cSd rs2 uimm rs1) := lengthBits_half _ rfl (cOpOf_encCLDouble ..) (by decide)

theorem cSdsp (rs2 : Reg) (uimm : BitVec 6) :
    Statement (.cSdsp rs2 uimm) := lengthBits_half _ rfl (cOpOf_encSdsp ..) (by decide)

theorem cSlli (rd : Reg) (uimm : BitVec 6) :
    Statement (.cSlli rd uimm) := lengthBits_half _ rfl (cOpOf_encCI ..) (by decide)

theorem cSrai (rd : CReg) (uimm : BitVec 6) :
    Statement (.cSrai rd uimm) := lengthBits_half _ rfl (cOpOf_encCBAlu ..) (by decide)

theorem cSrli (rd : CReg) (uimm : BitVec 6) :
    Statement (.cSrli rd uimm) := lengthBits_half _ rfl (cOpOf_encCBAlu ..) (by decide)

theorem cSub (rd rs2 : CReg) :
    Statement (.cSub rd rs2) := lengthBits_half _ rfl (cOpOf_encCA ..) (by decide)

theorem cSubw (rd rs2 : CReg) :
    Statement (.cSubw rd rs2) := lengthBits_half _ rfl (cOpOf_encCA ..) (by decide)

theorem cSw (rs2 : CReg) (uimm : BitVec 5) (rs1 : CReg) :
    Statement (.cSw rs2 uimm rs1) := lengthBits_half _ rfl (cOpOf_encCLWord ..) (by decide)

theorem cSwsp (rs2 : Reg) (uimm : BitVec 6) :
    Statement (.cSwsp rs2 uimm) := lengthBits_half _ rfl (cOpOf_encSwsp ..) (by decide)

theorem cXor (rd rs2 : CReg) :
    Statement (.cXor rd rs2) := lengthBits_half _ rfl (cOpOf_encCA ..) (by decide)

theorem csrrc (rd : Reg) (csr : CsrNum) (rs1 : Reg) :
    Statement (.csrrc rd csr rs1) := lengthBits_full _ rfl (opcodeOf_encI ..) (by decide)

theorem csrrci (rd : Reg) (csr : CsrNum) (zimm : BitVec 5) :
    Statement (.csrrci rd csr zimm) := lengthBits_full _ rfl (opcodeOf_encI ..) (by decide)

theorem csrrs (rd : Reg) (csr : CsrNum) (rs1 : Reg) :
    Statement (.csrrs rd csr rs1) := lengthBits_full _ rfl (opcodeOf_encI ..) (by decide)

theorem csrrsi (rd : Reg) (csr : CsrNum) (zimm : BitVec 5) :
    Statement (.csrrsi rd csr zimm) := lengthBits_full _ rfl (opcodeOf_encI ..) (by decide)

theorem csrrw (rd : Reg) (csr : CsrNum) (rs1 : Reg) :
    Statement (.csrrw rd csr rs1) := lengthBits_full _ rfl (opcodeOf_encI ..) (by decide)

theorem csrrwi (rd : Reg) (csr : CsrNum) (zimm : BitVec 5) :
    Statement (.csrrwi rd csr zimm) := lengthBits_full _ rfl (opcodeOf_encI ..) (by decide)

theorem div (rd rs1 rs2 : Reg) :
    Statement (.div rd rs1 rs2) := lengthBits_full _ rfl (opcodeOf_encR ..) (by decide)

theorem divu (rd rs1 rs2 : Reg) :
    Statement (.divu rd rs1 rs2) := lengthBits_full _ rfl (opcodeOf_encR ..) (by decide)

theorem divuw (rd rs1 rs2 : Reg) :
    Statement (.divuw rd rs1 rs2) := lengthBits_full _ rfl (opcodeOf_encR ..) (by decide)

theorem divw (rd rs1 rs2 : Reg) :
    Statement (.divw rd rs1 rs2) := lengthBits_full _ rfl (opcodeOf_encR ..) (by decide)

theorem ebreak :
    Statement (.ebreak) := lengthBits_full _ rfl rfl (by decide)

theorem ecall :
    Statement (.ecall) := lengthBits_full _ rfl rfl (by decide)

end Sys2Proof.Laws.LengthBits
end

