-- ==== Sys2Proof/Laws/Step.lean ====
section
/-!
SUPPORT. All that an instruction can do when it answers a next state, said once: every later proof
about a step is a case analysis over `NextForm`.
-/
namespace Sys2Proof.Machine

/-- The forms of the state an instruction leaves. -/
inductive NextForm (i : Instr) (s : State) : State → Prop where
  /-- One x register written. -/
  | reg (rd : Reg) (v : BitVec s.w) (n : Nat) (hx : writesNoX i = false) (hn : n % 2 = 0) :
    NextForm i s ((s.xset rd v).advance n)
  /-- One f register written. -/
  | float (rd : Reg) (v : BitVec 64) (hf : isFloatLoad i = true) :
    NextForm i s ((s.fset rd v).advance 2)
  /-- Only `pc` written. -/
  | jump (v : BitVec s.w) (hv : s.pcNat % 2 = 0 → v.toNat % 2 = 0) : NextForm i s (s.setPc v)
  /-- The link register and `pc` written. -/
  | link (u v : BitVec s.w) (hx : writesNoX i = false) (hv : s.pcNat % 2 = 0 → v.toNat % 2 = 0) :
    NextForm i s ((s.xset ra u).setPc v)
  /-- Some bytes written by a store. -/
  | store (a : BitVec s.w) (n : Nat) (v : BitVec (8 * n)) (hn : n ≤ 8) (hi : isStore i = true)
    (ha : StoreAllowed s a.toNat n) : NextForm i s ((s.putBytes a n v).advance 2)
  /-- Some bytes and one x register written by an AMO. -/
  | amo (a : BitVec s.w) (n : Nat) (v : BitVec (8 * n)) (rd : Reg) (u : BitVec s.w) (hn : n ≤ 8)
    (hi : isAmo i = true) (hx : writesNoX i = false) (ha : AmoAllowed s a.toNat n) :
    NextForm i s (((s.putBytes a n v).xset rd u).advance 4)
  /-- One CSR and one x register written. -/
  | csr (c : CsrNum) (v : BitVec s.w) (rd : Reg) (u : BitVec s.w) (hi : isCsrInstr i = true)
    (hx : writesNoX i = false) : NextForm i s (((s.csrSet c v).xset rd u).advance 4)

theorem wrap_even {w : Nat} (hw : 0 < w) {z : Int} (h : z % 2 = 0) : wrap w z % 2 = 0 := by
  have h1 : ((wrap w z : Nat) : Int) = z % (2 ^ w : Int) := by
    rw [wrap, Int.toNat_of_nonneg (Int.emod_nonneg _ (by positivity))]
  have h2 : (2 : Int) ∣ (2 ^ w : Int) := dvd_pow_self 2 (by omega)
  have h3 := Int.emod_emod_of_dvd z h2
  omega

/-- A target an even distance from an even `pc` is even. -/
theorem pc_add_even (s : State) {v : Nat} (k : Nat) (o : BitVec v)
    (h : s.pcNat % 2 = 0) :
    (s.pcv + (o ++ 0#(k + 1)).signExtend s.w).toNat % 2 = 0 := by
  rw [eq_ofInt_toNat s.pcv, signExtend_eq_ofInt, ← BitVec.ofInt_add, toNat_ofInt_eq_wrap]
  refine wrap_even s.w_pos ?_
  rw [toInt_append_zeros, pow_succ, ← mul_assoc]
  have : ((s.pcv.toNat : Nat) : Int) % 2 = 0 := by
    have h' : s.pcv.toNat % 2 = 0 := h
    omega
  omega

theorem pc_add_ofNat_even (s : State) {n : Nat} (hn : n % 2 = 0) (h : s.pcNat % 2 = 0) :
    (s.pcv + BitVec.ofNat s.w n).toNat % 2 = 0 := by
  rw [byteAddr_toNat, Nat.mod_mod_of_dvd _ (dvd_pow_self 2 s.w_pos.ne')]
  have h' : s.pcv.toNat % 2 = 0 := h
  omega

theorem evenTarget_even {w : Nat} (v : BitVec w) : (evenTarget v).toNat % 2 = 0 := by
  have h : (evenTarget v).getLsbD 0 = false := by
    unfold evenTarget
    by_cases hw : 0 < w
    · simp [hw]
    · exact BitVec.getLsbD_of_ge _ _ (by omega)
  simpa [BitVec.getLsbD, Nat.testBit_zero] using h

theorem branch_nextForm (i : Instr) (s t : State) (c : Bool) (off : BitVec s.w) (n : Nat)
    (hn : n % 2 = 0) (ho : s.pcNat % 2 = 0 → (s.pcv + off).toNat % 2 = 0)
    (h : branch s c off n = .next t) : NextForm i s t := by
  cases h
  refine .jump _ fun he => ?_
  split
  · exact ho he
  · exact pc_add_ofNat_even s hn he

theorem loadThen_nextForm_x (i : Instr) (s t : State) (a : BitVec s.w) (n : Nat) (rd : Reg)
    (f : BitVec (8 * n) → BitVec s.w) (hx : writesNoX i = false)
    (h : loadThen s a n (fun v => (s.xset rd (f v)).advance 2) = .next t) : NextForm i s t := by
  obtain ⟨-, rfl⟩ := (loadThen_eq_next ..).mp h
  exact .reg _ _ _ hx rfl

theorem loadThen_nextForm_f (i : Instr) (s t : State) (a : BitVec s.w) (n : Nat) (rd : Reg)
    (f : BitVec (8 * n) → BitVec 64) (hf : isFloatLoad i = true)
    (h : loadThen s a n (fun v => (s.fset rd (f v)).advance 2) = .next t) : NextForm i s t := by
  obtain ⟨-, rfl⟩ := (loadThen_eq_next ..).mp h
  exact .float _ _ hf

theorem storeThen_nextForm (i : Instr) (s t : State) (a : BitVec s.w) (n : Nat)
    (v : BitVec (8 * n)) (hn : n ≤ 8) (hi : isStore i = true)
    (h : storeThen s a n v 2 = .next t) : NextForm i s t := by
  obtain ⟨ha, rfl⟩ := (storeThen_eq_next ..).mp h
  exact .store _ _ _ hn hi ha

theorem amo_nextForm (i : Instr) (n : Nat) (op : BitVec (8 * n) → BitVec (8 * n) → BitVec (8 * n))
    (rd rs2 rs1 : Reg) (s t : State) (hn : n ≤ 8) (hi : isAmo i = true) (hx : writesNoX i = false)
    (h : amo n op rd rs2 rs1 s = .next t) : NextForm i s t := by
  obtain ⟨ha, rfl⟩ := (amo_eq_next ..).mp h
  exact .amo _ _ _ _ _ hn hi hx ha

theorem csrOp_nextForm (i : Instr) (s t : State) (rd : Reg) (c : CsrNum)
    (new : BitVec s.w → BitVec s.w) (hi : isCsrInstr i = true) (hx : writesNoX i = false)
    (h : csrOp s i rd c new = .next t) : NextForm i s t := by
  obtain ⟨-, rfl⟩ := (csrOp_eq_next ..).mp h
  exact .csr _ _ _ _ hi hx

/-- What an instruction can do, guards included. -/
theorem exec_nextForm (i : Instr) (s t : State) (h : exec i s = .next t) : NextForm i s t := by
  cases i with
  | add | addi | addiw | addw | and | andi | auipc | cAdd | cAddi | cAddi16sp | cAddi4spn | cAddiw
  | cAnd | cAddw | cAndi | cLi | cLui | cMv | cOr | cSlli | cSrai | cSrli | cSub | cSubw | cXor
  | div | divu | divuw | divw =>
    cases h
    exact .reg _ _ _ rfl rfl
  | amoaddD | amoaddW | amoandD | amoandW | amomaxD | amomaxW | amomaxuD | amomaxuW | amominD
  | amominW | amominuD | amominuW | amoorD | amoorW | amoswapD | amoswapW | amoxorD | amoxorW =>
    exact amo_nextForm _ _ _ _ _ _ _ _ (by norm_num) rfl rfl h
  | beq | bge | bgeu | blt | bltu | bne =>
    exact branch_nextForm _ s t _ _ 4 rfl (pc_add_even s 0 _) h
  | cBeqz | cBnez => exact branch_nextForm _ s t _ _ 2 rfl (pc_add_even s 0 _) h
  | cJ =>
    cases h
    exact .jump _ (pc_add_even s 0 _)
  | cJr =>
    cases h
    exact .jump _ fun _ => evenTarget_even _
  | cJal =>
    cases h
    exact .link _ _ rfl (pc_add_even s 0 _)
  | cJalr =>
    cases h
    exact .link _ _ rfl fun _ => evenTarget_even _
  | cFld | cFldsp => exact loadThen_nextForm_f _ s t _ 8 _ (fun v => v) rfl h
  | cFlw | cFlwsp => exact loadThen_nextForm_f _ s t _ 4 _ (nanBox s.cfg) rfl h
  | cLd | cLdsp => exact loadThen_nextForm_x _ s t _ 8 _ (fun v => v.signExtend s.w) rfl h
  | cLw | cLwsp => exact loadThen_nextForm_x _ s t _ 4 _ (fun v => v.signExtend s.w) rfl h
  | cFsd | cFsdsp | cSd | cSdsp => exact storeThen_nextForm _ s t _ 8 _ (by norm_num) rfl h
  | cFsw | cFswsp | cSw | cSwsp => exact storeThen_nextForm _ s t _ 4 _ (by norm_num) rfl h
  | csrrc | csrrci | csrrs | csrrsi | csrrw | csrrwi =>
    simp only [exec, execCsrrc, execCsrrci, execCsrrs, execCsrrsi, execCsrrw, execCsrrwi] at h
    exact csrOp_nextForm _ s t _ _ _ rfl rfl h
  | ebreak | ecall | cEbreak => cases h

/-- What a step can do when it answers a next state: it ran one instruction. -/
theorem step_eq_next {s t : State} (h : step s = .next t) :
    ∃ c i, fetch s = .code c ∧ decode s.cfg c = .instr i ∧ exec i s = .next t := by
  unfold step at h
  split at h
  · cases h
  · rename_i c hc
    unfold runDecoded at h
    split at h
    · rename_i i hi
      exact ⟨c, i, hc, hi, h⟩
    · cases h
    · cases h

/-! ## What an instruction can trap with -/

/-- The traps of an instruction, with their `tval` (`60_exceptions.md` R330). -/
inductive TrapForm (i : Instr) (s : State) : Exception → Option (BitVec 64) → Prop where
  /-- A load's. -/
  | load (e : Exception) (a : Nat) (he : e = .loadAddressMisaligned ∨ e = .loadAccessFault)
    (hs : isStore i = false) (ha : isAmo i = false) (hd : dataAddress s i = some a) :
    TrapForm i s e (some (BitVec.ofNat 64 a))
  /-- A store's or an AMO's. -/
  | store (e : Exception) (a : Nat) (he : e = .storeAddressMisaligned ∨ e = .storeAccessFault)
    (hs : isStore i = true ∨ isAmo i = true) (hd : dataAddress s i = some a) :
    TrapForm i s e (some (BitVec.ofNat 64 a))
  /-- A CSR instruction's, on an absent CSR. -/
  | csr (hc : isCsrInstr i = true) : TrapForm i s .illegalInstruction (some (encode i).zext)
  | breakpoint : TrapForm i s .breakpoint none
  | environmentCall : TrapForm i s .environmentCall none

theorem loadCheck_eq_some {s : State} {a : BitVec s.w} {n : Nat} {e : Exception}
    (h : loadCheck s a n = some e) : e = .loadAddressMisaligned ∨ e = .loadAccessFault := by
  unfold loadCheck at h
  split at h
  · cases h
    exact .inl rfl
  · split at h
    · cases h
    · cases h
      exact .inr rfl

theorem storeCheck_eq_some {s : State} {a : BitVec s.w} {n : Nat} {e : Exception}
    (h : storeCheck s a n = some e) : e = .storeAddressMisaligned ∨ e = .storeAccessFault := by
  unfold storeCheck at h
  split at h
  · cases h
    exact .inl rfl
  · split at h
    · cases h
    · cases h
      exact .inr rfl

theorem amoCheck_eq_some {s : State} {a : BitVec s.w} {n : Nat} {e : Exception}
    (h : amoCheck s a n = some e) : e = .storeAddressMisaligned ∨ e = .storeAccessFault := by
  unfold amoCheck at h
  split at h
  · cases h
    exact .inl rfl
  · split at h
    · cases h
    · cases h
      exact .inr rfl

/-- A load that traps. -/
theorem loadThen_eq_fault {s : State} {a : BitVec s.w} {n : Nat} {k : BitVec (8 * n) → State}
    {f : Fault} (h : loadThen s a n k = .fault f) :
    ∃ e, (e = .loadAddressMisaligned ∨ e = .loadAccessFault) ∧
      f = .trap e (s.pcv.setWidth 64) (some (BitVec.ofNat 64 a.toNat)) := by
  unfold loadThen at h
  split at h
  · rename_i e he
    cases h
    exact ⟨e, loadCheck_eq_some he, by rw [BitVec.ofNat_toNat]⟩
  · cases h

/-- A store that traps. -/
theorem storeThen_eq_fault {s : State} {a : BitVec s.w} {n : Nat} {v : BitVec (8 * n)} {m : Nat}
    {f : Fault} (h : storeThen s a n v m = .fault f) :
    ∃ e, (e = .storeAddressMisaligned ∨ e = .storeAccessFault) ∧
      f = .trap e (s.pcv.setWidth 64) (some (BitVec.ofNat 64 a.toNat)) := by
  unfold storeThen at h
  split at h
  · rename_i e he
    cases h
    exact ⟨e, storeCheck_eq_some he, by rw [BitVec.ofNat_toNat]⟩
  · split at h <;> cases h

/-- An AMO that traps. -/
theorem amo_eq_fault {n : Nat} {op : BitVec (8 * n) → BitVec (8 * n) → BitVec (8 * n)}
    {rd rs2 rs1 : Reg} {s : State} {f : Fault} (h : amo n op rd rs2 rs1 s = .fault f) :
    ∃ e, (e = .storeAddressMisaligned ∨ e = .storeAccessFault) ∧
      f = .trap e (s.pcv.setWidth 64) (some (BitVec.ofNat 64 (s.xval rs1))) := by
  unfold amo at h
  split at h
  · rename_i e he
    cases h
    exact ⟨e, amoCheck_eq_some he, by rw [State.xval, BitVec.ofNat_toNat]⟩
  · split at h <;> cases h

/-- A CSR instruction that traps. -/
theorem csrOp_eq_fault {s : State} {i : Instr} {rd : Reg} {c : CsrNum}
    {new : BitVec s.w → BitVec s.w} {f : Fault} (h : csrOp s i rd c new = .fault f) :
    f = .trap .illegalInstruction (s.pcv.setWidth 64) (some (encode i).zext) := by
  unfold csrOp at h
  split at h <;> cases h
  rfl

/-- Every trap of an instruction, said once. -/
theorem exec_trapForm (i : Instr) (s : State) (f : Fault) (h : exec i s = .fault f) :
    ∃ e tval, f = .trap e (s.pcv.setWidth 64) tval ∧ TrapForm i s e tval := by
  cases i with
  | add | addi | addiw | addw | and | andi | auipc | cAdd | cAddi | cAddi16sp | cAddi4spn | cAddiw
  | cAnd | cAddw | cAndi | cLi | cLui | cMv | cOr | cSlli | cSrai | cSrli | cSub | cSubw | cXor
  | div | divu | divuw | divw | beq | bge | bgeu | blt | bltu | bne | cBeqz | cBnez | cJ | cJr
  | cJal | cJalr => cases h
  | amoaddD | amoaddW | amoandD | amoandW | amomaxD | amomaxW | amomaxuD | amomaxuW | amominD
  | amominW | amominuD | amominuW | amoorD | amoorW | amoswapD | amoswapW | amoxorD | amoxorW =>
    obtain ⟨e, he, rfl⟩ := amo_eq_fault h
    refine ⟨_, _, rfl, .store e _ he (.inr rfl) ?_⟩
    rfl
  | cFld | cFldsp | cLd | cLdsp =>
    simp only [exec, execCFld, execCFldsp, execCLd, execCLdsp] at h
    obtain ⟨e, he, rfl⟩ := loadThen_eq_fault h
    refine ⟨_, _, rfl, .load e _ he rfl rfl ?_⟩
    rfl
  | cFlw | cFlwsp | cLw | cLwsp =>
    simp only [exec, execCFlw, execCFlwsp, execCLw, execCLwsp] at h
    obtain ⟨e, he, rfl⟩ := loadThen_eq_fault h
    refine ⟨_, _, rfl, .load e _ he rfl rfl ?_⟩
    rfl
  | cFsd | cFsdsp | cSd | cSdsp =>
    simp only [exec, execCFsd, execCFsdsp, execCSd, execCSdsp] at h
    obtain ⟨e, he, rfl⟩ := storeThen_eq_fault h
    refine ⟨_, _, rfl, .store e _ he (.inl rfl) ?_⟩
    rfl
  | cFsw | cFswsp | cSw | cSwsp =>
    simp only [exec, execCFsw, execCFswsp, execCSw, execCSwsp] at h
    obtain ⟨e, he, rfl⟩ := storeThen_eq_fault h
    refine ⟨_, _, rfl, .store e _ he (.inl rfl) ?_⟩
    rfl
  | csrrc | csrrci | csrrs | csrrsi | csrrw | csrrwi =>
    simp only [exec, execCsrrc, execCsrrci, execCsrrs, execCsrrsi, execCsrrw, execCsrrwi] at h
    cases csrOp_eq_fault h
    exact ⟨_, _, rfl, .csr rfl⟩
  | ebreak | cEbreak =>
    cases h
    exact ⟨_, _, rfl, .breakpoint⟩
  | ecall =>
    cases h
    exact ⟨_, _, rfl, .environmentCall⟩

/-- What a step can trap with: the fetch, an illegal word, or the instruction. -/
theorem step_eq_fault {s : State} {f : Fault} (h : step s = .fault f) :
    (∃ e, fetch s = .failed e ∧
      f = .trap e (s.pcv.setWidth 64) (some (s.pcv.setWidth 64))) ∨
    (∃ c, fetch s = .code c ∧ decode s.cfg c = .illegal ∧
      f = .trap .illegalInstruction (s.pcv.setWidth 64) (some c.zext)) ∨
    ∃ c i, fetch s = .code c ∧ decode s.cfg c = .instr i ∧ exec i s = .fault f := by
  unfold step at h
  split at h
  · rename_i e he
    cases h
    exact .inl ⟨e, he, rfl⟩
  · rename_i c hc
    unfold runDecoded at h
    split at h
    · rename_i i hi
      exact .inr (.inr ⟨c, i, hc, hi, h⟩)
    · rename_i hi
      cases h
      exact .inr (.inl ⟨c, hc, hi, rfl⟩)
    · cases h

end Sys2Proof.Machine
end

