-- ==== Sys2Proof/Tests/Slice0.lean ====
section
/-!
SUPPORT. Tests: each check of `WellFormed` refuses an ill-formed term; for every constructor a word
of the spec decodes to the instruction it stands for; one or two single steps per instruction; for
every obligation with hypotheses a state that meets them. Words, start states and expected results
are rows of `95_test_vectors.md` section 2, which derives them from the rules.
-/
namespace Sys2Proof.Tests
open Sys2Proof Sys2Proof.Machine

/-! ## The machine of `95_test_vectors.md` section 2.0 -/

/-- Code at 0x1000, data at 0x2000, a read-only page at 0x4000, a page with all permissions at
0x5000; 0x340 a plain CSR, 0x342 one of kind `other`. -/
def conf (x : Xlen) : Config :=
  { launchConfig with
    xlen := x
    memMap :=
      [{ base := 0x1000, size := 0x100, readable := true, writable := false, executable := true },
       { base := 0x2000, size := 0x1000, readable := true, writable := true, executable := false },
       { base := 0x4000, size := 0x100, readable := true, writable := false, executable := false },
       { base := 0x5000, size := 0x100, readable := true, writable := true, executable := true }]
    csrKinds := [(0x340, .plain), (0x342, .other)] }

/-- A launch with one instruction at `pc`. -/
def start (cfg : Config) (c : Code) : State :=
  (State.launch cfg).loadBytes (State.launch cfg).pcv c.bytes

def putX (r : Reg) (v : Nat) (s : State) : State := s.xset r (BitVec.ofNat s.w v)
def putF (r : Reg) (v : Nat) (s : State) : State := s.fset r (BitVec.ofNat 64 v)
def putC (c : CsrNum) (v : Nat) (s : State) : State := s.csrSet c (BitVec.ofNat s.w v)
def putM (a n v : Nat) (s : State) : State :=
  s.putBytes (BitVec.ofNat s.w a) n (BitVec.ofNat (8 * n) v)
def putPc (a : Nat) (s : State) : State := s.setPc (BitVec.ofNat s.w a)

/-- What can be seen of a next state. -/
def seen {β : Type} (o : Out) (f : State → β) : Option β :=
  match o with
  | .next t => some (f t)
  | .fault _ => none
  | .refused _ => none

def trapOf (o : Out) : Option (Exception × BitVec 64 × Option (BitVec 64)) :=
  match o with
  | .next _ => none
  | .fault (.trap e epc tval) => some (e, epc, tval)
  | .refused _ => none

def refusalOf (o : Out) : Option Refusal :=
  match o with
  | .next _ => none
  | .fault _ => none
  | .refused r => some r

theorem next_of_seen {β : Type} {o : Out} {f : State → β} {v : β} (h : seen o f = some v) :
    ∃ t, o = .next t ∧ f t = v := by
  match o, h with
  | .next t, h => exact ⟨t, rfl, Option.some.inj h⟩

theorem fault_of_trapOf {o : Out} {e : Exception} {epc : BitVec 64} {tval : Option (BitVec 64)}
    (h : trapOf o = some (e, epc, tval)) : o = .fault (.trap e epc tval) := by
  match o, h with
  | .fault (.trap e' epc' tval'), h =>
    cases h
    rfl

/-! ## WellFormed refuses -/

theorem wf_addiw_needs_rv64 : (Instr.addiw 5 6 1).wellFormed (conf .rv32) = false := by decide
theorem wf_amoaddW_needs_A :
    (Instr.amoaddW 0 0 5 6 7).wellFormed { conf .rv32 with hasA := false } = false := by decide
theorem wf_amoaddD_needs_rv64 :
    (Instr.amoaddD 0 0 5 6 7).wellFormed (conf .rv32) = false := by decide
theorem wf_amoaddD_needs_A :
    (Instr.amoaddD 0 0 5 6 7).wellFormed { conf .rv64 with hasA := false } = false := by decide
theorem wf_cMv_needs_C :
    (Instr.cMv 5 6).wellFormed { conf .rv64 with hasC := false } = false := by decide
theorem wf_cAddw_needs_rv64 : (Instr.cAddw 0 1).wellFormed (conf .rv32) = false := by decide
theorem wf_cAddw_needs_C :
    (Instr.cAddw 0 1).wellFormed { conf .rv64 with hasC := false } = false := by decide
theorem wf_cFld_needs_D :
    (Instr.cFld 1 1 0).wellFormed { conf .rv64 with hasD := false } = false := by decide
theorem wf_cFld_needs_C :
    (Instr.cFld 1 1 0).wellFormed { conf .rv64 with hasC := false } = false := by decide
theorem wf_cFlw_needs_rv32 : (Instr.cFlw 1 1 0).wellFormed (conf .rv64) = false := by decide
theorem wf_cFlw_needs_F :
    (Instr.cFlw 1 1 0).wellFormed { conf .rv32 with hasF := false } = false := by decide
theorem wf_cFlw_needs_C :
    (Instr.cFlw 1 1 0).wellFormed { conf .rv32 with hasC := false } = false := by decide
theorem wf_cJal_needs_rv32 : (Instr.cJal 0).wellFormed (conf .rv64) = false := by decide
theorem wf_cJal_needs_C :
    (Instr.cJal 0).wellFormed { conf .rv32 with hasC := false } = false := by decide
theorem wf_div_needs_M :
    (Instr.div 5 6 7).wellFormed { conf .rv32 with hasM := false } = false := by decide
theorem wf_divw_needs_rv64 : (Instr.divw 5 6 7).wellFormed (conf .rv32) = false := by decide
theorem wf_divw_needs_M :
    (Instr.divw 5 6 7).wellFormed { conf .rv64 with hasM := false } = false := by decide
theorem wf_cAdd_rd : (Instr.cAdd 0 6).wellFormed (conf .rv64) = false := by decide
theorem wf_cAdd_rs2 : (Instr.cAdd 5 0).wellFormed (conf .rv64) = false := by decide
theorem wf_cAddi16sp_imm : (Instr.cAddi16sp 0).wellFormed (conf .rv64) = false := by decide
theorem wf_cAddi4spn_uimm : (Instr.cAddi4spn 0 0).wellFormed (conf .rv64) = false := by decide
theorem wf_cAddiw_rd : (Instr.cAddiw 0 1).wellFormed (conf .rv64) = false := by decide
theorem wf_cJalr_rs1 : (Instr.cJalr 0).wellFormed (conf .rv64) = false := by decide
theorem wf_cJr_rs1 : (Instr.cJr 0).wellFormed (conf .rv64) = false := by decide
theorem wf_cLdsp_rd : (Instr.cLdsp 0 0).wellFormed (conf .rv64) = false := by decide
theorem wf_cLui_rd : (Instr.cLui 2 1).wellFormed (conf .rv64) = false := by decide
theorem wf_cLui_imm : (Instr.cLui 5 0).wellFormed (conf .rv64) = false := by decide
theorem wf_cLwsp_rd : (Instr.cLwsp 0 0).wellFormed (conf .rv64) = false := by decide
theorem wf_cMv_rs2 : (Instr.cMv 5 0).wellFormed (conf .rv64) = false := by decide
theorem wf_cSlli_uimm : (Instr.cSlli 5 32).wellFormed (conf .rv32) = false := by decide
theorem wf_cSrai_uimm : (Instr.cSrai 0 32).wellFormed (conf .rv32) = false := by decide
theorem wf_cSrli_uimm : (Instr.cSrli 0 63).wellFormed (conf .rv32) = false := by decide

/-! ## Decoding: one word per constructor -/

/-- `add x5, x6, x7` (95 section 2). -/
theorem decode_add : decode (conf .rv32) (.full 0x007302B3) = .instr (.add 5 6 7) := by decide
/-- `addi x5, x6, -1` (95 section 2). -/
theorem decode_addi : decode (conf .rv32) (.full 0xFFF30293) = .instr (.addi 5 6 0xFFF) := by decide
/-- `addiw x5, x6, -1` (95 section 2). -/
theorem decode_addiw : decode (conf .rv64) (.full 0xFFF3029B) = .instr (.addiw 5 6 0xFFF) := by decide
/-- `addw x5, x6, x7` (95 section 2). -/
theorem decode_addw : decode (conf .rv64) (.full 0x007302BB) = .instr (.addw 5 6 7) := by decide
/-- `amoadd.d x5, x6, (x7)` (95 section 2). -/
theorem decode_amoaddD : decode (conf .rv64) (.full 0x0063B2AF) = .instr (.amoaddD 0 0 5 6 7) := by decide
/-- `amoadd.w x5, x6, (x7)` (95 section 2). -/
theorem decode_amoaddW : decode (conf .rv32) (.full 0x0663A2AF) = .instr (.amoaddW 1 1 5 6 7) := by decide
/-- `amoand.d x5, x6, (x7)` (95 section 2). -/
theorem decode_amoandD : decode (conf .rv64) (.full 0x6063B2AF) = .instr (.amoandD 0 0 5 6 7) := by decide
/-- `amoand.w x5, x6, (x7)` (95 section 2). -/
theorem decode_amoandW : decode (conf .rv32) (.full 0x6063A2AF) = .instr (.amoandW 0 0 5 6 7) := by decide
/-- `amomax.d x5, x6, (x7)` (95 section 2). -/
theorem decode_amomaxD : decode (conf .rv64) (.full 0xA063B2AF) = .instr (.amomaxD 0 0 5 6 7) := by decide
/-- `amomax.w x5, x6, (x7)` (95 section 2). -/
theorem decode_amomaxW : decode (conf .rv32) (.full 0xA063A2AF) = .instr (.amomaxW 0 0 5 6 7) := by decide
/-- `amomaxu.d x5, x6, (x7)` (95 section 2). -/
theorem decode_amomaxuD : decode (conf .rv64) (.full 0xE063B2AF) = .instr (.amomaxuD 0 0 5 6 7) := by decide
/-- `amomaxu.w x5, x6, (x7)` (95 section 2). -/
theorem decode_amomaxuW : decode (conf .rv32) (.full 0xE063A2AF) = .instr (.amomaxuW 0 0 5 6 7) := by decide
/-- `amomin.d x5, x6, (x7)` (95 section 2). -/
theorem decode_amominD : decode (conf .rv64) (.full 0x8063B2AF) = .instr (.amominD 0 0 5 6 7) := by decide
/-- `amomin.w x5, x6, (x7)` (95 section 2). -/
theorem decode_amominW : decode (conf .rv32) (.full 0x8063A2AF) = .instr (.amominW 0 0 5 6 7) := by decide
/-- `amominu.d x5, x6, (x7)` (95 section 2). -/
theorem decode_amominuD : decode (conf .rv64) (.full 0xC063B2AF) = .instr (.amominuD 0 0 5 6 7) := by decide
/-- `amominu.w x5, x6, (x7)` (95 section 2). -/
theorem decode_amominuW : decode (conf .rv32) (.full 0xC063A2AF) = .instr (.amominuW 0 0 5 6 7) := by decide
/-- `amoor.d x5, x6, (x7)` (95 section 2). -/
theorem decode_amoorD : decode (conf .rv64) (.full 0x4063B2AF) = .instr (.amoorD 0 0 5 6 7) := by decide
/-- `amoor.w x5, x6, (x7)` (95 section 2). -/
theorem decode_amoorW : decode (conf .rv32) (.full 0x4063A2AF) = .instr (.amoorW 0 0 5 6 7) := by decide
/-- `amoswap.d x5, x6, (x7)` (95 section 2). -/
theorem decode_amoswapD : decode (conf .rv64) (.full 0x0863B2AF) = .instr (.amoswapD 0 0 5 6 7) := by decide
/-- `amoswap.w x5, x7, (x7)` (95 section 2). -/
theorem decode_amoswapW : decode (conf .rv32) (.full 0x0873A2AF) = .instr (.amoswapW 0 0 5 7 7) := by decide
/-- `amoxor.d x5, x6, (x7)` (95 section 2). -/
theorem decode_amoxorD : decode (conf .rv64) (.full 0x2063B2AF) = .instr (.amoxorD 0 0 5 6 7) := by decide
/-- `amoxor.w x5, x6, (x7)` (95 section 2). -/
theorem decode_amoxorW : decode (conf .rv32) (.full 0x2063A2AF) = .instr (.amoxorW 0 0 5 6 7) := by decide
/-- `and x5, x6, x7` (95 section 2). -/
theorem decode_and : decode (conf .rv32) (.full 0x007372B3) = .instr (.and 5 6 7) := by decide
/-- `andi x5, x6, -16` (95 section 2). -/
theorem decode_andi : decode (conf .rv32) (.full 0xFF037293) = .instr (.andi 5 6 0xFF0) := by decide
/-- `auipc x5, 0xFFFFF` (95 section 2). -/
theorem decode_auipc : decode (conf .rv32) (.full 0xFFFFF297) = .instr (.auipc 5 0xFFFFF) := by decide
/-- `beq x6, x7, -2` (95 section 2). -/
theorem decode_beq : decode (conf .rv32) (.full 0xFE730FE3) = .instr (.beq 6 7 0xFFF) := by decide
/-- `bge x6, x7, 16` (95 section 2). -/
theorem decode_bge : decode (conf .rv32) (.full 0x00735863) = .instr (.bge 6 7 0x8) := by decide
/-- `bgeu x6, x7, 16` (95 section 2). -/
theorem decode_bgeu : decode (conf .rv32) (.full 0x00737863) = .instr (.bgeu 6 7 0x8) := by decide
/-- `blt x6, x7, 16` (95 section 2). -/
theorem decode_blt : decode (conf .rv32) (.full 0x00734863) = .instr (.blt 6 7 0x8) := by decide
/-- `bltu x6, x7, 16` (95 section 2). -/
theorem decode_bltu : decode (conf .rv32) (.full 0x00736863) = .instr (.bltu 6 7 0x8) := by decide
/-- `bne x6, x7, 16` (95 section 2). -/
theorem decode_bne : decode (conf .rv32) (.full 0x00731863) = .instr (.bne 6 7 0x8) := by decide
/-- `c.add x5, x6` (95 section 2). -/
theorem decode_cAdd : decode (conf .rv32) (.half 0x929A) = .instr (.cAdd 5 6) := by decide
/-- `c.addi x5, -1` (95 section 2). -/
theorem decode_cAddi : decode (conf .rv32) (.half 0x12FD) = .instr (.cAddi 5 0x3F) := by decide
/-- `c.addi16sp 496` (95 section 2). -/
theorem decode_cAddi16sp : decode (conf .rv32) (.half 0x617D) = .instr (.cAddi16sp 0x1F) := by decide
/-- `c.addi4spn x15, 1020` (95 section 2). -/
theorem decode_cAddi4spn : decode (conf .rv32) (.half 0x1FFC) = .instr (.cAddi4spn 7 0xFF) := by decide
/-- `c.addiw x5, -1` (95 section 2). -/
theorem decode_cAddiw : decode (conf .rv64) (.half 0x32FD) = .instr (.cAddiw 5 0x3F) := by decide
/-- `c.and x15, x15` (95 section 2). -/
theorem decode_cAnd : decode (conf .rv32) (.half 0x8FFD) = .instr (.cAnd 7 7) := by decide
/-- `c.addw x8, x9` (95 section 2). -/
theorem decode_cAddw : decode (conf .rv64) (.half 0x9C25) = .instr (.cAddw 0 1) := by decide
/-- `c.andi x8, -1` (95 section 2). -/
theorem decode_cAndi : decode (conf .rv64) (.half 0x987D) = .instr (.cAndi 0 0x3F) := by decide
/-- `c.beqz x8, 254` (95 section 2). -/
theorem decode_cBeqz : decode (conf .rv32) (.half 0xCC7D) = .instr (.cBeqz 0 0x7F) := by decide
/-- `c.bnez x8, -2` (95 section 2). -/
theorem decode_cBnez : decode (conf .rv32) (.half 0xFC7D) = .instr (.cBnez 0 0xFF) := by decide
/-- `c.ebreak` (95 section 2). -/
theorem decode_cEbreak : decode (conf .rv32) (.half 0x9002) = .instr (.cEbreak) := by decide
/-- `c.fld f9, 8(x8)` (95 section 2). -/
theorem decode_cFld : decode (conf .rv32) (.half 0x2404) = .instr (.cFld 1 0x1 0) := by decide
/-- `c.fldsp f1, 16(x2)` (95 section 2). -/
theorem decode_cFldsp : decode (conf .rv32) (.half 0x20C2) = .instr (.cFldsp 1 0x2) := by decide
/-- `c.flw f9, 4(x8)` (95 section 2). -/
theorem decode_cFlw : decode (conf .rv32) (.half 0x6044) = .instr (.cFlw 1 0x1 0) := by decide
/-- `c.flwsp f0, 8(x2)` (95 section 2). -/
theorem decode_cFlwsp : decode (conf .rv32) (.half 0x6022) = .instr (.cFlwsp 0 0x2) := by decide
/-- `c.fsd f9, 8(x8)` (95 section 2). -/
theorem decode_cFsd : decode (conf .rv32) (.half 0xA404) = .instr (.cFsd 1 0x1 0) := by decide
/-- `c.fsdsp f31, 504(x2)` (95 section 2). -/
theorem decode_cFsdsp : decode (conf .rv64) (.half 0xBFFE) = .instr (.cFsdsp 31 0x3F) := by decide
/-- `c.fsw f9, 4(x8)` (95 section 2). -/
theorem decode_cFsw : decode (conf .rv32) (.half 0xE044) = .instr (.cFsw 1 0x1 0) := by decide
/-- `c.fswsp f31, 12(x2)` (95 section 2). -/
theorem decode_cFswsp : decode (conf .rv32) (.half 0xE67E) = .instr (.cFswsp 31 0x3) := by decide
/-- `c.j -2` (95 section 2). -/
theorem decode_cJ : decode (conf .rv64) (.half 0xBFFD) = .instr (.cJ 0x7FF) := by decide
/-- `c.jal 2046` (95 section 2). -/
theorem decode_cJal : decode (conf .rv32) (.half 0x2FFD) = .instr (.cJal 0x3FF) := by decide
/-- `c.jalr x5` (95 section 2). -/
theorem decode_cJalr : decode (conf .rv32) (.half 0x9282) = .instr (.cJalr 5) := by decide
/-- `c.jr x5` (95 section 2). -/
theorem decode_cJr : decode (conf .rv32) (.half 0x8282) = .instr (.cJr 5) := by decide
/-- `c.ld x9, 248(x8)` (95 section 2). -/
theorem decode_cLd : decode (conf .rv64) (.half 0x7C64) = .instr (.cLd 1 0x1F 0) := by decide
/-- `c.ldsp x5, 504(x2)` (95 section 2). -/
theorem decode_cLdsp : decode (conf .rv64) (.half 0x72FE) = .instr (.cLdsp 5 0x3F) := by decide
/-- `c.li x5, -1` (95 section 2). -/
theorem decode_cLi : decode (conf .rv64) (.half 0x52FD) = .instr (.cLi 5 0x3F) := by decide
/-- `c.lui x5, -0x1000` (95 section 2). -/
theorem decode_cLui : decode (conf .rv64) (.half 0x72FD) = .instr (.cLui 5 0x3F) := by decide
/-- `c.lw x8, 124(x8)` (95 section 2). -/
theorem decode_cLw : decode (conf .rv32) (.half 0x5C60) = .instr (.cLw 0 0x1F 0) := by decide
/-- `c.lwsp x5, 252(x2)` (95 section 2). -/
theorem decode_cLwsp : decode (conf .rv32) (.half 0x52FE) = .instr (.cLwsp 5 0x3F) := by decide
/-- `c.mv x5, x6` (95 section 2). -/
theorem decode_cMv : decode (conf .rv32) (.half 0x829A) = .instr (.cMv 5 6) := by decide
/-- `c.or x8, x9` (95 section 2). -/
theorem decode_cOr : decode (conf .rv32) (.half 0x8C45) = .instr (.cOr 0 1) := by decide
/-- `c.sd x9, 16(x8)` (95 section 2). -/
theorem decode_cSd : decode (conf .rv64) (.half 0xE804) = .instr (.cSd 1 0x2 0) := by decide
/-- `c.sdsp x5, 504(x2)` (95 section 2). -/
theorem decode_cSdsp : decode (conf .rv64) (.half 0xFF96) = .instr (.cSdsp 5 0x3F) := by decide
/-- `c.slli x5, 63` (95 section 2). -/
theorem decode_cSlli : decode (conf .rv64) (.half 0x12FE) = .instr (.cSlli 5 0x3F) := by decide
/-- `c.srai x8, 63` (95 section 2). -/
theorem decode_cSrai : decode (conf .rv64) (.half 0x947D) = .instr (.cSrai 0 0x3F) := by decide
/-- `c.srli x8, 63` (95 section 2). -/
theorem decode_cSrli : decode (conf .rv64) (.half 0x907D) = .instr (.cSrli 0 0x3F) := by decide
/-- `c.sub x8, x9` (95 section 2). -/
theorem decode_cSub : decode (conf .rv32) (.half 0x8C05) = .instr (.cSub 0 1) := by decide
/-- `c.subw x8, x9` (95 section 2). -/
theorem decode_cSubw : decode (conf .rv64) (.half 0x9C05) = .instr (.cSubw 0 1) := by decide
/-- `c.sw x9, 8(x8)` (95 section 2). -/
theorem decode_cSw : decode (conf .rv32) (.half 0xC404) = .instr (.cSw 1 0x2 0) := by decide
/-- `c.swsp x5, 252(x2)` (95 section 2). -/
theorem decode_cSwsp : decode (conf .rv32) (.half 0xDF96) = .instr (.cSwsp 5 0x3F) := by decide
/-- `c.xor x8, x9` (95 section 2). -/
theorem decode_cXor : decode (conf .rv32) (.half 0x8C25) = .instr (.cXor 0 1) := by decide
/-- `csrrc x5, 0x340, x6` (95 section 2). -/
theorem decode_csrrc : decode (conf .rv32) (.full 0x340332F3) = .instr (.csrrc 5 0x340 6) := by decide
/-- `csrrci x5, 0x340, 31` (95 section 2). -/
theorem decode_csrrci : decode (conf .rv32) (.full 0x340FF2F3) = .instr (.csrrci 5 0x340 31) := by decide
/-- `csrrs x5, 0x340, x6` (95 section 2). -/
theorem decode_csrrs : decode (conf .rv32) (.full 0x340322F3) = .instr (.csrrs 5 0x340 6) := by decide
/-- `csrrsi x5, 0x340, 31` (95 section 2). -/
theorem decode_csrrsi : decode (conf .rv32) (.full 0x340FE2F3) = .instr (.csrrsi 5 0x340 31) := by decide
/-- `csrrw x5, 0x341, x6` (95 section 2). -/
theorem decode_csrrw : decode (conf .rv32) (.full 0x341312F3) = .instr (.csrrw 5 0x341 6) := by decide
/-- `csrrwi x5, 0x340, 21` (95 section 2). -/
theorem decode_csrrwi : decode (conf .rv32) (.full 0x340AD2F3) = .instr (.csrrwi 5 0x340 21) := by decide
/-- `div x5, x6, x7` (95 section 2). -/
theorem decode_div : decode (conf .rv32) (.full 0x027342B3) = .instr (.div 5 6 7) := by decide
/-- `divu x5, x6, x7` (95 section 2). -/
theorem decode_divu : decode (conf .rv32) (.full 0x027352B3) = .instr (.divu 5 6 7) := by decide
/-- `divuw x5, x6, x7` (95 section 2). -/
theorem decode_divuw : decode (conf .rv64) (.full 0x027352BB) = .instr (.divuw 5 6 7) := by decide
/-- `divw x5, x6, x7` (95 section 2). -/
theorem decode_divw : decode (conf .rv64) (.full 0x027342BB) = .instr (.divw 5 6 7) := by decide
/-- `ebreak` (95 section 2). -/
theorem decode_ebreak : decode (conf .rv32) (.full 0x00100073) = .instr (.ebreak) := by decide
/-- `ecall` (95 section 2). -/
theorem decode_ecall : decode (conf .rv32) (.full 0x00000073) = .instr (.ecall) := by decide

/-! Words that are no instruction: illegal (`30_encoding.md` R103), or of no row (R104). -/

theorem decode_illegal_zero : decode (conf .rv32) (.half 0x0000) = .illegal := by decide
theorem decode_illegal_cSlli : decode (conf .rv32) (.half 0x1282) = .illegal := by decide
theorem decode_refused_addiw : decode (conf .rv32) (.full 0x0013029B) = .notInExcerpt := by decide
theorem decode_refused_amo : decode (conf .rv32) (.full 0x1063A2AF) = .notInExcerpt := by decide
theorem decode_refused_ones : decode (conf .rv64) (.full 0xFFFFFFFF) = .notInExcerpt := by decide

/-! A table word is decoded at a width at which it is an instruction (log entry 22), and runs as the
first instruction after reset (log entry 21). -/

theorem table_word_addw : decodeTableWord 32 0x007302BB = some (.addw 5 6 7) := by decide
theorem table_word_cEbreak : decodeTableWord 16 0x9002 = some .cEbreak := by decide
theorem fetch_word_cLi :
    seen (step (State.reset.withFetchWord 16 0x52FD)) (fun t => (t.xval 5, t.pcNat)) =
      some (0xFFFFFFFFFFFFFFFF, 0x1002) := by decide
theorem fetch_word_cFsdsp :
    fetch (State.reset.withFetchWord 16 0xBFFE) = .code (.half 0xBFFE) := by decide

/-! ## Single steps -/

/-- `add x5, x6, x7`: x6=0xFFFFFFFF, x7=0x00000002. -/
theorem step_add :
    seen (step (start (conf .rv32) (.full 0x007302B3) |> putX 6 0xFFFFFFFF |> putX 7 0x2))
    (fun t => (t.xval 5, t.pcNat)) = some (0x1, 0x1004) := by decide
/-- `add x5, x6, x7`: x6=0x000000007FFFFFFF, x7=0x0000000000000001. -/
theorem step_add_again :
    seen (step (start (conf .rv64) (.full 0x007302B3) |> putX 6 0x7FFFFFFF |> putX 7 0x1))
    (fun t => (t.xval 5, t.pcNat)) = some (0x80000000, 0x1004) := by decide
/-- `addi x5, x6, -1`: x6=0x00000000. -/
theorem step_addi :
    seen (step (start (conf .rv32) (.full 0xFFF30293) |> putX 6 0x0))
    (fun t => (t.xval 5, t.pcNat)) = some (0xFFFFFFFF, 0x1004) := by decide
/-- `addi x5, x6, -2048`: x6=0x00000800. -/
theorem step_addi_again :
    seen (step (start (conf .rv32) (.full 0x80030293) |> putX 6 0x800))
    (fun t => (t.xval 5, t.pcNat)) = some (0x0, 0x1004) := by decide
/-- `addiw x5, x6, 0`: x6=0x1234567880000000. -/
theorem step_addiw :
    seen (step (start (conf .rv64) (.full 0x0003029B) |> putX 6 0x1234567880000000))
    (fun t => (t.xval 5, t.pcNat)) = some (0xFFFFFFFF80000000, 0x1004) := by decide
/-- `addw x5, x6, x7`: x6=0x0000000140000000, x7=0x7777777740000000. -/
theorem step_addw :
    seen (step (start (conf .rv64) (.full 0x007302BB) |> putX 6 0x140000000 |> putX 7 0x7777777740000000))
    (fun t => (t.xval 5, t.pcNat)) = some (0xFFFFFFFF80000000, 0x1004) := by decide
/-- `and x5, x6, x7`: x6=0xF0F0F0F0, x7=0xFF00FF00. -/
theorem step_and :
    seen (step (start (conf .rv32) (.full 0x007372B3) |> putX 6 0xF0F0F0F0 |> putX 7 0xFF00FF00))
    (fun t => (t.xval 5, t.pcNat)) = some (0xF000F000, 0x1004) := by decide
/-- `andi x5, x6, -16`: x6=0xFEDCBA9812345678. -/
theorem step_andi :
    seen (step (start (conf .rv64) (.full 0xFF037293) |> putX 6 0xFEDCBA9812345678))
    (fun t => (t.xval 5, t.pcNat)) = some (0xFEDCBA9812345670, 0x1004) := by decide
/-- `auipc x5, 0xFFFFF`: nothing read. -/
theorem step_auipc :
    seen (step (start (conf .rv32) (.full 0xFFFFF297)))
    (fun t => (t.xval 5, t.pcNat)) = some (0x0, 0x1004) := by decide
/-- `auipc x5, 0x80000`: nothing read. -/
theorem step_auipc_again :
    seen (step (start (conf .rv64) (.full 0x80000297)))
    (fun t => (t.xval 5, t.pcNat)) = some (0xFFFFFFFF80001000, 0x1004) := by decide
/-- `amoadd.d x5, x6, (x7)`: x6=0x0000000000000003, x7=0x0000000000002008, M[0x2008..+8]=0xFFFFFFFFFFFFFFFE. -/
theorem step_amoaddD :
    seen (step (start (conf .rv64) (.full 0x0063B2AF) |> putX 6 0x3 |> putX 7 0x2008 |> putM 0x2008 8 0xFFFFFFFFFFFFFFFE))
    (fun t => (t.xval 5, t.numAt 0x2008 8)) = some (0xFFFFFFFFFFFFFFFE, 0x1) := by decide
/-- `amoadd.w x5, x6, (x7)`: x6=0xABCDEF0000000001, x7=0x0000000000002000, M[0x2000..+4]=0x7FFFFFFF. -/
theorem step_amoaddW :
    seen (step (start (conf .rv64) (.full 0x0063A2AF) |> putX 6 0xABCDEF0000000001 |> putX 7 0x2000 |> putM 0x2000 4 0x7FFFFFFF))
    (fun t => (t.xval 5, t.numAt 0x2000 4)) = some (0x7FFFFFFF, 0x80000000) := by decide
/-- `amoadd.w x7, x6, (x7)`: x6=0x00000001, x7=0x00002000, M[0x2000..+4]=0x00000029. -/
theorem step_amoaddW_again :
    seen (step (start (conf .rv32) (.full 0x0063A3AF) |> putX 6 0x1 |> putX 7 0x2000 |> putM 0x2000 4 0x29))
    (fun t => (t.xval 7, t.numAt 0x2000 4)) = some (0x29, 0x2A) := by decide
/-- `amoand.d x5, x6, (x7)`: x6=0x00000000FFFFFFFF, x7=0x0000000000002008, M[0x2008..+8]=0xF0F0F0F0F0F0F0F0. -/
theorem step_amoandD :
    seen (step (start (conf .rv64) (.full 0x6063B2AF) |> putX 6 0xFFFFFFFF |> putX 7 0x2008 |> putM 0x2008 8 0xF0F0F0F0F0F0F0F0))
    (fun t => (t.xval 5, t.numAt 0x2008 8)) = some (0xF0F0F0F0F0F0F0F0, 0xF0F0F0F0) := by decide
/-- `amoand.w x5, x6, (x7)`: x6=0xFF00FF00, x7=0x00002000, M[0x2000..+4]=0xF0F0F0F0. -/
theorem step_amoandW :
    seen (step (start (conf .rv32) (.full 0x6063A2AF) |> putX 6 0xFF00FF00 |> putX 7 0x2000 |> putM 0x2000 4 0xF0F0F0F0))
    (fun t => (t.xval 5, t.numAt 0x2000 4)) = some (0xF0F0F0F0, 0xF000F000) := by decide
/-- `amoor.d x5, x6, (x7)`: x6=0x0000000000000001, x7=0x0000000000002008, M[0x2008..+8]=0x8000000000000000. -/
theorem step_amoorD :
    seen (step (start (conf .rv64) (.full 0x4063B2AF) |> putX 6 0x1 |> putX 7 0x2008 |> putM 0x2008 8 0x8000000000000000))
    (fun t => (t.xval 5, t.numAt 0x2008 8)) = some (0x8000000000000000, 0x8000000000000001) := by decide
/-- `amoor.w x5, x6, (x7)`: x6=0x0F000001, x7=0x00002000, M[0x2000..+4]=0xF0F0F0F0. -/
theorem step_amoorW :
    seen (step (start (conf .rv32) (.full 0x4063A2AF) |> putX 6 0xF000001 |> putX 7 0x2000 |> putM 0x2000 4 0xF0F0F0F0))
    (fun t => (t.xval 5, t.numAt 0x2000 4)) = some (0xF0F0F0F0, 0xFFF0F0F1) := by decide
/-- `amoxor.d x5, x6, (x7)`: x6=0x00000000FFFFFFFF, x7=0x0000000000002008, M[0x2008..+8]=0xFFFFFFFFFFFFFFFF. -/
theorem step_amoxorD :
    seen (step (start (conf .rv64) (.full 0x2063B2AF) |> putX 6 0xFFFFFFFF |> putX 7 0x2008 |> putM 0x2008 8 0xFFFFFFFFFFFFFFFF))
    (fun t => (t.xval 5, t.numAt 0x2008 8)) = some (0xFFFFFFFFFFFFFFFF, 0xFFFFFFFF00000000) := by decide
/-- `amoxor.w x5, x6, (x7)`: x6=0x0000FFFF, x7=0x00002000, M[0x2000..+4]=0xFFFFFFFF. -/
theorem step_amoxorW :
    seen (step (start (conf .rv32) (.full 0x2063A2AF) |> putX 6 0xFFFF |> putX 7 0x2000 |> putM 0x2000 4 0xFFFFFFFF))
    (fun t => (t.xval 5, t.numAt 0x2000 4)) = some (0xFFFFFFFF, 0xFFFF0000) := by decide
/-- `amoswap.d x5, x6, (x7)`: x6=0x2222222222222222, x7=0x0000000000002008, M[0x2008..+8]=0x1111111111111111. -/
theorem step_amoswapD :
    seen (step (start (conf .rv64) (.full 0x0863B2AF) |> putX 6 0x2222222222222222 |> putX 7 0x2008 |> putM 0x2008 8 0x1111111111111111))
    (fun t => (t.xval 5, t.numAt 0x2008 8)) = some (0x1111111111111111, 0x2222222222222222) := by decide
/-- `amoswap.w x5, x6, (x7)`: x6=0x1111111122222222, x7=0x0000000000002000, M[0x2000..+4]=0x80000000. -/
theorem step_amoswapW :
    seen (step (start (conf .rv64) (.full 0x0863A2AF) |> putX 6 0x1111111122222222 |> putX 7 0x2000 |> putM 0x2000 4 0x80000000))
    (fun t => (t.xval 5, t.numAt 0x2000 4)) = some (0xFFFFFFFF80000000, 0x22222222) := by decide
/-- `amoswap.w x5, x7, (x7)`: x7=0x00002000, M[0x2000..+4]=0x00000029. -/
theorem step_amoswapW_again :
    seen (step (start (conf .rv32) (.full 0x0873A2AF) |> putX 7 0x2000 |> putM 0x2000 4 0x29))
    (fun t => (t.xval 5, t.numAt 0x2000 4)) = some (0x29, 0x2000) := by decide
/-- `amomax.d x5, x6, (x7)`: x6=0x7FFFFFFFFFFFFFFF, x7=0x0000000000002008, M[0x2008..+8]=0x8000000000000000. -/
theorem step_amomaxD :
    seen (step (start (conf .rv64) (.full 0xA063B2AF) |> putX 6 0x7FFFFFFFFFFFFFFF |> putX 7 0x2008 |> putM 0x2008 8 0x8000000000000000))
    (fun t => (t.xval 5, t.numAt 0x2008 8)) = some (0x8000000000000000, 0x7FFFFFFFFFFFFFFF) := by decide
/-- `amomax.w x5, x6, (x7)`: x6=0x00000003, x7=0x00002000, M[0x2000..+4]=0xFFFFFFFE. -/
theorem step_amomaxW :
    seen (step (start (conf .rv32) (.full 0xA063A2AF) |> putX 6 0x3 |> putX 7 0x2000 |> putM 0x2000 4 0xFFFFFFFE))
    (fun t => (t.xval 5, t.numAt 0x2000 4)) = some (0xFFFFFFFE, 0x3) := by decide
/-- `amomax.w x5, x6, (x7)`: x6=0xFFFFFFFF00000005, x7=0x0000000000002000, M[0x2000..+4]=0x7FFFFFFF. -/
theorem step_amomaxW_again :
    seen (step (start (conf .rv64) (.full 0xA063A2AF) |> putX 6 0xFFFFFFFF00000005 |> putX 7 0x2000 |> putM 0x2000 4 0x7FFFFFFF))
    (fun t => (t.xval 5, t.numAt 0x2000 4)) = some (0x7FFFFFFF, 0x7FFFFFFF) := by decide
/-- `amomaxu.d x5, x6, (x7)`: x6=0x7FFFFFFFFFFFFFFF, x7=0x0000000000002008, M[0x2008..+8]=0x8000000000000000. -/
theorem step_amomaxuD :
    seen (step (start (conf .rv64) (.full 0xE063B2AF) |> putX 6 0x7FFFFFFFFFFFFFFF |> putX 7 0x2008 |> putM 0x2008 8 0x8000000000000000))
    (fun t => (t.xval 5, t.numAt 0x2008 8)) = some (0x8000000000000000, 0x8000000000000000) := by decide
/-- `amomaxu.w x5, x6, (x7)`: x6=0x00000003, x7=0x00002000, M[0x2000..+4]=0xFFFFFFFE. -/
theorem step_amomaxuW :
    seen (step (start (conf .rv32) (.full 0xE063A2AF) |> putX 6 0x3 |> putX 7 0x2000 |> putM 0x2000 4 0xFFFFFFFE))
    (fun t => (t.xval 5, t.numAt 0x2000 4)) = some (0xFFFFFFFE, 0xFFFFFFFE) := by decide
/-- `amomaxu.w x5, x6, (x7)`: x6=0x0000000180000000, x7=0x0000000000002000, M[0x2000..+4]=0x00000001. -/
theorem step_amomaxuW_again :
    seen (step (start (conf .rv64) (.full 0xE063A2AF) |> putX 6 0x180000000 |> putX 7 0x2000 |> putM 0x2000 4 0x1))
    (fun t => (t.xval 5, t.numAt 0x2000 4)) = some (0x1, 0x80000000) := by decide
/-- `amomin.d x5, x6, (x7)`: x6=0x7FFFFFFFFFFFFFFF, x7=0x0000000000002008, M[0x2008..+8]=0x8000000000000000. -/
theorem step_amominD :
    seen (step (start (conf .rv64) (.full 0x8063B2AF) |> putX 6 0x7FFFFFFFFFFFFFFF |> putX 7 0x2008 |> putM 0x2008 8 0x8000000000000000))
    (fun t => (t.xval 5, t.numAt 0x2008 8)) = some (0x8000000000000000, 0x8000000000000000) := by decide
/-- `amomin.w x5, x6, (x7)`: x6=0x00000003, x7=0x00002000, M[0x2000..+4]=0xFFFFFFFE. -/
theorem step_amominW :
    seen (step (start (conf .rv32) (.full 0x8063A2AF) |> putX 6 0x3 |> putX 7 0x2000 |> putM 0x2000 4 0xFFFFFFFE))
    (fun t => (t.xval 5, t.numAt 0x2000 4)) = some (0xFFFFFFFE, 0xFFFFFFFE) := by decide
/-- `amomin.w x5, x6, (x7)`: x6=0x00000001FFFFFFFF, x7=0x0000000000002000, M[0x2000..+4]=0x00000005. -/
theorem step_amominW_again :
    seen (step (start (conf .rv64) (.full 0x8063A2AF) |> putX 6 0x1FFFFFFFF |> putX 7 0x2000 |> putM 0x2000 4 0x5))
    (fun t => (t.xval 5, t.numAt 0x2000 4)) = some (0x5, 0xFFFFFFFF) := by decide
/-- `amominu.d x5, x6, (x7)`: x6=0x7FFFFFFFFFFFFFFF, x7=0x0000000000002008, M[0x2008..+8]=0x8000000000000000. -/
theorem step_amominuD :
    seen (step (start (conf .rv64) (.full 0xC063B2AF) |> putX 6 0x7FFFFFFFFFFFFFFF |> putX 7 0x2008 |> putM 0x2008 8 0x8000000000000000))
    (fun t => (t.xval 5, t.numAt 0x2008 8)) = some (0x8000000000000000, 0x7FFFFFFFFFFFFFFF) := by decide
/-- `amominu.w x5, x6, (x7)`: x6=0x00000003, x7=0x00002000, M[0x2000..+4]=0xFFFFFFFE. -/
theorem step_amominuW :
    seen (step (start (conf .rv32) (.full 0xC063A2AF) |> putX 6 0x3 |> putX 7 0x2000 |> putM 0x2000 4 0xFFFFFFFE))
    (fun t => (t.xval 5, t.numAt 0x2000 4)) = some (0xFFFFFFFE, 0x3) := by decide
/-- `amominu.w x5, x6, (x7)`: x6=0xFFFFFFFF00000003, x7=0x0000000000002000, M[0x2000..+4]=0xFFFFFFFE. -/
theorem step_amominuW_again :
    seen (step (start (conf .rv64) (.full 0xC063A2AF) |> putX 6 0xFFFFFFFF00000003 |> putX 7 0x2000 |> putM 0x2000 4 0xFFFFFFFE))
    (fun t => (t.xval 5, t.numAt 0x2000 4)) = some (0xFFFFFFFFFFFFFFFE, 0x3) := by decide
/-- `beq x6, x7, 16`: x6=0x0000000100000005, x7=0x0000000000000005. -/
theorem step_beq :
    seen (step (start (conf .rv64) (.full 0x00730863) |> putX 6 0x100000005 |> putX 7 0x5))
    (fun t => t.pcNat) = some 0x1004 := by decide
/-- `beq x6, x7, -4096`: x6=0x00000000, x7=0x00000000. -/
theorem step_beq_again :
    seen (step (start (conf .rv32) (.full 0x80730063) |> putX 6 0x0 |> putX 7 0x0))
    (fun t => t.pcNat) = some 0x0 := by decide
/-- `bne x6, x7, 16`: x6=0x00000005, x7=0x00000006. -/
theorem step_bne :
    seen (step (start (conf .rv32) (.full 0x00731863) |> putX 6 0x5 |> putX 7 0x6))
    (fun t => t.pcNat) = some 0x1010 := by decide
/-- `blt x6, x7, 16`: x6=0x80000000, x7=0x7FFFFFFF. -/
theorem step_blt :
    seen (step (start (conf .rv32) (.full 0x00734863) |> putX 6 0x80000000 |> putX 7 0x7FFFFFFF))
    (fun t => t.pcNat) = some 0x1010 := by decide
/-- `blt x6, x7, 16`: x6=0xFFFFFFFFFFFFFFFF, x7=0x0000000000000001. -/
theorem step_blt_again :
    seen (step (start (conf .rv64) (.full 0x00734863) |> putX 6 0xFFFFFFFFFFFFFFFF |> putX 7 0x1))
    (fun t => t.pcNat) = some 0x1010 := by decide
/-- `bge x6, x7, 16`: x6=0xFFFFFFFF, x7=0x00000001. -/
theorem step_bge :
    seen (step (start (conf .rv32) (.full 0x00735863) |> putX 6 0xFFFFFFFF |> putX 7 0x1))
    (fun t => t.pcNat) = some 0x1004 := by decide
/-- `bge x6, x7, 16`: x6=0x00000005, x7=0x00000005. -/
theorem step_bge_again :
    seen (step (start (conf .rv32) (.full 0x00735863) |> putX 6 0x5 |> putX 7 0x5))
    (fun t => t.pcNat) = some 0x1010 := by decide
/-- `bltu x6, x7, 16`: x6=0x0000000100000000, x7=0x00000000FFFFFFFF. -/
theorem step_bltu :
    seen (step (start (conf .rv64) (.full 0x00736863) |> putX 6 0x100000000 |> putX 7 0xFFFFFFFF))
    (fun t => t.pcNat) = some 0x1004 := by decide
/-- `bltu x6, x7, 16`: x6=0x00000001, x7=0xFFFFFFFF. -/
theorem step_bltu_again :
    seen (step (start (conf .rv32) (.full 0x00736863) |> putX 6 0x1 |> putX 7 0xFFFFFFFF))
    (fun t => t.pcNat) = some 0x1010 := by decide
/-- `bgeu x6, x7, 16`: x6=0x00000001, x7=0xFFFFFFFF. -/
theorem step_bgeu :
    seen (step (start (conf .rv32) (.full 0x00737863) |> putX 6 0x1 |> putX 7 0xFFFFFFFF))
    (fun t => t.pcNat) = some 0x1004 := by decide
/-- `bgeu x6, x7, 16`: x6=0x00000005, x7=0x00000005. -/
theorem step_bgeu_again :
    seen (step (start (conf .rv32) (.full 0x00737863) |> putX 6 0x5 |> putX 7 0x5))
    (fun t => t.pcNat) = some 0x1010 := by decide
/-- `c.add x5, x6`: x5=0xFFFFFFFF, x6=0x00000002. -/
theorem step_cAdd :
    seen (step (start (conf .rv32) (.half 0x929A) |> putX 5 0xFFFFFFFF |> putX 6 0x2))
    (fun t => (t.xval 5, t.pcNat)) = some (0x1, 0x1002) := by decide
/-- `c.addi x5, -32`: x5=0x00000020. -/
theorem step_cAddi :
    seen (step (start (conf .rv32) (.half 0x1281) |> putX 5 0x20))
    (fun t => (t.xval 5, t.pcNat)) = some (0x0, 0x1002) := by decide
/-- `c.addi16sp -512`: x2=0x00002200. -/
theorem step_cAddi16sp :
    seen (step (start (conf .rv32) (.half 0x7101) |> putX 2 0x2200))
    (fun t => (t.xval 2, t.pcNat)) = some (0x2000, 0x1002) := by decide
/-- `c.addi4spn x15, 1020`: x2=0x00002000. -/
theorem step_cAddi4spn :
    seen (step (start (conf .rv32) (.half 0x1FFC) |> putX 2 0x2000))
    (fun t => (t.xval 15, t.pcNat)) = some (0x23FC, 0x1002) := by decide
/-- `c.addiw x5, 0`: x5=0x1234567880000000. -/
theorem step_cAddiw :
    seen (step (start (conf .rv64) (.half 0x2281) |> putX 5 0x1234567880000000))
    (fun t => (t.xval 5, t.pcNat)) = some (0xFFFFFFFF80000000, 0x1002) := by decide
/-- `c.and x8, x9`: x8=0xF0F0F0F0, x9=0xFF00FF00. -/
theorem step_cAnd :
    seen (step (start (conf .rv32) (.half 0x8C65) |> putX 8 0xF0F0F0F0 |> putX 9 0xFF00FF00))
    (fun t => (t.xval 8, t.pcNat)) = some (0xF000F000, 0x1002) := by decide
/-- `c.addw x8, x9`: x8=0xAAAAAAAA00000001, x9=0xBBBBBBBB00000002. -/
theorem step_cAddw :
    seen (step (start (conf .rv64) (.half 0x9C25) |> putX 8 0xAAAAAAAA00000001 |> putX 9 0xBBBBBBBB00000002))
    (fun t => (t.xval 8, t.pcNat)) = some (0x3, 0x1002) := by decide
/-- `c.andi x8, 15`: x8=0x12345678. -/
theorem step_cAndi :
    seen (step (start (conf .rv32) (.half 0x883D) |> putX 8 0x12345678))
    (fun t => (t.xval 8, t.pcNat)) = some (0x8, 0x1002) := by decide
/-- `c.li x5, -32`: nothing read. -/
theorem step_cLi :
    seen (step (start (conf .rv32) (.half 0x5281)))
    (fun t => (t.xval 5, t.pcNat)) = some (0xFFFFFFE0, 0x1002) := by decide
/-- `c.lui x5, -0x1000`: nothing read. -/
theorem step_cLui :
    seen (step (start (conf .rv64) (.half 0x72FD)))
    (fun t => (t.xval 5, t.pcNat)) = some (0xFFFFFFFFFFFFF000, 0x1002) := by decide
/-- `c.mv x5, x6`: x6=0x12345678. -/
theorem step_cMv :
    seen (step (start (conf .rv32) (.half 0x829A) |> putX 6 0x12345678))
    (fun t => (t.xval 5, t.pcNat)) = some (0x12345678, 0x1002) := by decide
/-- `c.or x8, x9`: x8=0xF0F0F0F0, x9=0x0F000001. -/
theorem step_cOr :
    seen (step (start (conf .rv32) (.half 0x8C45) |> putX 8 0xF0F0F0F0 |> putX 9 0xF000001))
    (fun t => (t.xval 8, t.pcNat)) = some (0xFFF0F0F1, 0x1002) := by decide
/-- `c.slli x5, 63`: x5=0x0000000000000003. -/
theorem step_cSlli :
    seen (step (start (conf .rv64) (.half 0x12FE) |> putX 5 0x3))
    (fun t => (t.xval 5, t.pcNat)) = some (0x8000000000000000, 0x1002) := by decide
/-- `c.slli x5, 32`: x5=0x00000003. -/
theorem step_cSlli_again :
    trapOf (step (start (conf .rv32) (.half 0x1282) |> putX 5 0x3)) =
    some (.illegalInstruction, 0x1000, some 0x1282) := by decide
/-- `c.srai x8, 63`: x8=0x8000000000000000. -/
theorem step_cSrai :
    seen (step (start (conf .rv64) (.half 0x947D) |> putX 8 0x8000000000000000))
    (fun t => (t.xval 8, t.pcNat)) = some (0xFFFFFFFFFFFFFFFF, 0x1002) := by decide
/-- `c.srai x8, 32`: x8=0x80000000. -/
theorem step_cSrai_again :
    trapOf (step (start (conf .rv32) (.half 0x9401) |> putX 8 0x80000000)) =
    some (.illegalInstruction, 0x1000, some 0x9401) := by decide
/-- `c.srli x8, 63`: x8=0x8000000000000000. -/
theorem step_cSrli :
    seen (step (start (conf .rv64) (.half 0x907D) |> putX 8 0x8000000000000000))
    (fun t => (t.xval 8, t.pcNat)) = some (0x1, 0x1002) := by decide
/-- `c.sub x8, x9`: x8=0x00000000, x9=0x00000001. -/
theorem step_cSub :
    seen (step (start (conf .rv32) (.half 0x8C05) |> putX 8 0x0 |> putX 9 0x1))
    (fun t => (t.xval 8, t.pcNat)) = some (0xFFFFFFFF, 0x1002) := by decide
/-- `c.subw x8, x9`: x8=0xAAAAAAAA00000000, x9=0xBBBBBBBB00000001. -/
theorem step_cSubw :
    seen (step (start (conf .rv64) (.half 0x9C05) |> putX 8 0xAAAAAAAA00000000 |> putX 9 0xBBBBBBBB00000001))
    (fun t => (t.xval 8, t.pcNat)) = some (0xFFFFFFFFFFFFFFFF, 0x1002) := by decide
/-- `c.xor x8, x9`: x8=0xFFFFFFFF, x9=0x0000FFFF. -/
theorem step_cXor :
    seen (step (start (conf .rv32) (.half 0x8C25) |> putX 8 0xFFFFFFFF |> putX 9 0xFFFF))
    (fun t => (t.xval 8, t.pcNat)) = some (0xFFFF0000, 0x1002) := by decide
/-- `c.lw x9, 4(x8)`: x8=0x0000000000002000, M[0x2004..+4]=0x80000001. -/
theorem step_cLw :
    seen (step (start (conf .rv64) (.half 0x4044) |> putX 8 0x2000 |> putM 0x2004 4 0x80000001))
    (fun t => (t.xval 9, t.pcNat)) = some (0xFFFFFFFF80000001, 0x1002) := by decide
/-- `c.lw x9, 0(x8)`: x8=0x00002001, M[0x2000..+8]=0x8877665544332211. -/
theorem step_cLw_again :
    seen (step (start { conf .rv32 with misaligned := .split } (.half 0x4004) |> putX 8 0x2001 |> putM 0x2000 8 0x8877665544332211))
    (fun t => (t.xval 9, t.pcNat)) = some (0x55443322, 0x1002) := by decide
/-- `c.sw x9, 8(x8)`: x8=0x0000000000002000, x9=0xAABBCCDD11223344, M[0x2008..+8]=0xFFFFFFFFFFFFFFFF. -/
theorem step_cSw :
    seen (step (start (conf .rv64) (.half 0xC404) |> putX 8 0x2000 |> putX 9 0xAABBCCDD11223344 |> putM 0x2008 8 0xFFFFFFFFFFFFFFFF))
    (fun t => (t.numAt 0x2008 4, t.pcNat)) = some (0x11223344, 0x1002) := by decide
/-- `c.sw x9, 0(x8)`: x8=0x00005000, x9=0x00000001. -/
theorem step_cSw_again :
    refusalOf (step (start (conf .rv32) (.half 0xC004) |> putX 8 0x5000 |> putX 9 0x1)) =
    some (.storeToExecutable 0x5000) := by decide
/-- `c.ld x9, 248(x8)`: x8=0x0000000000002000, M[0x20F8..+8]=0x0000000000000001. -/
theorem step_cLd :
    seen (step (start (conf .rv64) (.half 0x7C64) |> putX 8 0x2000 |> putM 0x20F8 8 0x1))
    (fun t => (t.xval 9, t.pcNat)) = some (0x1, 0x1002) := by decide
/-- `c.sd x9, 16(x8)`: x8=0x0000000000002000, x9=0x8877665544332211. -/
theorem step_cSd :
    seen (step (start (conf .rv64) (.half 0xE804) |> putX 8 0x2000 |> putX 9 0x8877665544332211))
    (fun t => (t.numAt 0x2010 8, t.pcNat)) = some (0x8877665544332211, 0x1002) := by decide
/-- `c.lwsp x5, 8(x2)`: x2=0x0000000000002000, M[0x2008..+4]=0xFFFFFFFF. -/
theorem step_cLwsp :
    seen (step (start (conf .rv64) (.half 0x42A2) |> putX 2 0x2000 |> putM 0x2008 4 0xFFFFFFFF))
    (fun t => (t.xval 5, t.pcNat)) = some (0xFFFFFFFFFFFFFFFF, 0x1002) := by decide
/-- `c.swsp x5, 252(x2)`: x2=0x00002000, x5=0xCAFEF00D. -/
theorem step_cSwsp :
    seen (step (start (conf .rv32) (.half 0xDF96) |> putX 2 0x2000 |> putX 5 0xCAFEF00D))
    (fun t => (t.numAt 0x20FC 4, t.pcNat)) = some (0xCAFEF00D, 0x1002) := by decide
/-- `c.ldsp x5, 504(x2)`: x2=0x0000000000002000, M[0x21F8..+8]=0x0102030405060708. -/
theorem step_cLdsp :
    seen (step (start (conf .rv64) (.half 0x72FE) |> putX 2 0x2000 |> putM 0x21F8 8 0x102030405060708))
    (fun t => (t.xval 5, t.pcNat)) = some (0x102030405060708, 0x1002) := by decide
/-- `c.sdsp x5, 504(x2)`: x2=0x0000000000002000, x5=0x0102030405060708. -/
theorem step_cSdsp :
    seen (step (start (conf .rv64) (.half 0xFF96) |> putX 2 0x2000 |> putX 5 0x102030405060708))
    (fun t => (t.numAt 0x21F8 8, t.pcNat)) = some (0x102030405060708, 0x1002) := by decide
/-- `c.flw f9, 4(x8)`: x8=0x00002000, M[0x2004..+4]=0x3F800000. -/
theorem step_cFlw :
    seen (step (start (conf .rv32) (.half 0x6044) |> putX 8 0x2000 |> putM 0x2004 4 0x3F800000))
    (fun t => ((t.fget 9).toNat, t.pcNat)) = some (0xFFFFFFFF3F800000, 0x1002) := by decide
/-- `c.flw f9, 4(x8)`: x8=0x00002000, M[0x2004..+4]=0x3F800000. -/
theorem step_cFlw_again :
    seen (step (start { conf .rv32 with hasD := false } (.half 0x6044) |> putX 8 0x2000 |> putM 0x2004 4 0x3F800000))
    (fun t => ((t.fget 9).toNat, t.pcNat)) = some (0x3F800000, 0x1002) := by decide
/-- `c.flwsp f0, 8(x2)`: x2=0x00002000, M[0x2008..+4]=0xC0000000. -/
theorem step_cFlwsp :
    seen (step (start (conf .rv32) (.half 0x6022) |> putX 2 0x2000 |> putM 0x2008 4 0xC0000000))
    (fun t => ((t.fget 0).toNat, t.pcNat)) = some (0xFFFFFFFFC0000000, 0x1002) := by decide
/-- `c.fsw f9, 4(x8)`: x8=0x00002000, f9=0x123456783F800000. -/
theorem step_cFsw :
    seen (step (start (conf .rv32) (.half 0xE044) |> putX 8 0x2000 |> putF 9 0x123456783F800000))
    (fun t => (t.numAt 0x2004 4, t.pcNat)) = some (0x3F800000, 0x1002) := by decide
/-- `c.fswsp f31, 12(x2)`: x2=0x00002000, f31=0xFFFFFFFFBF800000. -/
theorem step_cFswsp :
    seen (step (start (conf .rv32) (.half 0xE67E) |> putX 2 0x2000 |> putF 31 0xFFFFFFFFBF800000))
    (fun t => (t.numAt 0x200C 4, t.pcNat)) = some (0xBF800000, 0x1002) := by decide
/-- `c.fld f9, 8(x8)`: x8=0x00002000, M[0x2008..+8]=0x3FF0000000000000. -/
theorem step_cFld :
    seen (step (start (conf .rv32) (.half 0x2404) |> putX 8 0x2000 |> putM 0x2008 8 0x3FF0000000000000))
    (fun t => ((t.fget 9).toNat, t.pcNat)) = some (0x3FF0000000000000, 0x1002) := by decide
/-- `c.fldsp f1, 16(x2)`: x2=0x00002000, M[0x2010..+8]=0xC000000000000000. -/
theorem step_cFldsp :
    seen (step (start (conf .rv32) (.half 0x20C2) |> putX 2 0x2000 |> putM 0x2010 8 0xC000000000000000))
    (fun t => ((t.fget 1).toNat, t.pcNat)) = some (0xC000000000000000, 0x1002) := by decide
/-- `c.fsd f9, 8(x8)`: x8=0x00002000, f9=0x3FF0000000000000. -/
theorem step_cFsd :
    seen (step (start (conf .rv32) (.half 0xA404) |> putX 8 0x2000 |> putF 9 0x3FF0000000000000))
    (fun t => (t.numAt 0x2008 8, t.pcNat)) = some (0x3FF0000000000000, 0x1002) := by decide
/-- `c.fsdsp f31, 504(x2)`: x2=0x0000000000002000, f31=0x7FF8000000000001. -/
theorem step_cFsdsp :
    seen (step (start (conf .rv64) (.half 0xBFFE) |> putX 2 0x2000 |> putF 31 0x7FF8000000000001))
    (fun t => (t.numAt 0x21F8 8, t.pcNat)) = some (0x7FF8000000000001, 0x1002) := by decide
/-- `c.beqz x8, -256`: x8=0x00000000. -/
theorem step_cBeqz :
    seen (step (start (conf .rv32) (.half 0xD001) |> putX 8 0x0))
    (fun t => t.pcNat) = some 0xF00 := by decide
/-- `c.beqz x8, 16`: x8=0x0000000100000000. -/
theorem step_cBeqz_again :
    seen (step (start (conf .rv64) (.half 0xC801) |> putX 8 0x100000000))
    (fun t => t.pcNat) = some 0x1002 := by decide
/-- `c.bnez x8, -2`: x8=0x80000000. -/
theorem step_cBnez :
    seen (step (start (conf .rv32) (.half 0xFC7D) |> putX 8 0x80000000))
    (fun t => t.pcNat) = some 0xFFE := by decide
/-- `c.j -2048`: nothing read. -/
theorem step_cJ :
    seen (step (start (conf .rv32) (.half 0xB001)))
    (fun t => t.pcNat) = some 0x800 := by decide
/-- `c.jal 2046`: nothing read. -/
theorem step_cJal :
    seen (step (start (conf .rv32) (.half 0x2FFD)))
    (fun t => (t.xval 1, t.pcNat)) = some (0x1002, 0x17FE) := by decide
/-- `c.jr x5`: x5=0x00001235. -/
theorem step_cJr :
    seen (step (start (conf .rv32) (.half 0x8282) |> putX 5 0x1235))
    (fun t => t.pcNat) = some 0x1234 := by decide
/-- `c.jalr x1`: x1=0x00002468. -/
theorem step_cJalr :
    seen (step (start (conf .rv32) (.half 0x9082) |> putX 1 0x2468))
    (fun t => (t.xval 1, t.pcNat)) = some (0x1002, 0x2468) := by decide
/-- `c.jalr x5`: x5=0x00001235. -/
theorem step_cJalr_again :
    seen (step (start (conf .rv32) (.half 0x9282) |> putX 5 0x1235))
    (fun t => (t.xval 1, t.pcNat)) = some (0x1002, 0x1234) := by decide
/-- `c.ebreak`: nothing read. -/
theorem step_cEbreak :
    trapOf (step (start (conf .rv32) (.half 0x9002))) =
    some (.breakpoint, 0x1000, none) := by decide
/-- `csrrw x6, 0x340, x6`: x6=0x11111111, CSR 0x340=0x22222222. -/
theorem step_csrrw :
    seen (step (start (conf .rv32) (.full 0x34031373) |> putX 6 0x11111111 |> putC 0x340 0x22222222))
    (fun t => (t.xval 6, t.csrVal 0x340)) = some (0x22222222, 0x11111111) := by decide
/-- `csrrw x5, 0x341, x6`: x6=0x00000001. -/
theorem step_csrrw_again :
    trapOf (step (start (conf .rv32) (.full 0x341312F3) |> putX 6 0x1)) =
    some (.illegalInstruction, 0x1000, some 0x341312F3) := by decide
/-- `csrrs x5, 0x340, x6`: x6=0x0000FF00, CSR 0x340=0x000000FF. -/
theorem step_csrrs :
    seen (step (start (conf .rv32) (.full 0x340322F3) |> putX 6 0xFF00 |> putC 0x340 0xFF))
    (fun t => (t.xval 5, t.csrVal 0x340)) = some (0xFF, 0xFFFF) := by decide
/-- `csrrc x6, 0x340, x6`: x6=0x00000FF0, CSR 0x340=0x0000FFFF. -/
theorem step_csrrc :
    seen (step (start (conf .rv32) (.full 0x34033373) |> putX 6 0xFF0 |> putC 0x340 0xFFFF))
    (fun t => (t.xval 6, t.csrVal 0x340)) = some (0xFFFF, 0xF00F) := by decide
/-- `csrrwi x5, 0x340, 21`: CSR 0x340=0xFFFFFFFF. -/
theorem step_csrrwi :
    seen (step (start (conf .rv32) (.full 0x340AD2F3) |> putC 0x340 0xFFFFFFFF))
    (fun t => (t.xval 5, t.csrVal 0x340)) = some (0xFFFFFFFF, 0x15) := by decide
/-- `csrrsi x5, 0x340, 31`: CSR 0x340=0xFFFFFF00. -/
theorem step_csrrsi :
    seen (step (start (conf .rv32) (.full 0x340FE2F3) |> putC 0x340 0xFFFFFF00))
    (fun t => (t.xval 5, t.csrVal 0x340)) = some (0xFFFFFF00, 0xFFFFFF1F) := by decide
/-- `csrrci x5, 0x340, 31`: CSR 0x340=0xFFFFFFFFFFFFFFFF. -/
theorem step_csrrci :
    seen (step (start (conf .rv64) (.full 0x340FF2F3) |> putC 0x340 0xFFFFFFFFFFFFFFFF))
    (fun t => (t.xval 5, t.csrVal 0x340)) = some (0xFFFFFFFFFFFFFFFF, 0xFFFFFFFFFFFFFFE0) := by decide
/-- `div x5, x6, x7`: x6=0xFFFFFFF9, x7=0x00000002. -/
theorem step_div :
    seen (step (start (conf .rv32) (.full 0x027342B3) |> putX 6 0xFFFFFFF9 |> putX 7 0x2))
    (fun t => (t.xval 5, t.pcNat)) = some (0xFFFFFFFD, 0x1004) := by decide
/-- `div x5, x6, x7`: x6=0x80000000, x7=0xFFFFFFFF. -/
theorem step_div_again :
    seen (step (start (conf .rv32) (.full 0x027342B3) |> putX 6 0x80000000 |> putX 7 0xFFFFFFFF))
    (fun t => (t.xval 5, t.pcNat)) = some (0x80000000, 0x1004) := by decide
/-- `divu x5, x6, x7`: x6=0xFFFFFFEC, x7=0x00000006. -/
theorem step_divu :
    seen (step (start (conf .rv32) (.full 0x027352B3) |> putX 6 0xFFFFFFEC |> putX 7 0x6))
    (fun t => (t.xval 5, t.pcNat)) = some (0x2AAAAAA7, 0x1004) := by decide
/-- `divu x5, x6, x7`: x6=0x00000005, x7=0x00000000. -/
theorem step_divu_again :
    seen (step (start (conf .rv32) (.full 0x027352B3) |> putX 6 0x5 |> putX 7 0x0))
    (fun t => (t.xval 5, t.pcNat)) = some (0xFFFFFFFF, 0x1004) := by decide
/-- `divw x5, x6, x7`: x6=0x1234567800000014, x7=0xFFFFFFFF00000006. -/
theorem step_divw :
    seen (step (start (conf .rv64) (.full 0x027342BB) |> putX 6 0x1234567800000014 |> putX 7 0xFFFFFFFF00000006))
    (fun t => (t.xval 5, t.pcNat)) = some (0x3, 0x1004) := by decide
/-- `divw x5, x6, x7`: x6=0x0000000080000000, x7=0x00000000FFFFFFFF. -/
theorem step_divw_again :
    seen (step (start (conf .rv64) (.full 0x027342BB) |> putX 6 0x80000000 |> putX 7 0xFFFFFFFF))
    (fun t => (t.xval 5, t.pcNat)) = some (0xFFFFFFFF80000000, 0x1004) := by decide
/-- `divuw x5, x6, x7`: x6=0x00000000FFFFFFFF, x7=0x0000000000000001. -/
theorem step_divuw :
    seen (step (start (conf .rv64) (.full 0x027352BB) |> putX 6 0xFFFFFFFF |> putX 7 0x1))
    (fun t => (t.xval 5, t.pcNat)) = some (0xFFFFFFFFFFFFFFFF, 0x1004) := by decide
/-- `divuw x5, x6, x7`: x6=0x0000000000000005, x7=0x0000000000000000. -/
theorem step_divuw_again :
    seen (step (start (conf .rv64) (.full 0x027352BB) |> putX 6 0x5 |> putX 7 0x0))
    (fun t => (t.xval 5, t.pcNat)) = some (0xFFFFFFFFFFFFFFFF, 0x1004) := by decide
/-- `ecall`: nothing read. -/
theorem step_ecall :
    trapOf (step (start (conf .rv32) (.full 0x00000073))) =
    some (.environmentCall, 0x1000, none) := by decide
/-- `ebreak`: nothing read. -/
theorem step_ebreak :
    trapOf (step (start (conf .rv32) (.full 0x00100073))) =
    some (.breakpoint, 0x1000, none) := by decide


/-! ## Witnesses: for every obligation with hypotheses, a state that meets them -/

/-- A machine with an instruction and three registers that address data. -/
def with3 (cfg : Config) (c : Code) (x2 x7 x8 : Nat) : State :=
  start cfg c |> putX 2 x2 |> putX 7 x7 |> putX 8 x8

/-- The same, for statements that do not fetch. -/
def data (cfg : Config) (x2 x7 x8 : Nat) : State := with3 cfg (.full 0x00000073) x2 x7 x8

theorem witness_DecodeOfEncode : (Instr.cLdsp 5 63).wellFormed (conf .rv64) = true := by decide
theorem witness_EncodeOfDecode :
    decode (conf .rv64) (.half 0x72FE) = .instr (.cLdsp 5 63) := by decide
theorem witness_DecodedIsWellFormed :
    decode (conf .rv32) (.half 0x02FE) = .instr (.cSlli 5 31) := by decide
theorem witness_IllegalWordsAreTheListed :
    (conf .rv32).hasC = true ∧ IllegalHalf (conf .rv32) 0x1282 ∧
      decode (conf .rv32) (.half 0x1282) = .illegal := by
  refine ⟨rfl, ?_, by decide⟩
  unfold IllegalHalf
  decide
theorem witness_RefusedWordsMatchNoRow :
    decode (conf .rv64) (.half 0x8000) = .notInExcerpt := by decide

theorem witness_Fetch_odd :
    (start (conf .rv64) (.half 0x4285) |> putPc 0x1001).pcNat % 2 = 1 := by decide
theorem witness_Fetch_first :
    (start (conf .rv64) (.half 0x4285) |> putPc 0x1100).pcNat % 2 = 0 ∧
      ¬ EveryByte (start (conf .rv64) (.half 0x4285) |> putPc 0x1100) 0x1100 2
        (start (conf .rv64) (.half 0x4285) |> putPc 0x1100).executableAt := by
  unfold EveryByte
  decide
/-- The last parcel of the page of code. -/
def atEnd (w : Nat) : State :=
  start (conf .rv64) (.half 0x4285) |> putPc 0x10FE |> putM 0x10FE 2 w
theorem witness_Fetch_half :
    (atEnd 0x4285).pcNat % 2 = 0 ∧ EveryByte (atEnd 0x4285) 0x10FE 2 (atEnd 0x4285).executableAt ∧
      (atEnd 0x4285).numAt 0x10FE 2 % 4 ≠ 3 ∧ (atEnd 0x4285).pcNat = 0x10FE := by
  unfold EveryByte
  decide
theorem witness_Fetch_second :
    (atEnd 0x02B3).pcNat % 2 = 0 ∧ EveryByte (atEnd 0x02B3) 0x10FE 2 (atEnd 0x02B3).executableAt ∧
      (atEnd 0x02B3).numAt 0x10FE 2 % 4 = 3 ∧ (atEnd 0x02B3).pcNat = 0x10FE ∧
      ¬ EveryByte (atEnd 0x02B3) (0x10FE + 2) 2 (atEnd 0x02B3).executableAt := by
  unfold EveryByte
  decide
theorem witness_Fetch_full :
    (start (conf .rv64) (.full 0x007302B3)).pcNat = 0x1000 ∧
      EveryByte (start (conf .rv64) (.full 0x007302B3)) 0x1000 2
        (start (conf .rv64) (.full 0x007302B3)).executableAt ∧
      (start (conf .rv64) (.full 0x007302B3)).numAt 0x1000 2 % 4 = 3 ∧
      EveryByte (start (conf .rv64) (.full 0x007302B3)) (0x1000 + 2) 2
        (start (conf .rv64) (.full 0x007302B3)).executableAt := by
  unfold EveryByte
  decide

theorem witness_StepRunsDecodedInstruction :
    fetch (start (conf .rv64) (.full 0x007302B3)) = .code (.full 0x007302B3) ∧
      decode (start (conf .rv64) (.full 0x007302B3)).cfg (.full 0x007302B3) =
        .instr (.add 5 6 7) := by decide
theorem witness_StepStops_fetch :
    fetch (start (conf .rv64) (.half 0x4285) |> putPc 0x1001) =
      .failed .instructionAddressMisaligned := by decide
theorem witness_StepStops_illegal :
    fetch (start (conf .rv32) (.half 0x0000)) = .code (.half 0) ∧
      decode (start (conf .rv32) (.half 0x0000)).cfg (.half 0) = .illegal := by decide
theorem witness_StepStops_refused :
    fetch (start (conf .rv32) (.full 0x0013029B)) = .code (.full 0x0013029B) ∧
      decode (start (conf .rv32) (.full 0x0013029B)).cfg (.full 0x0013029B) = .notInExcerpt := by
  decide
theorem witness_EncodedInstructionRuns :
    (Instr.add 5 6 7).wellFormed (start (conf .rv64) (.full 0x007302B3)).cfg = true ∧
      (start (conf .rv64) (.full 0x007302B3)).pcNat = 0x1000 ∧
      EveryByte (start (conf .rv64) (.full 0x007302B3)) 0x1000 (encode (.add 5 6 7)).len
        (start (conf .rv64) (.full 0x007302B3)).executableAt ∧
      ((List.range (encode (.add 5 6 7)).len).map fun k =>
        (start (conf .rv64) (.full 0x007302B3)).byteAt
          ((0x1000 + k) % 2 ^ (start (conf .rv64) (.full 0x007302B3)).w)) =
        (encode (.add 5 6 7)).bytes := by
  unfold EveryByte
  decide

/-- The last word and doubleword of the page of data. -/
theorem witness_AmoWordResults :
    (data (conf .rv32) 0 0x2FFC 0).mem.wf = true ∧
      AmoAllowed (data (conf .rv32) 0 0x2FFC 0) ((data (conf .rv32) 0 0x2FFC 0).xval 7) 4 := by
  unfold AmoAllowed Aligned EveryByte
  decide
theorem witness_AmoDoubleResults :
    (data (conf .rv64) 0 0x2FF8 0).cfg.xlen = .rv64 ∧ (data (conf .rv64) 0 0x2FF8 0).mem.wf = true ∧
      AmoAllowed (data (conf .rv64) 0 0x2FF8 0) ((data (conf .rv64) 0 0x2FF8 0).xval 7) 8 := by
  unfold AmoAllowed Aligned EveryByte
  decide
theorem witness_AmoStops_misaligned :
    Instr.amoaddW 0 0 5 6 7 ∈ amoWords 0 0 5 6 7 ∧
      ¬ Aligned ((data { conf .rv32 with misaligned := .split } 0 0x2FFE 0).xval 7) 4 := by
  unfold Aligned
  decide
theorem witness_AmoStops_misaligned_double :
    Instr.amoaddD 0 0 5 6 7 ∈ amoDoubles 0 0 5 6 7 ∧
      ¬ Aligned ((data (conf .rv64) 0 0x2FFC 0).xval 7) 8 := by
  unfold Aligned
  decide
theorem witness_AmoStops_access :
    Instr.amoswapW 1 0 5 6 7 ∈ amoWords 1 0 5 6 7 ∧
      Aligned ((data (conf .rv32) 0 0x4000 0).xval 7) 4 ∧
      EveryByte (data (conf .rv32) 0 0x4000 0) 0x4000 4
        (data (conf .rv32) 0 0x4000 0).readableAt ∧
      ¬ EveryByte (data (conf .rv32) 0 0x4000 0) 0x4000 4
        (data (conf .rv32) 0 0x4000 0).writableAt := by
  unfold Aligned EveryByte
  decide
theorem witness_AmoStops_access_double :
    Instr.amoswapD 1 0 5 6 7 ∈ amoDoubles 1 0 5 6 7 ∧
      Aligned ((data (conf .rv64) 0 0x3000 0).xval 7) 8 ∧
      ¬ EveryByte (data (conf .rv64) 0 0x3000 0) 0x3000 8
        (data (conf .rv64) 0 0x3000 0).readableAt := by
  unfold Aligned EveryByte
  decide
theorem witness_AmoStops_code :
    Instr.amoxorW 0 1 5 6 7 ∈ amoWords 0 1 5 6 7 ∧
      Aligned ((data (conf .rv32) 0 0x50FC 0).xval 7) 4 ∧
      EveryByte (data (conf .rv32) 0 0x50FC 0) 0x50FC 4
        (data (conf .rv32) 0 0x50FC 0).readableAt ∧
      EveryByte (data (conf .rv32) 0 0x50FC 0) 0x50FC 4
        (data (conf .rv32) 0 0x50FC 0).writableAt ∧
      ¬ EveryByte (data (conf .rv32) 0 0x50FC 0) 0x50FC 4 fun b =>
        !(data (conf .rv32) 0 0x50FC 0).executableAt b := by
  unfold Aligned EveryByte
  decide
theorem witness_AmoStops_code_double :
    Instr.amoxorD 0 1 5 6 7 ∈ amoDoubles 0 1 5 6 7 ∧
      Aligned ((data (conf .rv64) 0 0x50F8 0).xval 7) 8 ∧
      EveryByte (data (conf .rv64) 0 0x50F8 0) 0x50F8 8
        (data (conf .rv64) 0 0x50F8 0).readableAt ∧
      EveryByte (data (conf .rv64) 0 0x50F8 0) 0x50F8 8
        (data (conf .rv64) 0 0x50F8 0).writableAt ∧
      ¬ EveryByte (data (conf .rv64) 0 0x50F8 0) 0x50F8 8 fun b =>
        !(data (conf .rv64) 0 0x50F8 0).executableAt b := by
  unfold Aligned EveryByte
  decide

/-- The least and the greatest offset the split can express at `XLEN = 64`; they lie within the bounds,
their neighbours do not. -/
theorem witness_CallReachesItsSymbol :
    (1 : Reg) ≠ 0 ∧ (data (conf .rv64) 0 0x50F8 0).w = 64 ∧
      (-2 ^ 31 - 2 ^ 11 ≤ (0xFFFFFFFF7FFFF800#64).toInt ∧
        (0xFFFFFFFF7FFFF800#64).toInt < 2 ^ 31 - 2 ^ 11) ∧
      (-2 ^ 31 - 2 ^ 11 ≤ (0x7FFFF7FF#64).toInt ∧ (0x7FFFF7FF#64).toInt < 2 ^ 31 - 2 ^ 11) ∧
      ¬ -2 ^ 31 - 2 ^ 11 ≤ (0xFFFFFFFF7FFFF7FF#64).toInt ∧
      ¬ (0x7FFFF800#64).toInt < 2 ^ 31 - 2 ^ 11 := by decide
/-- At `XLEN = 32` no offset is bounded: the premise is met by one far outside the bounds. -/
theorem witness_CallReachesItsSymbol_rv32 :
    (1 : Reg) ≠ 0 ∧ ((data (conf .rv32) 0 0x50F8 0).w = 64 →
      -2 ^ 31 - 2 ^ 11 ≤ (0x7FFFFFFF#64).toInt ∧ (0x7FFFFFFF#64).toInt < 2 ^ 31 - 2 ^ 11) := by decide
/-- `call x1, f` at 0x1000 with the symbol at 0x3804 (`48_pseudo.md` R321). -/
theorem pseudo_call :
    (Pseudo.call 1 0x2804).emits = [.machine (.auipc 1 3), .outside (.jalr 1 0x804 1)] ∧
      Pseudo.callDefault 0x2804 = .call 1 0x2804 := by decide
/-- `fabs.d` and `fabs.s` of -1.0 and of a word that is not boxed (R322, R323). -/
theorem pseudo_fabs :
    fabsDBits 0xBFF0000000000000 = 0x3FF0000000000000 ∧
      fabsSBits (conf .rv64) 0xFFFFFFFFBF800000 = some 0xFFFFFFFF3F800000 ∧
      fabsSBits (conf .rv64) 0x00000000BF800000 = none ∧
      fabsSBits { conf .rv64 with hasD := false } 0xBF800000 = some 0x3F800000 ∧
      fabsSBits { conf .rv64 with hasF := false } 0xFFFFFFFFBF800000 = none := by decide
/-- Each case of `FabsEffects`: with and without D, with and without F, and the free value. -/
theorem witness_FabsEffects :
    (fabsDEffect 1 2 (data (conf .rv64) 0 0 0)).isSome ∧
      (fabsDEffect 1 2 (data { conf .rv64 with hasD := false } 0 0 0)).isNone ∧
      (fabsSEffect 1 2 7 (data { conf .rv64 with hasD := false } 0 0 0)).isSome ∧
      (fabsSEffect 1 2 7 (data { conf .rv64 with hasF := false } 0 0 0)).isNone ∧
      (fabsSEffect 1 2 7 (data (conf .rv64) 0 0 0)).any (fun t => t.fget 1 = 7) := by decide
/-- An executable byte that is not readable can be fetched (log entry 37). -/
theorem fetch_unreadable :
    fetch (start { conf .rv64 with memMap := [⟨0x1000, 16, false, false, true⟩] } (.half 0x4285)) =
      .code (.half 0x4285) := by decide

theorem witness_CompressedShiftResults :
    (31#6).toNat < (State.launch (conf .rv32)).w ∧ (63#6).toNat < (State.launch (conf .rv64)).w := by
  decide

/-- The last word and doubleword of the page of data, each by its own address form. -/
def low : State := data (conf .rv64) 0x2F00 0 0x2F00

theorem witness_Loads_word : LoadAllowed low (addrWord 0 31 low).toNat 4 := by
  unfold LoadAllowed AlignmentAllows Aligned EveryByte
  decide
theorem witness_Loads_wordSp : LoadAllowed low (addrWordSp 63 low).toNat 4 := by
  unfold LoadAllowed AlignmentAllows Aligned EveryByte
  decide
theorem witness_Loads_double :
    low.cfg.hasD = true ∧ LoadAllowed low (addrDouble 0 31 low).toNat 8 := by
  unfold LoadAllowed AlignmentAllows Aligned EveryByte
  decide
theorem witness_Loads_doubleSp :
    low.cfg.hasD = true ∧ LoadAllowed low (addrDoubleSp 31 low).toNat 8 := by
  unfold LoadAllowed AlignmentAllows Aligned EveryByte
  decide
theorem witness_FloatLoads_word :
    (data (conf .rv32) 0 0 0x4000).cfg.hasF = true ∧
      LoadAllowed (data (conf .rv32) 0 0 0x4000)
        (addrWord 0 31 (data (conf .rv32) 0 0 0x4000)).toNat 4 := by
  unfold LoadAllowed AlignmentAllows Aligned EveryByte
  decide
theorem witness_FloatLoads_wordSp :
    (data (conf .rv32) 0x4000 0 0).cfg.hasF = true ∧
      LoadAllowed (data (conf .rv32) 0x4000 0 0)
        (addrWordSp 63 (data (conf .rv32) 0x4000 0 0)).toNat 4 := by
  unfold LoadAllowed AlignmentAllows Aligned EveryByte
  decide
theorem witness_Stores_word :
    low.mem.wf = true ∧ StoreAllowed low (addrWord 0 31 low).toNat 4 := by
  unfold StoreAllowed AlignmentAllows Aligned EveryByte
  decide
theorem witness_Stores_wordSp :
    low.mem.wf = true ∧ StoreAllowed low (addrWordSp 63 low).toNat 4 := by
  unfold StoreAllowed AlignmentAllows Aligned EveryByte
  decide
theorem witness_Stores_double :
    low.mem.wf = true ∧ low.cfg.xlen = .rv64 ∧ low.cfg.hasD = true ∧
      StoreAllowed low (addrDouble 0 31 low).toNat 8 := by
  unfold StoreAllowed AlignmentAllows Aligned EveryByte
  decide
theorem witness_Stores_doubleSp :
    low.mem.wf = true ∧ low.cfg.xlen = .rv64 ∧ low.cfg.hasD = true ∧
      StoreAllowed low (addrDoubleSp 31 low).toNat 8 := by
  unfold StoreAllowed AlignmentAllows Aligned EveryByte
  decide
/-- A split access, one byte into the page. -/
theorem witness_Loads_split :
    LoadAllowed (data { conf .rv32 with misaligned := .split } 0 0 0x2001)
      (addrWord 0 0 (data { conf .rv32 with misaligned := .split } 0 0 0x2001)).toNat 4 := by
  unfold LoadAllowed AlignmentAllows Aligned EveryByte
  decide

theorem witness_LoadStops_misaligned :
    ¬ AlignmentAllows (data (conf .rv64) 0x2FFA 0 0x2FFE)
        (addrWord 0 0 (data (conf .rv64) 0x2FFA 0 0x2FFE)).toNat 4 ∧
      ¬ AlignmentAllows (data (conf .rv64) 0x2FFA 0 0x2FFE)
        (addrWordSp 0 (data (conf .rv64) 0x2FFA 0 0x2FFE)).toNat 4 ∧
      ¬ AlignmentAllows (data (conf .rv64) 0x2FFC 0 0x2FFC)
        (addrDouble 0 0 (data (conf .rv64) 0x2FFC 0 0x2FFC)).toNat 8 ∧
      ¬ AlignmentAllows (data (conf .rv64) 0x2FFC 0 0x2FFC)
        (addrDoubleSp 0 (data (conf .rv64) 0x2FFC 0 0x2FFC)).toNat 8 := by
  unfold AlignmentAllows Aligned
  decide
/-- The first word and doubleword past the page of data, and a split word across its end. -/
theorem witness_LoadStops_access :
    (AlignmentAllows (data (conf .rv64) 0x2FFC 0 0x2FFC)
        (addrWord 0 1 (data (conf .rv64) 0x2FFC 0 0x2FFC)).toNat 4 ∧
      ¬ EveryByte (data (conf .rv64) 0x2FFC 0 0x2FFC)
        (addrWord 0 1 (data (conf .rv64) 0x2FFC 0 0x2FFC)).toNat 4
        (data (conf .rv64) 0x2FFC 0 0x2FFC).readableAt) ∧
    (AlignmentAllows (data (conf .rv64) 0x2FF8 0 0x2FF8)
        (addrDoubleSp 1 (data (conf .rv64) 0x2FF8 0 0x2FF8)).toNat 8 ∧
      ¬ EveryByte (data (conf .rv64) 0x2FF8 0 0x2FF8)
        (addrDoubleSp 1 (data (conf .rv64) 0x2FF8 0 0x2FF8)).toNat 8
        (data (conf .rv64) 0x2FF8 0 0x2FF8).readableAt) ∧
    (AlignmentAllows (data { conf .rv32 with misaligned := .split } 0 0 0x2FFE)
        (addrWord 0 0 (data { conf .rv32 with misaligned := .split } 0 0 0x2FFE)).toNat 4 ∧
      ¬ EveryByte (data { conf .rv32 with misaligned := .split } 0 0 0x2FFE)
        (addrWord 0 0 (data { conf .rv32 with misaligned := .split } 0 0 0x2FFE)).toNat 4
        (data { conf .rv32 with misaligned := .split } 0 0 0x2FFE).readableAt) := by
  unfold AlignmentAllows Aligned EveryByte
  decide
/-- A read-only word and doubleword. -/
theorem witness_StoreStops_access :
    (AlignmentAllows (data (conf .rv64) 0x40F8 0 0x40F8)
        (addrWordSp 0 (data (conf .rv64) 0x40F8 0 0x40F8)).toNat 4 ∧
      ¬ EveryByte (data (conf .rv64) 0x40F8 0 0x40F8)
        (addrWordSp 0 (data (conf .rv64) 0x40F8 0 0x40F8)).toNat 4
        (data (conf .rv64) 0x40F8 0 0x40F8).writableAt) ∧
    (AlignmentAllows (data (conf .rv64) 0x40F8 0 0x40F8)
        (addrDouble 0 0 (data (conf .rv64) 0x40F8 0 0x40F8)).toNat 8 ∧
      ¬ EveryByte (data (conf .rv64) 0x40F8 0 0x40F8)
        (addrDouble 0 0 (data (conf .rv64) 0x40F8 0 0x40F8)).toNat 8
        (data (conf .rv64) 0x40F8 0 0x40F8).writableAt) := by
  unfold AlignmentAllows Aligned EveryByte
  decide
/-- A word and a doubleword that are writable and executable. -/
theorem witness_StoreStops_code :
    (AlignmentAllows (data (conf .rv64) 0x50F8 0 0x50F8)
        (addrWord 0 1 (data (conf .rv64) 0x50F8 0 0x50F8)).toNat 4 ∧
      EveryByte (data (conf .rv64) 0x50F8 0 0x50F8)
        (addrWord 0 1 (data (conf .rv64) 0x50F8 0 0x50F8)).toNat 4
        (data (conf .rv64) 0x50F8 0 0x50F8).writableAt ∧
      ¬ EveryByte (data (conf .rv64) 0x50F8 0 0x50F8)
        (addrWord 0 1 (data (conf .rv64) 0x50F8 0 0x50F8)).toNat 4
        fun b => !(data (conf .rv64) 0x50F8 0 0x50F8).executableAt b) ∧
    (AlignmentAllows (data (conf .rv64) 0x50F8 0 0x50F8)
        (addrDoubleSp 0 (data (conf .rv64) 0x50F8 0 0x50F8)).toNat 8 ∧
      EveryByte (data (conf .rv64) 0x50F8 0 0x50F8)
        (addrDoubleSp 0 (data (conf .rv64) 0x50F8 0 0x50F8)).toNat 8
        (data (conf .rv64) 0x50F8 0 0x50F8).writableAt ∧
      ¬ EveryByte (data (conf .rv64) 0x50F8 0 0x50F8)
        (addrDoubleSp 0 (data (conf .rv64) 0x50F8 0 0x50F8)).toNat 8
        fun b => !(data (conf .rv64) 0x50F8 0 0x50F8).executableAt b) := by
  unfold AlignmentAllows Aligned EveryByte
  decide

theorem witness_LoadReturnsStoredWord :
    low.mem.wf = true ∧ StoreAllowed low (addrWord 0 31 low).toNat 4 ∧
      LoadAllowed low (addrWord 0 31 low).toNat 4 := by
  unfold StoreAllowed LoadAllowed AlignmentAllows Aligned EveryByte
  decide
theorem witness_HalvesOfStoredDoubleword :
    (putM 0x2000 8 0x0102030405060708 low).mem.wf = true := by decide
theorem witness_EqualContentsEqualMemory :
    (putM 0x2000 2 0x0201 (State.launch (conf .rv64))).mem.wf = true ∧
      (putM 0x2000 1 0x01 (putM 0x2001 1 0x02 (State.launch (conf .rv64)))).mem.wf = true ∧
      (putM 0x2000 2 0x0201 (State.launch (conf .rv64))).mem =
        (putM 0x2000 1 0x01 (putM 0x2001 1 0x02 (State.launch (conf .rv64)))).mem := by decide

theorem witness_CsrResults :
    low.csrs.wf = true ∧ low.csrKind 0x340 = .plain := by decide
theorem witness_CsrStops :
    Instr.csrrs 5 0x342 6 ∈ csrInstrs 5 0x342 6 0 ∧ low.csrKind 0x342 = .other ∧
      low.csrKind 0xFFF = .absent ∧ low.csrKind 0 = .absent := by decide

theorem witness_DivisionCorners_zero :
    (putX 7 0 low).xval 7 = 0 ∧ (putX 7 0x100000000 low).xval 7 % 2 ^ 32 = 0 := by decide
theorem witness_DivisionCorners_overflow :
    (putX 6 0x8000000000000000 (putX 7 0xFFFFFFFFFFFFFFFF low)).xint 6 = -2 ^ (low.w - 1) ∧
      (putX 6 0x8000000000000000 (putX 7 0xFFFFFFFFFFFFFFFF low)).xint 7 = -1 := by decide
theorem witness_DivisionCorners_overflow_word :
    (putX 6 0x80000000 (putX 7 0xFFFFFFFF low)).xval 6 % 2 ^ 32 = 2 ^ 31 ∧
      (putX 6 0x80000000 (putX 7 0xFFFFFFFF low)).xval 7 % 2 ^ 32 = 2 ^ 32 - 1 := by decide

theorem witness_EnvironmentInstructionsTrap : low.cfg.hasC = true := by decide

theorem witness_OnlyTheirInstructionsChange_f :
    ∃ t, exec (.cFldsp 1 0) (putM 0x2F00 8 5 low) = .next t ∧ (t.fget 1).toNat = 5 :=
  next_of_seen (by decide)
theorem witness_OnlyTheirInstructionsChange_csr :
    ∃ t, exec (.csrrwi 0 0x340 9) low = .next t ∧ t.csrVal 0x340 = 9 := next_of_seen (by decide)
theorem witness_OnlyTheirInstructionsChange_mem :
    ∃ t, exec (.cSwsp 2 0) low = .next t ∧ t.byteAt 0x2F01 = 0x2F := next_of_seen (by decide)
theorem witness_OnlyTheirInstructionsChange_x :
    ∃ t, exec (.cLi 31 1) low = .next t ∧ t.xval 31 = 1 := next_of_seen (by decide)

theorem witness_TrapsReport_environment :
    step (start (conf .rv32) (.full 0x00000073)) = .fault (.trap .environmentCall 0x1000 none) :=
  fault_of_trapOf (by decide)
theorem witness_TrapsReport_breakpoint :
    step (start (conf .rv32) (.half 0x9002)) = .fault (.trap .breakpoint 0x1000 none) :=
  fault_of_trapOf (by decide)
theorem witness_TrapsReport_odd :
    step (start (conf .rv32) (.half 0x9002) |> putPc 0x1001) =
      .fault (.trap .instructionAddressMisaligned 0x1001 (some 0x1001)) :=
  fault_of_trapOf (by decide)
theorem witness_TrapsReport_fetch :
    step (atEnd 0x02B3) = .fault (.trap .instructionAccessFault 0x10FE (some 0x10FE)) :=
  fault_of_trapOf (by decide)
theorem witness_TrapsReport_illegal :
    step (start (conf .rv32) (.half 0x8002)) =
      .fault (.trap .illegalInstruction 0x1000 (some 0x8002)) :=
  fault_of_trapOf (by decide)
theorem witness_TrapsReport_load :
    step (with3 (conf .rv32) (.half 0x4004) 0 0 0x2001) =
      .fault (.trap .loadAddressMisaligned 0x1000 (some 0x2001)) :=
  fault_of_trapOf (by decide)
theorem witness_TrapsReport_loadAccess :
    step (with3 (conf .rv32) (.half 0x4004) 0 0 0x8000) =
      .fault (.trap .loadAccessFault 0x1000 (some 0x8000)) :=
  fault_of_trapOf (by decide)
theorem witness_TrapsReport_store :
    step (with3 (conf .rv32) (.full 0x0063A2AF) 0 0x2002 0) =
      .fault (.trap .storeAddressMisaligned 0x1000 (some 0x2002)) :=
  fault_of_trapOf (by decide)
theorem witness_TrapsReport_storeAccess :
    step (with3 (conf .rv32) (.half 0xC004) 0 0 0x1010) =
      .fault (.trap .storeAccessFault 0x1000 (some 0x1010)) :=
  fault_of_trapOf (by decide)

/-- A backward branch, at an even `pc`. -/
theorem witness_PcStaysEven :
    (start (conf .rv32) (.full 0xFE730FE3)).pcNat % 2 = 0 ∧
      ∃ t, step (start (conf .rv32) (.full 0xFE730FE3)) = .next t ∧ t.pcNat = 0xFFE :=
  ⟨by decide, next_of_seen (by decide)⟩

/-- A state in canonical form whose step stores. -/
theorem witness_StepKeepsInvariant :
    (with3 (conf .rv64) (.half 0xC004) 0x2F00 0 0x2F00).Inv ∧
      ∃ t, step (with3 (conf .rv64) (.half 0xC004) 0x2F00 0 0x2F00) = .next t ∧
        t.pcNat = 0x1002 :=
  ⟨⟨by decide, by decide, by decide, by decide, by decide, by decide, by decide, by decide,
    by decide⟩, next_of_seen (by decide)⟩

/-- A run of one step, and a byte of code. -/
theorem witness_RunsKeepCodeAndParameters :
    (with3 (conf .rv64) (.half 0xC004) 0x2F00 0 0x2F00).mem.wf = true ∧
      (with3 (conf .rv64) (.half 0xC004) 0x2F00 0 0x2F00).executableAt 0x1000 = true ∧
      ∃ t, Runs (with3 (conf .rv64) (.half 0xC004) 0x2F00 0 0x2F00) t ∧ t.pcNat = 0x1002 := by
  refine ⟨by decide, by decide, ?_⟩
  obtain ⟨t, ht, hp⟩ := next_of_seen
    (o := step (with3 (conf .rv64) (.half 0xC004) 0x2F00 0 0x2F00)) (f := State.pcNat)
    (v := 0x1002) (by decide)
  exact ⟨t, .more ht (.here t), hp⟩

end Sys2Proof.Tests
end

section
/-! The scope statement: what a step is where its fetched word decodes to an instruction. -/
namespace Sys2Proof.Machine

/-- Where the fetch answers a word, the step runs what that word decodes to (`00_scope.md` R11). -/
theorem step_of_fetch_code {s : State} {c : Code} (hf : fetch s = .code c) :
    step s = runDecoded c (decode s.cfg c) s := by
  simp only [step, hf]

@[simp] theorem runDecoded_instr (c : Code) (i : Instr) (s : State) :
    runDecoded c (.instr i) s = exec i s := rfl

/-- Settles O10: the fetch leaves the step with the decoded word, and running a decoded instruction
is its `exec`. -/
theorem stepRunsDecodedInstruction : Obligations.StepRunsDecodedInstruction := by
  intro s c i hfetch hdecode
  calc step s = runDecoded c (decode s.cfg c) s := step_of_fetch_code hfetch
    _ = runDecoded c (.instr i) s := by rw [hdecode]
    _ = exec i s := runDecoded_instr c i s

end Sys2Proof.Machine
end

section
/-! Fetch: what it reads and checks, in numbers, and what it answers in each case (`20_memory.md`
R59). -/
namespace Sys2Proof.Machine

/-! ## Addresses modulo 2^XLEN, and numbers cut in two -/

theorem everyByte_mod (s : State) (a n : Nat) (p : Nat → Bool) :
    EveryByte s (a % 2 ^ s.w) n p ↔ EveryByte s a n p := by
  simp only [EveryByte, Nat.mod_add_mod]

theorem State.numAt_mod (s : State) (a n : Nat) : s.numAt (a % 2 ^ s.w) n = s.numAt a n := by
  simp only [State.numAt_eq, Nat.mod_add_mod]

/-- The number of `m + n` bytes: the first `m` below, the other `n` above them. -/
theorem State.numAt_add (s : State) (a m n : Nat) :
    s.numAt a (m + n) = s.numAt a m + 2 ^ (8 * m) * s.numAt (a + m) n := by
  induction m generalizing a with
  | zero => simp [State.numAt]
  | succ m ih =>
    have hadd : a + 1 + m = a + (m + 1) := by omega
    have hpow : 2 ^ (8 * (m + 1)) = 256 * 2 ^ (8 * m) := by rw [Nat.mul_succ, pow_add]; omega
    rw [Nat.succ_add, State.numAt, State.numAt, ih, hadd, hpow]
    ring

/-- Two accesses that follow each other, put together, are one access. -/
theorem State.bytesAt_append (s : State) (a : BitVec s.w) :
    s.bytesAt (a + 2#s.w) 2 ++ s.bytesAt a 2 = BitVec.ofNat 32 (s.numAt a.toNat 4) := by
  apply BitVec.eq_of_toNat_eq
  have hlow : s.numAt a.toNat 2 < 2 ^ 16 := s.numAt_lt a.toNat 2
  have hall : s.numAt a.toNat 4 < 2 ^ 32 := s.numAt_lt a.toNat 4
  have hhigh : (s.bytesAt (a + 2#s.w) 2).toNat = s.numAt (a.toNat + 2) 2 := by
    rw [State.toNat_bytesAt, byteAddr_toNat, State.numAt_mod]
  calc (s.bytesAt (a + 2#s.w) 2 ++ s.bytesAt a 2).toNat
      = s.numAt (a.toNat + 2) 2 * 2 ^ 16 + s.numAt a.toNat 2 := by
        rw [BitVec.toNat_append, hhigh, State.toNat_bytesAt, Nat.shiftLeft_eq,
          Nat.mul_comm _ (2 ^ _), Nat.two_pow_add_eq_or_of_lt hlow]
    _ = s.numAt a.toNat 4 := by
        rw [s.numAt_add a.toNat 2 2]
        ring
    _ = (BitVec.ofNat 32 (s.numAt a.toNat 4)).toNat := by
        rw [BitVec.toNat_ofNat, Nat.mod_eq_of_lt hall]

/-! ## The tests of a fetch -/

theorem pcv_bit_zero_iff (s : State) : s.pcv.getLsbD 0 = true ↔ s.pcNat % 2 = 1 := by
  simp [State.pcNat, BitVec.getLsbD, Nat.testBit_zero]

theorem parcelAllowed_iff (s : State) (a : BitVec s.w) :
    s.parcelAllowed a = true ↔ EveryByte s a.toNat 2 s.executableAt :=
  all_byteAddrs s a 2 _

theorem parcelAllowed_second_iff (s : State) (a : BitVec s.w) :
    s.parcelAllowed (a + 2#s.w) = true ↔ EveryByte s (a.toNat + 2) 2 s.executableAt := by
  rw [parcelAllowed_iff, byteAddr_toNat, everyByte_mod]

theorem isLong_iff (p : BitVec 16) : isLong p = true ↔ p.toNat % 4 = 3 := by
  simp [isLong, ← BitVec.toNat_inj]

theorem isLong_bytesAt_iff (s : State) (a : BitVec s.w) :
    isLong (s.bytesAt a 2) = true ↔ s.numAt a.toNat 2 % 4 = 3 := by
  rw [isLong_iff, State.toNat_bytesAt]

/-! ## The five answers of a fetch -/

section
variable {s : State}

theorem fetch_of_odd (hodd : s.pcNat % 2 = 1) : fetch s = .failed .instructionAddressMisaligned :=
  if_pos ((pcv_bit_zero_iff s).mpr hodd)

theorem not_pcv_bit_zero (heven : s.pcNat % 2 = 0) : ¬ s.pcv.getLsbD 0 = true := by
  rw [pcv_bit_zero_iff]
  omega

theorem fetch_of_first_denied (heven : s.pcNat % 2 = 0)
    (hfirst : ¬ EveryByte s s.pcNat 2 s.executableAt) :
    fetch s = .failed .instructionAccessFault := by
  have hdenied : s.parcelAllowed s.pcv = false :=
    Bool.eq_false_iff.mpr (mt (parcelAllowed_iff s s.pcv).mp hfirst)
  rw [fetch, if_neg (not_pcv_bit_zero heven), if_pos hdenied]

/-- Past the checks of the first parcel, its low bits decide. -/
theorem fetch_of_first_allowed (heven : s.pcNat % 2 = 0)
    (hfirst : EveryByte s s.pcNat 2 s.executableAt) :
    fetch s =
      if isLong (s.bytesAt s.pcv 2) = false then .code (.half (s.bytesAt s.pcv 2))
      else if s.parcelAllowed (s.pcv + 2#s.w) = false then .failed .instructionAccessFault
      else .code (.full (s.bytesAt (s.pcv + 2#s.w) 2 ++ s.bytesAt s.pcv 2)) := by
  have hallowed : s.parcelAllowed s.pcv = true := (parcelAllowed_iff s s.pcv).mpr hfirst
  rw [fetch, if_neg (not_pcv_bit_zero heven), if_neg (by rw [hallowed]; decide)]

theorem fetch_of_short (heven : s.pcNat % 2 = 0) (hfirst : EveryByte s s.pcNat 2 s.executableAt)
    (hshort : s.numAt s.pcNat 2 % 4 ≠ 3) :
    fetch s = .code (.half (BitVec.ofNat 16 (s.numAt s.pcNat 2))) := by
  have hbits : isLong (s.bytesAt s.pcv 2) = false :=
    Bool.eq_false_iff.mpr (mt (isLong_bytesAt_iff s s.pcv).mp hshort)
  have hparcel : s.bytesAt s.pcv 2 = BitVec.ofNat 16 (s.numAt s.pcNat 2) := by
    rw [State.pcNat, ← State.toNat_bytesAt, BitVec.ofNat_toNat, BitVec.setWidth_eq]
  rw [fetch_of_first_allowed heven hfirst, if_pos hbits, hparcel]

theorem fetch_of_long (heven : s.pcNat % 2 = 0) (hfirst : EveryByte s s.pcNat 2 s.executableAt)
    (hlong : s.numAt s.pcNat 2 % 4 = 3) :
    fetch s =
      if s.parcelAllowed (s.pcv + 2#s.w) = false then .failed .instructionAccessFault
      else .code (.full (BitVec.ofNat 32 (s.numAt s.pcNat 4))) := by
  have hbits : isLong (s.bytesAt s.pcv 2) = true := (isLong_bytesAt_iff s s.pcv).mpr hlong
  rw [fetch_of_first_allowed heven hfirst, if_neg (by rw [hbits]; decide), State.bytesAt_append,
    State.pcNat]

theorem fetch_of_second_denied (heven : s.pcNat % 2 = 0)
    (hfirst : EveryByte s s.pcNat 2 s.executableAt) (hlong : s.numAt s.pcNat 2 % 4 = 3)
    (hsecond : ¬ EveryByte s (s.pcNat + 2) 2 s.executableAt) :
    fetch s = .failed .instructionAccessFault := by
  have hdenied : s.parcelAllowed (s.pcv + 2#s.w) = false :=
    Bool.eq_false_iff.mpr (mt (parcelAllowed_second_iff s s.pcv).mp hsecond)
  rw [fetch_of_long heven hfirst hlong, if_pos hdenied]

theorem fetch_of_second_allowed (heven : s.pcNat % 2 = 0)
    (hfirst : EveryByte s s.pcNat 2 s.executableAt) (hlong : s.numAt s.pcNat 2 % 4 = 3)
    (hsecond : EveryByte s (s.pcNat + 2) 2 s.executableAt) :
    fetch s = .code (.full (BitVec.ofNat 32 (s.numAt s.pcNat 4))) := by
  have hallowed : s.parcelAllowed (s.pcv + 2#s.w) = true :=
    (parcelAllowed_second_iff s s.pcv).mpr hsecond
  rw [fetch_of_long heven hfirst hlong, if_neg (by rw [hallowed]; decide)]

end

/-- Settles O9: one lemma per answer of the fetch, in the order of its checks. -/
theorem fetchReadsOneOrTwoParcels : Obligations.FetchReadsOneOrTwoParcels := fun _ =>
  ⟨fetch_of_odd, fetch_of_first_denied, fetch_of_short, fetch_of_second_denied,
    fetch_of_second_allowed⟩

end Sys2Proof.Machine
end

section
/-! Words of well-formed instructions (`30_encoding.md` R100 to R102): the decoder gives the
instruction back. -/
namespace Sys2Proof

/-! ## Rows whose condition holds -/

@[simp] theorem rowIf_true (d : Decoded) : rowIf true d = d := rfl

@[simp] theorem legalIf_true (i : Instr) : legalIf true i = .instr i := rfl

theorem legalIf_ne {n : Nat} {a b : BitVec n} (h : a ≠ b) (i : Instr) :
    legalIf (a != b) i = .instr i := by
  rw [bne_iff_ne.mpr h, legalIf_true]

/-! ## Which part of the decoder reads a word -/

section
variable {cfg : Config} {w : BitVec 32}

theorem decode_of_op (h : opcodeOf w = 0b0110011#7) : decode cfg (.full w) = decodeOp cfg w := by
  simp [decode, decode32, h]

theorem decode_of_op32 (h : opcodeOf w = 0b0111011#7) :
    decode cfg (.full w) = decodeOp32 cfg w := by
  simp [decode, decode32, h]

theorem decode_of_branch (h : opcodeOf w = 0b1100011#7) :
    decode cfg (.full w) = decodeBranch w := by
  simp [decode, decode32, h]

theorem decode_of_amoW (h : opcodeOf w = 0b0101111#7) (h3 : funct3Of w = 0b010#3) :
    decode cfg (.full w) = decodeAmoW cfg w := by
  simp [decode, decode32, h, h3]

theorem decode_of_amoD (h : opcodeOf w = 0b0101111#7) (h3 : funct3Of w = 0b011#3) :
    decode cfg (.full w) = decodeAmoD cfg w := by
  simp [decode, decode32, h, h3]

theorem decode_of_system (h : opcodeOf w = 0b1110011#7) :
    decode cfg (.full w) = decodeSystem w := by
  simp [decode, decode32, h]

end

section
variable {cfg : Config} {w : BitVec 16} (hC : cfg.hasC = true)
include hC

theorem decode_of_c0 (h : cOpOf w = 0b00#2) : decode cfg (.half w) = decodeC0 cfg w := by
  simp [decode, decode16, h, hC]

theorem decode_of_c1 (h : cOpOf w = 0b01#2) : decode cfg (.half w) = decodeC1 cfg w := by
  simp [decode, decode16, h, hC]

theorem decode_of_c2 (h : cOpOf w = 0b10#2) : decode cfg (.half w) = decodeC2 cfg w := by
  simp [decode, decode16, h, hC]

theorem decode_of_cAlu (h : cOpOf w = 0b01#2) (h3 : cFunct3Of w = 0b100#3) :
    decode cfg (.half w) = decodeCAlu cfg w := by
  simp [decode_of_c1 hC h, decodeC1, h3]

theorem decode_of_cr (h : cOpOf w = 0b10#2) (h3 : cFunct3Of w = 0b100#3) :
    decode cfg (.half w) = decodeCR w := by
  simp [decode_of_c2 hC h, decodeC2, h3]

end

/-! ## The decoder on the encoder's words -/

/-- The constructors in the groups that one part of the decoder reads: there the fields of the
encoded word lead to the constructor's own row, and well-formedness to its answer. -/
theorem decode_encode {cfg : Config} {i : Instr} (h : i.wellFormed cfg = true) :
    decode cfg (encode i) = .instr i := by
  obtain ⟨havailable, hlegal⟩ := Bool.and_eq_true_iff.mp h
  cases i with
  | add | and | div | divu => simp_all [Instr.available, encode, decode_of_op, decodeOp]
  | addw | divw | divuw => simp_all [Instr.available, encode, decode_of_op32, decodeOp32]
  | addi | andi | addiw | auipc =>
    simp_all [Instr.available, encode, decode, decode32]
  | beq | bge | bgeu | blt | bltu | bne => simp [encode, decode_of_branch, decodeBranch]
  | amoaddW | amoandW | amomaxW | amomaxuW | amominW | amominuW | amoorW | amoswapW | amoxorW =>
    simp_all [Instr.available, encode, decode_of_amoW, decodeAmoW]
  | amoaddD | amoandD | amomaxD | amomaxuD | amominD | amominuD | amoorD | amoswapD | amoxorD =>
    simp_all [Instr.available, encode, decode_of_amoD, decodeAmoD]
  | csrrc | csrrci | csrrs | csrrsi | csrrw | csrrwi =>
    simp [encode, decode_of_system, decodeSystem]
  | ecall | ebreak => rfl
  | cAddi4spn | cFld | cLw | cFlw | cLd | cFsd | cSw | cFsw | cSd =>
    simp_all [Instr.available, Instr.operandsLegal, encode, decode_of_c0, decodeC0, legalIf_ne]
  | cAddi | cJal | cAddiw | cLi | cLui | cAddi16sp | cJ | cBeqz | cBnez =>
    simp_all [Instr.available, Instr.operandsLegal, encode, decode_of_c1, decodeC1, legalIf_ne]
  | cSrli | cSrai | cAndi | cSub | cXor | cOr | cAnd | cSubw | cAddw =>
    simp_all [Instr.available, Instr.operandsLegal, encode, decode_of_cAlu, decodeCAlu]
  | cSlli | cFldsp | cLwsp | cFlwsp | cLdsp | cFsdsp | cSwsp | cFswsp | cSdsp =>
    simp_all [Instr.available, Instr.operandsLegal, encode, decode_of_c2, decodeC2, legalIf_ne]
  | cJr | cMv | cJalr | cAdd =>
    simp_all [Instr.available, Instr.operandsLegal, encode, decode_of_cr, decodeCR, legalIf_ne]
  | cEbreak => exact decode_of_cr havailable rfl rfl

/-- Settles O2: a word built from its fields is read by the row of its instruction. -/
theorem decodeOfEncode : Obligations.DecodeOfEncode := fun _ _ => decode_encode

end Sys2Proof
end

section
/-! Words that decode (`30_encoding.md` R100 to R102): the word is the answer's own word, and the
answer's operands are legal. -/
namespace Sys2Proof

/-! ## A word with the fixed fields of a format is that format's word -/

section
variable {w : BitVec 32}

theorem encR_eq {f7 : BitVec 7} {f3 : BitVec 3} {op : BitVec 7} (hop : opcodeOf w = op)
    (h7 : funct7Of w = f7) (h3 : funct3Of w = f3) :
    Code.full (encR f7 (rs2Of w) (rs1Of w) f3 (rdOf w) op) = .full w := by
  rw [← h7, ← h3, ← hop, encR_fields]

theorem encI_eq {f3 : BitVec 3} {op : BitVec 7} (hop : opcodeOf w = op) (h3 : funct3Of w = f3) :
    Code.full (encI (imm12Of w) (rs1Of w) f3 (rdOf w) op) = .full w := by
  rw [← h3, ← hop, encI_fields]

theorem encU_eq {op : BitVec 7} (hop : opcodeOf w = op) :
    Code.full (encU (imm20Of w) (rdOf w) op) = .full w := by
  rw [← hop, encU_fields]

theorem encB_eq {f3 : BitVec 3} (hop : opcodeOf w = 0b1100011#7) (h3 : funct3Of w = f3) :
    Code.full (encB (offsetBOf w) (rs2Of w) (rs1Of w) f3) = .full w := by
  rw [← h3, encB_fields w hop]

theorem encAmo_eq {f5 : BitVec 5} {f3 : BitVec 3} (hop : opcodeOf w = 0b0101111#7)
    (h3 : funct3Of w = f3) (h5 : funct5Of w = f5) :
    Code.full (encAmo f5 (aqOf w) (rlOf w) (rs2Of w) (rs1Of w) f3 (rdOf w)) = .full w := by
  rw [← h3, ← h5, encAmo_fields w hop]

end

section
variable {w : BitVec 16} {f3 : BitVec 3}

theorem encCR_eq {b : BitVec 1} {rd rs2 : Reg} (hop : cOpOf w = 0b10#2)
    (h3 : cFunct3Of w = 0b100#3) (hb : cBit12Of w = b) (hrd : cRdOf w = rd)
    (hrs2 : cRs2Of w = rs2) :
    Code.half (encCR b rd rs2) = .half w := by
  rw [← hb, ← hrd, ← hrs2, encCR_fields w hop h3]

theorem encCI_eq {op : BitVec 2} (hop : cOpOf w = op) (h3 : cFunct3Of w = f3) :
    Code.half (encCI f3 (immCIOf w) (cRdOf w) op) = .half w := by
  rw [← h3, ← hop, encCI_fields]

theorem encCLWord_eq (hop : cOpOf w = 0b00#2) (h3 : cFunct3Of w = f3) :
    Code.half (encCLWord f3 (uimmWordOf w) (cHighRegOf w) (cLowRegOf w)) = .half w := by
  rw [← h3, encCLWord_fields w hop]

theorem encCLDouble_eq (hop : cOpOf w = 0b00#2) (h3 : cFunct3Of w = f3) :
    Code.half (encCLDouble f3 (uimmDoubleOf w) (cHighRegOf w) (cLowRegOf w)) = .half w := by
  rw [← h3, encCLDouble_fields w hop]

theorem encLwsp_eq (hop : cOpOf w = 0b10#2) (h3 : cFunct3Of w = f3) :
    Code.half (encLwsp f3 (uimmLwspOf w) (cRdOf w)) = .half w := by
  rw [← h3, encLwsp_fields w hop]

theorem encLdsp_eq (hop : cOpOf w = 0b10#2) (h3 : cFunct3Of w = f3) :
    Code.half (encLdsp f3 (uimmLdspOf w) (cRdOf w)) = .half w := by
  rw [← h3, encLdsp_fields w hop]

theorem encSwsp_eq (hop : cOpOf w = 0b10#2) (h3 : cFunct3Of w = f3) :
    Code.half (encSwsp f3 (uimmSwspOf w) (cRs2Of w)) = .half w := by
  rw [← h3, encSwsp_fields w hop]

theorem encSdsp_eq (hop : cOpOf w = 0b10#2) (h3 : cFunct3Of w = f3) :
    Code.half (encSdsp f3 (uimmSdspOf w) (cRs2Of w)) = .half w := by
  rw [← h3, encSdsp_fields w hop]

theorem encCA_eq {f6 : BitVec 6} {b : BitVec 1} {f2 g2 : BitVec 2} (hop : cOpOf w = 0b01#2)
    (h3 : cFunct3Of w = f3) (hb : cBit12Of w = b) (h2 : cFunct2Of w = f2)
    (hg : cLowFunct2Of w = g2) (h6 : f3 ++ b ++ f2 = f6) :
    Code.half (encCA f6 (cHighRegOf w) g2 (cLowRegOf w)) = .half w := by
  rw [← h6, ← h3, ← h2, ← hb, ← hg, encCA_fields w hop]

theorem encCB_eq (hop : cOpOf w = 0b01#2) (h3 : cFunct3Of w = f3) :
    Code.half (encCB f3 (offsetCBOf w) (cHighRegOf w)) = .half w := by
  rw [← h3, encCB_fields w hop]

theorem encCBAlu_eq {f2 : BitVec 2} (hop : cOpOf w = 0b01#2) (h3 : cFunct3Of w = 0b100#3)
    (h2 : cFunct2Of w = f2) : Code.half (encCBAlu (immCIOf w) f2 (cHighRegOf w)) = .half w := by
  rw [← h2, encCBAlu_fields w hop h3]

theorem encCJ_eq (hop : cOpOf w = 0b01#2) (h3 : cFunct3Of w = f3) :
    Code.half (encCJ f3 (offsetCJOf w)) = .half w := by
  rw [← h3, encCJ_fields w hop]

end

/-! ## Faithful answers -/

/-- If the answer is an instruction, `c` is its word and it is well-formed. -/
def Decoded.Faithful (cfg : Config) (c : Code) (d : Decoded) : Prop :=
  ∀ i, d = .instr i → encode i = c ∧ i.wellFormed cfg = true

section
variable {cfg : Config} {c : Code}

theorem faithful_instr {i : Instr} (hword : encode i = c) (havailable : i.available cfg = true)
    (hlegal : i.operandsLegal cfg = true) : (Decoded.instr i).Faithful cfg c := by
  rintro _ ⟨⟩
  exact ⟨hword, Bool.and_intro havailable hlegal⟩

theorem faithful_notInExcerpt : Decoded.notInExcerpt.Faithful cfg c := nofun

theorem faithful_ite {p : Prop} [Decidable p] {d e : Decoded} (hd : p → d.Faithful cfg c)
    (he : ¬ p → e.Faithful cfg c) : (if p then d else e).Faithful cfg c := by
  split
  · exact hd ‹_›
  · exact he ‹_›

theorem faithful_rowIf {present : Bool} {d : Decoded}
    (hd : present = true → d.Faithful cfg c) : (rowIf present d).Faithful cfg c :=
  faithful_ite hd fun _ => faithful_notInExcerpt

theorem faithful_legalIf {ok : Bool} {i : Instr}
    (hi : ok = true → (Decoded.instr i).Faithful cfg c) : (legalIf ok i).Faithful cfg c :=
  faithful_ite hi fun _ => nofun

theorem faithful_xlen {d e : Decoded} (hd : cfg.xlen = .rv32 → d.Faithful cfg c)
    (he : cfg.xlen = .rv64 → e.Faithful cfg c) :
    (match cfg.xlen with | .rv32 => d | .rv64 => e).Faithful cfg c := by
  split
  · exact hd ‹_›
  · exact he ‹_›

end

/-! ## 32-bit words, decoder by decoder -/

section
variable {cfg : Config} {w : BitVec 32}

theorem decodeOp_faithful (hop : opcodeOf w = 0b0110011#7) :
    (decodeOp cfg w).Faithful cfg (.full w) :=
  faithful_ite
    (fun h7 => faithful_ite (fun h3 => faithful_instr (encR_eq hop h7 h3) rfl rfl) fun _ =>
      faithful_ite (fun h3 => faithful_instr (encR_eq hop h7 h3) rfl rfl) fun _ =>
      faithful_notInExcerpt) fun _ =>
  faithful_ite
    (fun h7 =>
      faithful_ite (fun h3 => faithful_rowIf fun hM =>
        faithful_instr (encR_eq hop h7 h3) hM rfl) fun _ =>
      faithful_ite (fun h3 => faithful_rowIf fun hM =>
        faithful_instr (encR_eq hop h7 h3) hM rfl) fun _ =>
      faithful_notInExcerpt) fun _ =>
  faithful_notInExcerpt

theorem decodeOp32_faithful (hop : opcodeOf w = 0b0111011#7) :
    (decodeOp32 cfg w).Faithful cfg (.full w) :=
  faithful_ite
    (fun h7 =>
      faithful_ite (fun h3 => faithful_rowIf fun h64 =>
        faithful_instr (encR_eq hop h7 h3) h64 rfl) fun _ =>
      faithful_notInExcerpt) fun _ =>
  faithful_ite
    (fun h7 =>
      faithful_ite (fun h3 => faithful_rowIf fun hM =>
        faithful_instr (encR_eq hop h7 h3) hM rfl) fun _ =>
      faithful_ite (fun h3 => faithful_rowIf fun hM =>
        faithful_instr (encR_eq hop h7 h3) hM rfl) fun _ =>
      faithful_notInExcerpt) fun _ =>
  faithful_notInExcerpt

theorem decodeBranch_faithful (hop : opcodeOf w = 0b1100011#7) :
    (decodeBranch w).Faithful cfg (.full w) := by
  unfold decodeBranch
  split_ifs
  case neg => exact faithful_notInExcerpt
  all_goals exact faithful_instr (encB_eq hop ‹_›) rfl rfl

theorem decodeAmoW_faithful (hop : opcodeOf w = 0b0101111#7) (h3 : funct3Of w = 0b010#3) :
    (decodeAmoW cfg w).Faithful cfg (.full w) := by
  refine faithful_rowIf fun hA => ?_
  split_ifs
  case neg => exact faithful_notInExcerpt
  all_goals exact faithful_instr (encAmo_eq hop h3 ‹_›) hA rfl

theorem decodeAmoD_faithful (hop : opcodeOf w = 0b0101111#7) (h3 : funct3Of w = 0b011#3) :
    (decodeAmoD cfg w).Faithful cfg (.full w) := by
  refine faithful_rowIf fun hA => ?_
  split_ifs
  case neg => exact faithful_notInExcerpt
  all_goals exact faithful_instr (encAmo_eq hop h3 ‹_›) hA rfl

theorem decodeSystem_faithful (hop : opcodeOf w = 0b1110011#7) :
    (decodeSystem w).Faithful cfg (.full w) := by
  unfold decodeSystem
  iterate 6 refine faithful_ite (fun h3 => faithful_instr (encI_eq hop h3) rfl rfl) fun _ => ?_
  exact faithful_ite (fun hw => faithful_instr (congrArg Code.full hw.symm) rfl rfl) fun _ =>
    faithful_ite (fun hw => faithful_instr (congrArg Code.full hw.symm) rfl rfl) fun _ =>
    faithful_notInExcerpt

theorem decode32_faithful : (decode32 cfg w).Faithful cfg (.full w) :=
  faithful_ite decodeOp_faithful fun _ =>
  faithful_ite decodeOp32_faithful fun _ =>
  faithful_ite
    (fun hop =>
      faithful_ite (fun h3 => faithful_instr (encI_eq hop h3) rfl rfl) fun _ =>
      faithful_ite (fun h3 => faithful_instr (encI_eq hop h3) rfl rfl) fun _ =>
      faithful_notInExcerpt) fun _ =>
  faithful_ite
    (fun hop =>
      faithful_ite (fun h3 => faithful_rowIf fun h64 =>
        faithful_instr (encI_eq hop h3) h64 rfl) fun _ =>
      faithful_notInExcerpt) fun _ =>
  faithful_ite (fun hop => faithful_instr (encU_eq hop) rfl rfl) fun _ =>
  faithful_ite decodeBranch_faithful fun _ =>
  faithful_ite
    (fun hop =>
      faithful_ite (decodeAmoW_faithful hop) fun _ =>
      faithful_ite (decodeAmoD_faithful hop) fun _ =>
      faithful_notInExcerpt) fun _ =>
  faithful_ite decodeSystem_faithful fun _ =>
  faithful_notInExcerpt

end

/-! ## 16-bit words, decoder by decoder -/

section
variable {cfg : Config} {w : BitVec 16}

theorem available_rv64 {b : Bool} (h64 : cfg.xlen = .rv64) (hb : b = true) :
    (cfg.xlen == .rv64 && b) = true :=
  Bool.and_intro (beq_iff_eq.mpr h64) hb

theorem available_rv32 {b : Bool} (h32 : cfg.xlen = .rv32) (hb : b = true) :
    (cfg.xlen == .rv32 && b) = true :=
  Bool.and_intro (beq_iff_eq.mpr h32) hb

theorem decodeC0_faithful (hC : cfg.hasC = true) (hop : cOpOf w = 0b00#2) :
    (decodeC0 cfg w).Faithful cfg (.half w) :=
  faithful_ite (fun h3 => faithful_legalIf fun hu =>
    faithful_instr (congrArg Code.half (encCIW_fields w hop h3)) hC hu) fun _ =>
  faithful_ite (fun h3 => faithful_rowIf fun hD =>
    faithful_instr (encCLDouble_eq hop h3) (Bool.and_intro hC hD) rfl) fun _ =>
  faithful_ite (fun h3 => faithful_instr (encCLWord_eq hop h3) hC rfl) fun _ =>
  faithful_ite
    (fun h3 => faithful_xlen
      (fun h32 => faithful_rowIf fun hF => faithful_instr (encCLWord_eq hop h3)
        (Bool.and_intro (available_rv32 h32 hC) hF) rfl)
      (fun h64 => faithful_instr (encCLDouble_eq hop h3) (available_rv64 h64 hC) rfl)) fun _ =>
  faithful_ite (fun h3 => faithful_rowIf fun hD =>
    faithful_instr (encCLDouble_eq hop h3) (Bool.and_intro hC hD) rfl) fun _ =>
  faithful_ite (fun h3 => faithful_instr (encCLWord_eq hop h3) hC rfl) fun _ =>
  faithful_ite
    (fun h3 => faithful_xlen
      (fun h32 => faithful_rowIf fun hF => faithful_instr (encCLWord_eq hop h3)
        (Bool.and_intro (available_rv32 h32 hC) hF) rfl)
      (fun h64 => faithful_instr (encCLDouble_eq hop h3) (available_rv64 h64 hC) rfl)) fun _ =>
  faithful_notInExcerpt

theorem decodeCAlu_faithful (hC : cfg.hasC = true) (hop : cOpOf w = 0b01#2)
    (h3 : cFunct3Of w = 0b100#3) : (decodeCAlu cfg w).Faithful cfg (.half w) :=
  faithful_ite (fun h2 => faithful_legalIf fun hfits =>
    faithful_instr (encCBAlu_eq hop h3 h2) hC hfits) fun hne0 =>
  faithful_ite (fun h2 => faithful_legalIf fun hfits =>
    faithful_instr (encCBAlu_eq hop h3 h2) hC hfits) fun hne1 =>
  faithful_ite (fun h2 => faithful_instr (encCBAlu_eq hop h3 h2) hC rfl) fun hne2 =>
  have h2 : cFunct2Of w = 0b11#2 := by bv_omega
  faithful_ite
    (fun hb =>
      faithful_ite (fun hg => faithful_instr (encCA_eq hop h3 hb h2 hg rfl) hC rfl) fun hgne0 =>
      faithful_ite (fun hg => faithful_instr (encCA_eq hop h3 hb h2 hg rfl) hC rfl) fun hgne1 =>
      faithful_ite (fun hg => faithful_instr (encCA_eq hop h3 hb h2 hg rfl) hC rfl) fun hgne2 =>
      have hg : cLowFunct2Of w = 0b11#2 := by bv_omega
      faithful_instr (encCA_eq hop h3 hb h2 hg rfl) hC rfl) fun hbne =>
  have hb : cBit12Of w = 1#1 := by bv_omega
  faithful_ite (fun hg => faithful_rowIf fun h64 => faithful_instr (encCA_eq hop h3 hb h2 hg rfl)
    (Bool.and_intro h64 hC) rfl) fun _ =>
  faithful_ite (fun hg => faithful_rowIf fun h64 => faithful_instr (encCA_eq hop h3 hb h2 hg rfl)
    (Bool.and_intro h64 hC) rfl) fun _ =>
  faithful_notInExcerpt

theorem decodeC1_faithful (hC : cfg.hasC = true) (hop : cOpOf w = 0b01#2) :
    (decodeC1 cfg w).Faithful cfg (.half w) :=
  faithful_ite (fun h3 => faithful_instr (encCI_eq hop h3) hC rfl) fun hne0 =>
  faithful_ite
    (fun h3 => faithful_xlen
      (fun h32 => faithful_instr (encCJ_eq hop h3) (available_rv32 h32 hC) rfl)
      (fun h64 => faithful_legalIf fun hrd =>
        faithful_instr (encCI_eq hop h3) (available_rv64 h64 hC) hrd)) fun hne1 =>
  faithful_ite (fun h3 => faithful_instr (encCI_eq hop h3) hC rfl) fun hne2 =>
  faithful_ite
    (fun h3 => faithful_ite
      (fun hsp => faithful_legalIf fun himm =>
        faithful_instr (congrArg Code.half (encAddi16sp_fields w hop h3 hsp)) hC himm)
      (fun hsp => faithful_legalIf fun himm => faithful_instr (encCI_eq hop h3) hC
        (Bool.and_intro (bne_iff_ne.mpr hsp) himm))) fun hne3 =>
  faithful_ite (decodeCAlu_faithful hC hop) fun hne4 =>
  faithful_ite (fun h3 => faithful_instr (encCJ_eq hop h3) hC rfl) fun hne5 =>
  faithful_ite (fun h3 => faithful_instr (encCB_eq hop h3) hC rfl) fun hne6 =>
  have h3 : cFunct3Of w = 0b111#3 := by bv_omega
  faithful_instr (encCB_eq hop h3) hC rfl

theorem decodeCR_faithful (hC : cfg.hasC = true) (hop : cOpOf w = 0b10#2)
    (h3 : cFunct3Of w = 0b100#3) : (decodeCR w).Faithful cfg (.half w) :=
  faithful_ite
    (fun hb => faithful_ite
      (fun hrs2 => faithful_legalIf fun hrd =>
        faithful_instr (encCR_eq hop h3 hb rfl hrs2) hC hrd)
      (fun hrs2 => faithful_instr (encCR_eq hop h3 hb rfl rfl) hC (bne_iff_ne.mpr hrs2)))
    (fun hbne =>
      have hb : cBit12Of w = 1#1 := by bv_omega
      faithful_ite
        (fun hrs2 => faithful_ite
          (fun hrd => faithful_instr (encCR_eq hop h3 hb hrd hrs2) hC rfl)
          (fun hrd => faithful_instr (encCR_eq hop h3 hb rfl hrs2) hC (bne_iff_ne.mpr hrd)))
        (fun hrs2 => faithful_legalIf fun hrd => faithful_instr (encCR_eq hop h3 hb rfl rfl) hC
          (Bool.and_intro hrd (bne_iff_ne.mpr hrs2))))

theorem decodeC2_faithful (hC : cfg.hasC = true) (hop : cOpOf w = 0b10#2) :
    (decodeC2 cfg w).Faithful cfg (.half w) :=
  faithful_ite (fun h3 => faithful_legalIf fun hfits =>
    faithful_instr (encCI_eq hop h3) hC hfits) fun hne0 =>
  faithful_ite (fun h3 => faithful_rowIf fun hD =>
    faithful_instr (encLdsp_eq hop h3) (Bool.and_intro hC hD) rfl) fun hne1 =>
  faithful_ite (fun h3 => faithful_legalIf fun hrd =>
    faithful_instr (encLwsp_eq hop h3) hC hrd) fun hne2 =>
  faithful_ite
    (fun h3 => faithful_xlen
      (fun h32 => faithful_rowIf fun hF => faithful_instr (encLwsp_eq hop h3)
        (Bool.and_intro (available_rv32 h32 hC) hF) rfl)
      (fun h64 => faithful_legalIf fun hrd =>
        faithful_instr (encLdsp_eq hop h3) (available_rv64 h64 hC) hrd)) fun hne3 =>
  faithful_ite (decodeCR_faithful hC hop) fun hne4 =>
  faithful_ite (fun h3 => faithful_rowIf fun hD =>
    faithful_instr (encSdsp_eq hop h3) (Bool.and_intro hC hD) rfl) fun hne5 =>
  faithful_ite (fun h3 => faithful_instr (encSwsp_eq hop h3) hC rfl) fun hne6 =>
  have h3 : cFunct3Of w = 0b111#3 := by bv_omega
  faithful_xlen
    (fun h32 => faithful_rowIf fun hF => faithful_instr (encSwsp_eq hop h3)
      (Bool.and_intro (available_rv32 h32 hC) hF) rfl)
    (fun h64 => faithful_instr (encSdsp_eq hop h3) (available_rv64 h64 hC) rfl)

theorem decode16_faithful : (decode16 cfg w).Faithful cfg (.half w) :=
  faithful_rowIf fun hC =>
  faithful_ite (decodeC0_faithful hC) fun _ =>
  faithful_ite (decodeC1_faithful hC) fun _ =>
  faithful_ite (decodeC2_faithful hC) fun _ =>
  faithful_notInExcerpt

end

theorem decode_faithful (cfg : Config) : ∀ c : Code, (decode cfg c).Faithful cfg c
  | .half _ => decode16_faithful
  | .full _ => decode32_faithful

/-- Settles O3: every answer of the decoder is faithful. -/
theorem encodeOfDecode : Obligations.EncodeOfDecode :=
  fun cfg c i hdecode => (decode_faithful cfg c i hdecode).1

/-- Settles O4: every answer of the decoder is faithful. -/
theorem decodedIsWellFormed : Obligations.DecodedIsWellFormed :=
  fun cfg c i hdecode => (decode_faithful cfg c i hdecode).2

/-! ## Words that are refused -/

/-- A word decodes exactly where it is a well-formed instruction's. -/
theorem decode_eq_instr_iff {cfg : Config} {c : Code} {i : Instr} :
    decode cfg c = .instr i ↔ i.wellFormed cfg = true ∧ encode i = c := by
  constructor
  · intro hdecode
    exact (decode_faithful cfg c i hdecode).symm
  · rintro ⟨hwf, rfl⟩
    exact decode_encode hwf

/-- Settles O6: the refused words are those left over by the instructions' words and the illegal
ones. -/
theorem refusedWordsMatchNoRow : Obligations.RefusedWordsMatchNoRow := by
  intro cfg c
  simp only [ne_eq, ← not_and, ← not_exists, ← decode_eq_instr_iff]
  cases decode cfg c <;> simp

end Sys2Proof
end

section
/-! The illegal words (`30_encoding.md` R103), decoder by decoder. -/
namespace Sys2Proof
open Machine

/-! ## Fields as numbers -/

theorem toNat_cat_eq_zero_iff {a b : Nat} (x : BitVec a) (y : BitVec b) :
    (x ++ y).toNat = 0 ↔ x.toNat = 0 ∧ y.toNat = 0 := by
  simp [BitVec.toNat_append, Nat.or_eq_zero_iff]

theorem toNat_extractLsb'_eq_field {n : Nat} (w : BitVec n) (hi lo : Nat) :
    (w.extractLsb' lo (hi + 1 - lo)).toNat = field w.toNat hi lo := by
  rw [field, BitVec.extractLsb'_toNat, Nat.shiftRight_eq_div_pow]

section
variable (w : BitVec 16)

theorem toNat_cOpOf : (cOpOf w).toNat = field w.toNat 1 0 :=
  toNat_extractLsb'_eq_field w 1 0

theorem toNat_cFunct3Of : (cFunct3Of w).toNat = field w.toNat 15 13 :=
  toNat_extractLsb'_eq_field w 15 13

theorem toNat_cBit12Of : (cBit12Of w).toNat = field w.toNat 12 12 :=
  toNat_extractLsb'_eq_field w 12 12

theorem toNat_cFunct2Of : (cFunct2Of w).toNat = field w.toNat 11 10 :=
  toNat_extractLsb'_eq_field w 11 10

theorem toNat_cRdOf : (cRdOf w).toNat = field w.toNat 11 7 :=
  toNat_extractLsb'_eq_field w 11 7

theorem toNat_cRs2Of : (cRs2Of w).toNat = field w.toNat 6 2 :=
  toNat_extractLsb'_eq_field w 6 2

theorem uimm4spnOf_eq_zero_iff : uimm4spnOf w = 0#8 ↔ field w.toNat 12 5 = 0 := by
  rw [← BitVec.toNat_inj, uimm4spnOf]
  simp only [toNat_cat_eq_zero_iff, BitVec.extractLsb'_toNat, Nat.shiftRight_eq_div_pow, field,
    BitVec.toNat_zero]
  omega

theorem immCIOf_eq_zero_iff :
    immCIOf w = 0#6 ↔ field w.toNat 12 12 = 0 ∧ field w.toNat 6 2 = 0 := by
  rw [← BitVec.toNat_inj, immCIOf, BitVec.toNat_zero, toNat_cat_eq_zero_iff, ← toNat_cBit12Of,
    ← toNat_cRs2Of, cBit12Of, cRs2Of]

theorem imm16spOf_eq_zero_iff :
    imm16spOf w = 0#6 ↔ field w.toNat 12 12 = 0 ∧ field w.toNat 6 2 = 0 := by
  rw [← BitVec.toNat_inj, imm16spOf]
  simp only [toNat_cat_eq_zero_iff, BitVec.extractLsb'_toNat, Nat.shiftRight_eq_div_pow, field,
    BitVec.toNat_zero]
  omega

/-- c.lui and c.addi16sp share their immediate's bits, in different order. -/
theorem imm16spOf_eq_zero_iff_immCIOf : imm16spOf w = 0#6 ↔ immCIOf w = 0#6 :=
  (imm16spOf_eq_zero_iff w).trans (immCIOf_eq_zero_iff w).symm

theorem shiftFits_immCIOf_eq_false_iff (cfg : Config) :
    cfg.shiftFits (immCIOf w) = false ↔ cfg.xlen = .rv32 ∧ field w.toNat 12 12 = 1 := by
  have hbit : (immCIOf w).extractLsb' 5 1 = cBit12Of w := by
    simp [immCIOf, extract_cat_high, cBit12Of]
  rw [Config.shiftFits, hbit, ← toNat_cBit12Of]
  cases cfg.xlen
  · simp
    bv_omega
  · simp

end

/-! ## Which answers of each decoder are illegal

Each lemma follows the decoder's branches: a row without an operand restriction is never illegal, and
a row with one is illegal where the restriction fails. -/

@[simp] theorem rowIf_eq_illegal_iff {present : Bool} {d : Decoded} :
    rowIf present d = .illegal ↔ present = true ∧ d = .illegal := by
  cases present <;> simp [rowIf]

@[simp] theorem legalIf_eq_illegal_iff {ok : Bool} {i : Instr} :
    legalIf ok i = .illegal ↔ ok = false := by
  cases ok <;> simp [legalIf]

section
variable {cfg : Config} {w : BitVec 16}

theorem decodeC0_illegal_iff :
    decodeC0 cfg w = .illegal ↔ cFunct3Of w = 0b000#3 ∧ uimm4spnOf w = 0#8 := by
  unfold decodeC0
  cases cfg.xlen <;> split_ifs <;> simp_all

theorem decodeCAlu_illegal_iff :
    decodeCAlu cfg w = .illegal ↔
      (cFunct2Of w = 0b00#2 ∨ cFunct2Of w = 0b01#2) ∧ cfg.shiftFits (immCIOf w) = false := by
  unfold decodeCAlu
  split_ifs <;> simp_all

theorem decodeC1_illegal_iff :
    decodeC1 cfg w = .illegal ↔
      (cFunct3Of w = 0b001#3 ∧ cfg.xlen = .rv64 ∧ cRdOf w = 0#5) ∨
      (cFunct3Of w = 0b011#3 ∧ immCIOf w = 0#6) ∨
      (cFunct3Of w = 0b100#3 ∧ decodeCAlu cfg w = .illegal) := by
  unfold decodeC1
  cases cfg.xlen <;> split_ifs <;> simp_all [imm16spOf_eq_zero_iff_immCIOf]

theorem decodeCR_illegal_iff :
    decodeCR w = .illegal ↔
      (cBit12Of w = 0#1 ∧ cRdOf w = 0#5 ∧ cRs2Of w = 0#5) ∨
      (cBit12Of w = 1#1 ∧ cRdOf w = 0#5 ∧ cRs2Of w ≠ 0#5) := by
  have hbit : cBit12Of w = 1#1 ↔ cBit12Of w ≠ 0#1 := by bv_omega
  rw [hbit]
  unfold decodeCR
  split_ifs <;> simp_all

theorem decodeC2_illegal_iff :
    decodeC2 cfg w = .illegal ↔
      (cFunct3Of w = 0b000#3 ∧ cfg.shiftFits (immCIOf w) = false) ∨
      (cFunct3Of w = 0b010#3 ∧ cRdOf w = 0#5) ∨
      (cFunct3Of w = 0b011#3 ∧ cfg.xlen = .rv64 ∧ cRdOf w = 0#5) ∨
      (cFunct3Of w = 0b100#3 ∧ decodeCR w = .illegal) := by
  unfold decodeC2
  cases cfg.xlen <;> split_ifs <;> simp_all

theorem decode16_illegal_iff :
    decode16 cfg w = .illegal ↔ cfg.hasC = true ∧
      ((cOpOf w = 0b00#2 ∧ decodeC0 cfg w = .illegal) ∨
       (cOpOf w = 0b01#2 ∧ decodeC1 cfg w = .illegal) ∨
       (cOpOf w = 0b10#2 ∧ decodeC2 cfg w = .illegal)) := by
  rw [decode16, rowIf_eq_illegal_iff]
  split_ifs <;> simp_all

/-- The decoders' answers together, as the list of R103. -/
theorem decode16_illegal_iff_illegalHalf :
    decode16 cfg w = .illegal ↔ cfg.hasC = true ∧ IllegalHalf cfg w.toNat := by
  have htwo : ∀ n, n = 0 ∨ n = 1 ↔ n < 2 := by omega
  rw [decode16_illegal_iff, decodeC0_illegal_iff, decodeC1_illegal_iff, decodeC2_illegal_iff,
    decodeCAlu_illegal_iff, decodeCR_illegal_iff, uimm4spnOf_eq_zero_iff, immCIOf_eq_zero_iff,
    shiftFits_immCIOf_eq_false_iff]
  simp only [← BitVec.toNat_inj, toNat_cOpOf, toNat_cFunct3Of, toNat_cBit12Of, toNat_cFunct2Of,
    toNat_cRdOf, toNat_cRs2Of, BitVec.toNat_ofNat, Nat.reducePow, Nat.reduceMod, htwo, ne_eq,
    IllegalHalf, and_or_left, or_assoc]

end

/-! ## No 32-bit word is illegal -/

section
variable {cfg : Config} {w : BitVec 32}

theorem decodeOp_ne_illegal : decodeOp cfg w ≠ .illegal := by
  unfold decodeOp
  split_ifs <;> simp

theorem decodeOp32_ne_illegal : decodeOp32 cfg w ≠ .illegal := by
  unfold decodeOp32
  split_ifs <;> simp

theorem decodeBranch_ne_illegal : decodeBranch w ≠ .illegal := by
  unfold decodeBranch
  split_ifs <;> simp

theorem decodeAmoW_ne_illegal : decodeAmoW cfg w ≠ .illegal := by
  rw [decodeAmoW, Ne, rowIf_eq_illegal_iff]
  split_ifs <;> simp

theorem decodeAmoD_ne_illegal : decodeAmoD cfg w ≠ .illegal := by
  rw [decodeAmoD, Ne, rowIf_eq_illegal_iff]
  split_ifs <;> simp

theorem decodeSystem_ne_illegal : decodeSystem w ≠ .illegal := by
  unfold decodeSystem
  split_ifs <;> simp

theorem decode32_ne_illegal : decode32 cfg w ≠ .illegal := by
  unfold decode32
  split_ifs <;> simp [decodeOp_ne_illegal, decodeOp32_ne_illegal, decodeBranch_ne_illegal,
    decodeAmoW_ne_illegal, decodeAmoD_ne_illegal, decodeSystem_ne_illegal]

end

/-- Settles O5: the illegal 16-bit words are those of R103's list, and no 32-bit word is illegal. -/
theorem illegalWordsAreTheListed : Obligations.IllegalWordsAreTheListed :=
  ⟨fun _ _ => decode16_illegal_iff_illegalHalf, fun _ _ => decode32_ne_illegal⟩

end Sys2Proof
end

section
/-! An instruction whose bytes stand at `pc`: what the fetch reads there (`20_memory.md` R59;
`30_encoding.md` R81, R82). -/
namespace Sys2Proof

/-! ## The length of a word that decodes -/

/-- A word whose first two bits deny its length matches no row. -/
theorem decode_of_not_lengthBits {cfg : Config} {c : Code} (h : ¬ c.lengthBits) :
    decode cfg c = .notInExcerpt := by
  cases c with
  | half w =>
    have hop : cOpOf w = 0b11#2 := not_not.mp h
    simp [decode, decode16, hop, rowIf]
  | full w =>
    have hop : ∀ op : BitVec 7, op.extractLsb' 0 2 = 0b11#2 → opcodeOf w ≠ op := by
      rintro _ hlong rfl
      exact h hlong
    simp [decode, decode32, hop]

theorem lengthBits_of_decode {cfg : Config} {c : Code} {i : Instr}
    (h : decode cfg c = .instr i) : c.lengthBits := by
  by_contra hc
  rw [decode_of_not_lengthBits hc] at h
  exact Decoded.noConfusion h

theorem lengthBits_half_iff (w : BitVec 16) :
    (Code.half w).lengthBits ↔ w.toNat % 4 ≠ 3 := by
  simp [Code.lengthBits, cOpOf, ← BitVec.toNat_inj]

theorem lengthBits_full_iff (w : BitVec 32) :
    (Code.full w).lengthBits ↔ w.toNat % 4 = 3 := by
  simp [Code.lengthBits, opcodeOf, ← BitVec.toNat_inj]

end Sys2Proof

namespace Sys2Proof.Machine

/-! ## The bytes of a word -/

theorem leNat_bytes_half (w : BitVec 16) : leNat (Code.half w).bytes = w.toNat := by
  simp only [Code.bytes, leNat, BitVec.extractLsb'_toNat, Nat.shiftRight_eq_div_pow]
  omega

theorem leNat_bytes_full (w : BitVec 32) : leNat (Code.full w).bytes = w.toNat := by
  simp only [Code.bytes, leNat, BitVec.extractLsb'_toNat, Nat.shiftRight_eq_div_pow]
  omega

theorem everyByte_add {s : State} {a m n : Nat} {p : Nat → Bool} :
    EveryByte s a (m + n) p ↔ EveryByte s a m p ∧ EveryByte s (a + m) n p := by
  constructor
  · intro h
    exact ⟨fun k hk => h k (by omega), fun k hk => Nat.add_assoc a m k ▸ h (m + k) (by omega)⟩
  · rintro ⟨hlow, hhigh⟩ k hk
    by_cases hkm : k < m
    · exact hlow k hkm
    · have := hhigh (k - m) (by omega)
      rwa [show a + m + (k - m) = a + k by omega] at this

/-- The bytes of `c` stand from address `a` on, lowest byte first. -/
def State.Holds (s : State) (a : Nat) (c : Code) : Prop :=
  ((List.range c.len).map fun k => s.byteAt ((a + k) % 2 ^ s.w)) = c.bytes

section
variable {s : State} {a : Nat}

theorem numAt_of_holds_half {w : BitVec 16} (h : s.Holds a (.half w)) : s.numAt a 2 = w.toNat := by
  rw [State.numAt_eq, ← leNat_bytes_half, ← h]
  rfl

theorem numAt_of_holds_full {w : BitVec 32} (h : s.Holds a (.full w)) : s.numAt a 4 = w.toNat := by
  rw [State.numAt_eq, ← leNat_bytes_full, ← h]
  rfl

end

/-- A fetch at an even `pc` reads the word whose bytes stand executable there. -/
theorem fetch_of_holds {s : State} {c : Code} (hlength : c.lengthBits)
    (heven : s.pcNat % 2 = 0) (hexec : EveryByte s s.pcNat c.len s.executableAt)
    (hbytes : s.Holds s.pcNat c) : fetch s = .code c := by
  cases c with
  | half w =>
    have hnum : s.numAt s.pcNat 2 = w.toNat := numAt_of_holds_half hbytes
    have hshort : s.numAt s.pcNat 2 % 4 ≠ 3 := by rwa [hnum, ← lengthBits_half_iff]
    rw [fetch_of_short heven hexec hshort, hnum, BitVec.ofNat_toNat, BitVec.setWidth_eq]
  | full w =>
    have hnum : s.numAt s.pcNat 4 = w.toNat := numAt_of_holds_full hbytes
    have hparcels : s.numAt s.pcNat 4 = _ := s.numAt_add s.pcNat 2 2
    have hlong : s.numAt s.pcNat 2 % 4 = 3 := by
      have := (lengthBits_full_iff w).mp hlength
      omega
    obtain ⟨hfirst, hsecond⟩ := everyByte_add (m := 2) (n := 2) |>.mp hexec
    rw [fetch_of_second_allowed heven hfirst hlong hsecond, hnum, BitVec.ofNat_toNat,
      BitVec.setWidth_eq]

/-- Settles O12: the fetch reads the encoding, which decodes to the instruction. -/
theorem encodedInstructionRuns : Obligations.EncodedInstructionRuns := by
  intro s i hwf heven hexec hbytes
  have hdecode : decode s.cfg (encode i) = .instr i := decode_encode hwf
  have hfetch : fetch s = .code (encode i) :=
    fetch_of_holds (lengthBits_of_decode hdecode) heven hexec hbytes
  exact stepRunsDecodedInstruction s (encode i) i hfetch hdecode

end Sys2Proof.Machine
end

section
/-! Immediates bit by bit (`30_encoding.md` R107 to R110), and the addresses made with them
(`44_compressed_mem_ctrl.md` R230). -/
namespace Sys2Proof.Machine

/-! ## Where each bit of a value comes from -/

/-- The bits of `v`, lowest first, are the bits of `x` that `src` names in turn (`none`: zero). -/
def BitsFrom {w n : Nat} (v : BitVec w) (x : BitVec n) (src : List (Option Nat)) : Prop :=
  src.length = w ∧ Assembles v x src none

section
variable {n : Nat} {x : BitVec n}

theorem bitsFrom_extractLsb' (s l : Nat) :
    BitsFrom (x.extractLsb' s l) x ((List.range' s l).map some) := by
  refine ⟨by simp, fun i hi => ?_⟩
  simp [hi]

theorem bitsFrom_zero (k : Nat) : BitsFrom 0#k x (List.replicate k none) := by
  refine ⟨List.length_replicate, fun i hi => ?_⟩
  simp [hi]

theorem BitsFrom.append {a b : Nat} {u : BitVec a} {v : BitVec b} {p q : List (Option Nat)}
    (hu : BitsFrom u x p) (hv : BitsFrom v x q) : BitsFrom (u ++ v) x (q ++ p) := by
  obtain ⟨rfl, hu⟩ := hu
  obtain ⟨rfl, hv⟩ := hv
  refine ⟨by rw [List.length_append, Nat.add_comm], fun i hi => ?_⟩
  rw [BitVec.getLsbD_append, List.getElem?_append]
  split
  · exact hv i ‹_›
  · exact hu _ (by omega)

theorem BitsFrom.zeroExtend {k : Nat} {v : BitVec k} {src : List (Option Nat)}
    (h : BitsFrom v x src) (w : Nat) : Assembles (v.setWidth w) x src none := by
  obtain ⟨rfl, h⟩ := h
  intro i hi
  rw [BitVec.getLsbD_setWidth, decide_eq_true hi, Bool.true_and]
  by_cases hlow : i < src.length
  · exact h i hlow
  · rw [BitVec.getLsbD_of_ge _ _ (not_lt.mp hlow), List.getElem?_eq_none (not_lt.mp hlow)]
    rfl

theorem BitsFrom.signExtend {k : Nat} {v : BitVec k} {low : List (Option Nat)} {sign : Option Nat}
    (h : BitsFrom v x (low ++ [sign])) (w : Nat) : Assembles (v.signExtend w) x low sign := by
  obtain ⟨hlen, h⟩ := h
  have hk : k = low.length + 1 := by rw [← hlen, List.length_append, List.length_singleton]
  subst hk
  have hlow : ∀ i, i < low.length → v.getLsbD i = ((low[i]?).getD sign).any x.getLsbD := by
    intro i hi
    rw [h i (by omega), List.getElem?_append_left hi, List.getElem?_eq_getElem hi]
    rfl
  have htop : v.getLsbD low.length = sign.any x.getLsbD := by
    rw [h low.length (by omega), List.getElem?_concat_length]
    rfl
  intro i hi
  rw [BitVec.getLsbD_signExtend, decide_eq_true hi, Bool.true_and, BitVec.msb_eq_getLsbD_last,
    Nat.add_sub_cancel]
  rcases lt_trichotomy i low.length with hlt | rfl | hgt
  · rw [if_pos (by omega), hlow i hlt]
  · rw [if_pos (by omega), htop, List.getElem?_eq_none le_rfl]
    rfl
  · rw [if_neg (by omega), htop, List.getElem?_eq_none hgt.le]
    rfl

end

/-! ## The fields of the 32-bit formats (`30_encoding.md` R107 to R109) -/

section
variable (x : BitVec 32)

theorem bitsFrom_imm12Of :
    BitsFrom (imm12Of x) x
      [some 20, some 21, some 22, some 23, some 24, some 25, some 26, some 27, some 28, some 29,
       some 30, some 31] :=
  bitsFrom_extractLsb' 20 12

theorem bitsFrom_rs1Of :
    BitsFrom (rs1Of x) x [some 15, some 16, some 17, some 18, some 19] :=
  bitsFrom_extractLsb' 15 5

theorem bitsFrom_imm20Of :
    BitsFrom (imm20Of x) x
      [some 12, some 13, some 14, some 15, some 16, some 17, some 18, some 19, some 20, some 21,
       some 22, some 23, some 24, some 25, some 26, some 27, some 28, some 29, some 30, some 31] :=
  bitsFrom_extractLsb' 12 20

theorem bitsFrom_offsetBOf :
    BitsFrom (offsetBOf x) x
      [some 8, some 9, some 10, some 11, some 25, some 26, some 27, some 28, some 29, some 30,
       some 7, some 31] :=
  bitsFrom_extractLsb' 31 1 |>.append (bitsFrom_extractLsb' 7 1)
    |>.append (bitsFrom_extractLsb' 25 6) |>.append (bitsFrom_extractLsb' 8 4)

end

/-! ## The fields of the 16-bit formats (`30_encoding.md` R110) -/

section
variable (x : BitVec 16)

theorem bitsFrom_immCIOf :
    BitsFrom (immCIOf x) x [some 2, some 3, some 4, some 5, some 6, some 12] :=
  bitsFrom_extractLsb' 12 1 |>.append (bitsFrom_extractLsb' 2 5)

theorem bitsFrom_imm16spOf :
    BitsFrom (imm16spOf x) x [some 6, some 2, some 5, some 3, some 4, some 12] :=
  bitsFrom_extractLsb' 12 1 |>.append (bitsFrom_extractLsb' 3 2)
    |>.append (bitsFrom_extractLsb' 5 1) |>.append (bitsFrom_extractLsb' 2 1)
    |>.append (bitsFrom_extractLsb' 6 1)

theorem bitsFrom_uimm4spnOf :
    BitsFrom (uimm4spnOf x) x [some 6, some 5, some 11, some 12, some 7, some 8, some 9, some 10] :=
  bitsFrom_extractLsb' 7 4 |>.append (bitsFrom_extractLsb' 11 2)
    |>.append (bitsFrom_extractLsb' 5 1) |>.append (bitsFrom_extractLsb' 6 1)

theorem bitsFrom_uimmWordOf :
    BitsFrom (uimmWordOf x) x [some 6, some 10, some 11, some 12, some 5] :=
  bitsFrom_extractLsb' 5 1 |>.append (bitsFrom_extractLsb' 10 3)
    |>.append (bitsFrom_extractLsb' 6 1)

theorem bitsFrom_uimmDoubleOf :
    BitsFrom (uimmDoubleOf x) x [some 10, some 11, some 12, some 5, some 6] :=
  bitsFrom_extractLsb' 5 2 |>.append (bitsFrom_extractLsb' 10 3)

theorem bitsFrom_uimmLwspOf :
    BitsFrom (uimmLwspOf x) x [some 4, some 5, some 6, some 12, some 2, some 3] :=
  bitsFrom_extractLsb' 2 2 |>.append (bitsFrom_extractLsb' 12 1)
    |>.append (bitsFrom_extractLsb' 4 3)

theorem bitsFrom_uimmLdspOf :
    BitsFrom (uimmLdspOf x) x [some 5, some 6, some 12, some 2, some 3, some 4] :=
  bitsFrom_extractLsb' 2 3 |>.append (bitsFrom_extractLsb' 12 1)
    |>.append (bitsFrom_extractLsb' 5 2)

theorem bitsFrom_uimmSwspOf :
    BitsFrom (uimmSwspOf x) x [some 9, some 10, some 11, some 12, some 7, some 8] :=
  bitsFrom_extractLsb' 7 2 |>.append (bitsFrom_extractLsb' 9 4)

theorem bitsFrom_uimmSdspOf :
    BitsFrom (uimmSdspOf x) x [some 10, some 11, some 12, some 7, some 8, some 9] :=
  bitsFrom_extractLsb' 7 3 |>.append (bitsFrom_extractLsb' 10 3)

theorem bitsFrom_offsetCBOf :
    BitsFrom (offsetCBOf x) x [some 3, some 4, some 10, some 11, some 2, some 5, some 6, some 12] :=
  bitsFrom_extractLsb' 12 1 |>.append (bitsFrom_extractLsb' 5 2)
    |>.append (bitsFrom_extractLsb' 2 1) |>.append (bitsFrom_extractLsb' 10 2)
    |>.append (bitsFrom_extractLsb' 3 2)

theorem bitsFrom_offsetCJOf :
    BitsFrom (offsetCJOf x) x
      [some 3, some 4, some 5, some 11, some 2, some 7, some 6, some 9, some 10, some 8, some 12] :=
  bitsFrom_extractLsb' 12 1 |>.append (bitsFrom_extractLsb' 8 1)
    |>.append (bitsFrom_extractLsb' 9 2) |>.append (bitsFrom_extractLsb' 6 1)
    |>.append (bitsFrom_extractLsb' 7 1) |>.append (bitsFrom_extractLsb' 2 1)
    |>.append (bitsFrom_extractLsb' 11 1) |>.append (bitsFrom_extractLsb' 3 3)

end

/-! ## The immediates -/

/-- Settles O7: each field of the word, its scaling zeros below it, and its extension. -/
theorem wordImmediatesAssembled : Obligations.WordImmediatesAssembled := fun w x =>
  ⟨(bitsFrom_imm12Of x).signExtend w,
    (bitsFrom_rs1Of x).zeroExtend w,
    ((bitsFrom_imm20Of x).append (bitsFrom_zero 12)).signExtend w,
    ((bitsFrom_offsetBOf x).append (bitsFrom_zero 1)).signExtend w⟩

theorem assembles_shamt (x : BitVec 16) :
    Assembles (BitVec.ofNat 6 (shamt (immCIOf x))) x
      [some 2, some 3, some 4, some 5, some 6, some 12] none := by
  rw [shamt, BitVec.ofNat_toNat]
  exact (bitsFrom_immCIOf x).zeroExtend 6

/-- Settles O8: each field of the word, its scaling zeros below it, and its extension. -/
theorem compressedImmediatesAssembled : Obligations.CompressedImmediatesAssembled := fun w x =>
  ⟨(bitsFrom_immCIOf x).signExtend w,
    ((bitsFrom_immCIOf x).append (bitsFrom_zero 12)).signExtend w,
    ((bitsFrom_imm16spOf x).append (bitsFrom_zero 4)).signExtend w,
    ((bitsFrom_uimm4spnOf x).append (bitsFrom_zero 2)).zeroExtend w,
    assembles_shamt x,
    ((bitsFrom_uimmWordOf x).append (bitsFrom_zero 2)).zeroExtend w,
    ((bitsFrom_uimmDoubleOf x).append (bitsFrom_zero 3)).zeroExtend w,
    ((bitsFrom_uimmLwspOf x).append (bitsFrom_zero 2)).zeroExtend w,
    ((bitsFrom_uimmLdspOf x).append (bitsFrom_zero 3)).zeroExtend w,
    ((bitsFrom_uimmSwspOf x).append (bitsFrom_zero 2)).zeroExtend w,
    ((bitsFrom_uimmSdspOf x).append (bitsFrom_zero 3)).zeroExtend w,
    ((bitsFrom_offsetCBOf x).append (bitsFrom_zero 1)).signExtend w,
    ((bitsFrom_offsetCJOf x).append (bitsFrom_zero 1)).signExtend w⟩

/-! ## Effective addresses -/

/-- A base register plus an offset held without its `k` low zero bits, modulo 2^XLEN. -/
theorem toNat_xget_add_scaled (s : State) (r : Reg) {v : Nat} (k : Nat) (o : BitVec v) :
    (s.xget r + (o ++ 0#k).setWidth s.w).toNat = (s.xval r + 2 ^ k * o.toNat) % 2 ^ s.w := by
  rw [BitVec.toNat_add, BitVec.toNat_setWidth, Nat.add_mod_mod, toNat_append_zeros, Nat.mul_comm,
    State.xval]

/-- Settles O25: the four forms of address are one sum. -/
theorem effectiveAddresses : Obligations.EffectiveAddresses := fun s r u v =>
  ⟨toNat_xget_add_scaled s (creg r) 2 u, toNat_xget_add_scaled s (creg r) 3 u,
    toNat_xget_add_scaled s sp 2 v, toNat_xget_add_scaled s sp 3 v⟩

end Sys2Proof.Machine
end

section
/-! Sample words of the spec, each the word of a well-formed instruction (`30_encoding.md` R100). -/
namespace Sys2Proof
open Machine

/-- Settles O1: each sample word is the encoding of the instruction it stands for, and the decoder
answers exactly those instructions. -/
theorem sampleWordsDecode : Obligations.SampleWordsDecode := by
  simp only [Obligations.SampleWordsDecode, decode_eq_instr_iff]
  decide

end Sys2Proof
end

section
/-! Integer computational instructions (`40_integer_arith.md` R120 to R127): each result as an
integer modulo 2^XLEN, and the one register it goes to. -/
namespace Sys2Proof.Machine

/-! ## Sums and word results as integers -/

/-- A number plus a sign-extended immediate or offset. -/
theorem add_signExtend_eq_ofInt {w k : Nat} (a : BitVec w) (o : BitVec k) :
    a + o.signExtend w = BitVec.ofInt w (a.toNat + o.toInt) := by
  rw [BitVec.ofInt_add, ← eq_ofInt_toNat, ← signExtend_eq_ofInt]

theorem toNat_add_signExtend {w k : Nat} (a : BitVec w) (o : BitVec k) :
    (a + o.signExtend w).toNat = wrap w (a.toNat + o.toInt) := by
  rw [add_signExtend_eq_ofInt, toNat_ofInt_eq_wrap]

theorem add_eq_ofInt {w : Nat} (a b : BitVec w) :
    a + b = BitVec.ofInt w (a.toNat + b.toNat) := by
  rw [BitVec.ofInt_add, ← eq_ofInt_toNat, ← eq_ofInt_toNat]

theorem toNat_sextWord_ofInt {w : Nat} (h : 32 ≤ w) (z : Int) :
    (sextWord w (BitVec.ofInt w z)).toNat = wrap w (signedOf 32 z) := by
  rw [sextWord_ofInt w h, toNat_ofInt_eq_wrap]

/-! ## The seven instructions -/

/-- An instruction that writes one x register and goes on, its value given as a number. -/
theorem writesX_xset_of_toNat {s : State} {rd : Reg} {v : BitVec s.w} {m n : Nat}
    (h : v.toNat = m) : WritesX (.next ((s.xset rd v).advance n)) s rd m n :=
  h ▸ writesX_xset s rd v n

section
variable (s : State) (rd rs1 rs2 : Reg)

theorem add_writesX :
    WritesX (exec (.add rd rs1 rs2) s) s rd ((s.xval rs1 + s.xval rs2) % 2 ^ s.w) 4 :=
  writesX_xset_of_toNat (BitVec.toNat_add ..)

theorem addi_writesX (imm : BitVec 12) :
    WritesX (exec (.addi rd rs1 imm) s) s rd (wrap s.w (s.xval rs1 + imm.toInt)) 4 :=
  writesX_xset_of_toNat (toNat_add_signExtend ..)

theorem addiw_writesX (imm : BitVec 12) :
    WritesX (exec (.addiw rd rs1 imm) s) s rd
      (wrap s.w (signedOf 32 (s.xval rs1 + imm.toInt))) 4 := by
  refine writesX_xset_of_toNat ?_
  rw [immI, add_signExtend_eq_ofInt]
  exact toNat_sextWord_ofInt s.le_w _

theorem addw_writesX :
    WritesX (exec (.addw rd rs1 rs2) s) s rd
      (wrap s.w (signedOf 32 (s.xval rs1 + s.xval rs2))) 4 := by
  refine writesX_xset_of_toNat ?_
  rw [add_eq_ofInt]
  exact toNat_sextWord_ofInt s.le_w _

theorem and_writesX :
    WritesX (exec (.and rd rs1 rs2) s) s rd (s.xval rs1 &&& s.xval rs2) 4 :=
  writesX_xset_of_toNat (BitVec.toNat_and ..)

theorem andi_writesX (imm : BitVec 12) :
    WritesX (exec (.andi rd rs1 imm) s) s rd (s.xval rs1 &&& wrap s.w imm.toInt) 4 := by
  refine writesX_xset_of_toNat ?_
  rw [BitVec.toNat_and, immI, signExtend_eq_ofInt, toNat_ofInt_eq_wrap, State.xval]

theorem auipc_writesX (u : BitVec 20) :
    WritesX (exec (.auipc rd u) s) s rd (wrap s.w (s.pcNat + u.toInt * 4096)) 4 := by
  refine writesX_xset_of_toNat ?_
  rw [immU, toNat_add_signExtend, toInt_append_zeros]
  rfl

end

/-- Settles O13: one lemma per instruction. -/
theorem integerArithmeticResults : Obligations.IntegerArithmeticResults :=
  fun s rd rs1 rs2 imm u =>
    ⟨add_writesX s rd rs1 rs2, addi_writesX s rd rs1 imm, addiw_writesX s rd rs1 imm,
      addw_writesX s rd rs1 rs2, and_writesX s rd rs1 rs2, andi_writesX s rd rs1 imm,
      auipc_writesX s rd u⟩

end Sys2Proof.Machine
end

section
/-! `call` (`48_pseudo.md` R321): how its offset is split, and where the halves lead. -/
namespace Sys2Proof.Machine

/-! ## Integers modulo 2^w -/

theorem wrap_eq_of_dvd {w : Nat} {a b : Int} (h : (2 ^ w : Int) ∣ a - b) : wrap w a = wrap w b := by
  rw [wrap, wrap, Int.emod_eq_emod_iff_emod_sub_eq_zero.mpr (Int.emod_eq_zero_of_dvd h)]

theorem wrap_wrap_add (w : Nat) (a b : Int) : wrap w ((wrap w a : Nat) + b) = wrap w (a + b) := by
  rw [← toNat_ofInt_eq_wrap, ← toNat_ofInt_eq_wrap, ← toNat_ofInt_eq_wrap, BitVec.ofInt_add,
    BitVec.ofInt_add, ← eq_ofInt_toNat]

/-! ## The split of the offset -/

/-- The integer that the two halves of `call` add up to. -/
def callSum (o : BitVec 64) : Int := (callHi o).toInt * 4096 + (callLo o).toInt

theorem toNat_callLo (o : BitVec 64) : (callLo o).toNat = o.toNat % 4096 := by
  simp [callLo]

theorem toNat_callHi (o : BitVec 64) :
    (callHi o).toNat = (o.toNat + 2048) % 2 ^ 64 / 4096 % 2 ^ 20 := by
  simp [callHi, Nat.shiftRight_eq_div_pow]

/-- The halves add up to the offset modulo 2^32: the 0x800 in `callHi` makes up for the sign of
`callLo`. -/
theorem callSum_dvd (o : BitVec 64) : (2 ^ 32 : Int) ∣ callSum o - o.toInt := by
  have hlo := toNat_callLo o
  have hhi := toNat_callHi o
  rw [callSum, BitVec.toInt_eq_toNat_cond, BitVec.toInt_eq_toNat_cond, BitVec.toInt_eq_toNat_cond]
  omega

/-- The offsets that the split can express. -/
theorem callSum_bounds (o : BitVec 64) :
    -2 ^ 31 - 2 ^ 11 ≤ callSum o ∧ callSum o < 2 ^ 31 - 2 ^ 11 := by
  have hhi := (callHi o).toInt_lt
  have hhi' := (callHi o).le_toInt
  have hlo := (callLo o).toInt_lt
  have hlo' := (callLo o).le_toInt
  rw [callSum]
  omega

/-- Within these bounds the halves add up to the offset: the bounds lie less than 2^32 apart. -/
theorem callSum_eq {o : BitVec 64} (hmin : -2 ^ 31 - 2 ^ 11 ≤ o.toInt)
    (hmax : o.toInt < 2 ^ 31 - 2 ^ 11) : callSum o = o.toInt := by
  have hdvd := callSum_dvd o
  have hsum := callSum_bounds o
  omega

/-- Where the offset is within the bounds, or `XLEN` is 32, the halves add up to it modulo
2^XLEN. -/
theorem callSum_dvd_of_reachable (s : State) {o : BitVec 64}
    (h : s.w = 64 → -2 ^ 31 - 2 ^ 11 ≤ o.toInt ∧ o.toInt < 2 ^ 31 - 2 ^ 11) :
    (2 ^ s.w : Int) ∣ callSum o - o.toInt := by
  rcases s.w_cases with h32 | h64
  · rw [h32]
    exact callSum_dvd o
  · obtain ⟨hmin, hmax⟩ := h h64
    rw [callSum_eq hmin hmax, sub_self]
    exact dvd_zero _

/-! ## The first half, and the recorded effect -/

/-- The auipc of `call` leaves `x[rd]` at the symbol less `offsetLo`. -/
theorem callHi_reaches (s : State) {rd : Reg} (hrd : rd ≠ 0) {o : BitVec 64}
    (h : s.w = 64 → -2 ^ 31 - 2 ^ 11 ≤ o.toInt ∧ o.toInt < 2 ^ 31 - 2 ^ 11) :
    ∃ t, exec (.auipc rd (callHi o)) s = .next t ∧
      wrap s.w (t.xval rd + (callLo o).toInt) = wrap s.w (s.pcNat + o.toInt) := by
  obtain ⟨t, hnext, hx, -, -⟩ := auipc_writesX s rd (callHi o)
  refine ⟨t, hnext, ?_⟩
  calc wrap s.w (t.xval rd + (callLo o).toInt)
      = wrap s.w (s.pcNat + (callHi o).toInt * 4096 + (callLo o).toInt) := by
        rw [hx, if_neg hrd, wrap_wrap_add]
    _ = wrap s.w (s.pcNat + callSum o) := by rw [callSum, add_assoc]
    _ = wrap s.w (s.pcNat + o.toInt) := wrap_eq_of_dvd (by
        rw [add_sub_add_left_eq_sub]
        exact callSum_dvd_of_reachable s h)

section
variable (s : State) (rd : Reg) (o : BitVec 64)

theorem xval_callEffect :
    (callEffect rd o s).xval rd = if rd = 0 then 0 else (s.pcNat + 8) % 2 ^ s.w :=
  calc (callEffect rd o s).xval rd = (s.xset rd (s.pcv + 8#s.w)).xval rd := State.xval_setPc ..
    _ = if rd = 0 then 0 else (s.pcNat + 8) % 2 ^ s.w := by
      rw [State.xval_xset_self, byteAddr_toNat, State.pcNat]

theorem pcNat_callEffect : (callEffect rd o s).pcNat = wrap s.w (s.pcNat + o.toInt) :=
  (State.pcNat_setPc (s.xset rd _) _).trans (toNat_add_signExtend s.pcv o)

theorem callEffect_changesOnly : ChangesOnly s (callEffect rd o s) [rd] [] [] [] :=
  ((ChangesOnly.refl s [] [] [] []).xset rd _).setPc _

end

/-- Settles O20: the first half by the split of the offset, the effect as two writes. -/
theorem callReachesItsSymbol : Obligations.CallReachesItsSymbol := fun s rd o =>
  ⟨rfl, fun hrd hreach => callHi_reaches s hrd hreach, xval_callEffect s rd o,
    pcNat_callEffect s rd o, callEffect_changesOnly s rd o⟩

end Sys2Proof.Machine
end

section
/-! Atomic memory operations (`41_atomics.md` R140 to R160): each operation in numbers, the common
sequence where it completes and where it stops, and which instruction is which operation. -/
namespace Sys2Proof.Machine

/-! ## The operations in numbers (`41_atomics.md` R142) -/

section
variable {w t v : Nat} {a b : BitVec w} (ha : a.toNat = t) (hb : b.toNat = v)
include ha hb

theorem toNat_amoAddOp : (amoAddOp a b).toNat = (t + v) % 2 ^ w := by
  rw [amoAddOp, BitVec.toNat_add, ha, hb]

theorem toNat_amoAndOp : (amoAndOp a b).toNat = t &&& v := by
  rw [amoAndOp, BitVec.toNat_and, ha, hb]

theorem toNat_amoMaxOp :
    (amoMaxOp a b).toNat = if signedOf w t ≥ signedOf w v then t else v := by
  simp only [amoMaxOp, geSigned, decide_eq_true_eq, toInt_eq_signedOf, apply_ite BitVec.toNat,
    ha, hb]

theorem toNat_amoMaxuOp : (amoMaxuOp a b).toNat = if t ≥ v then t else v := by
  simp only [amoMaxuOp, geUnsigned, decide_eq_true_eq, apply_ite BitVec.toNat, ha, hb]

theorem toNat_amoMinOp :
    (amoMinOp a b).toNat = if signedOf w t ≤ signedOf w v then t else v := by
  simp only [amoMinOp, leSigned, decide_eq_true_eq, toInt_eq_signedOf, apply_ite BitVec.toNat,
    ha, hb]

theorem toNat_amoMinuOp : (amoMinuOp a b).toNat = if t ≤ v then t else v := by
  simp only [amoMinuOp, leUnsigned, decide_eq_true_eq, apply_ite BitVec.toNat, ha, hb]

theorem toNat_amoOrOp : (amoOrOp a b).toNat = t ||| v := by
  rw [amoOrOp, BitVec.toNat_or, ha, hb]

theorem toNat_amoXorOp : (amoXorOp a b).toNat = t ^^^ v := by
  rw [amoXorOp, BitVec.toNat_xor, ha, hb]

end

/-! ## An AMO that completes -/

@[simp] theorem State.numAt_xset (s : State) (r : Reg) (v : BitVec s.w) (a n : Nat) :
    (s.xset r v).numAt a n = s.numAt a n :=
  State.numAt_congr (s := s) (t := s.xset r v) rfl a n fun _ _ => rfl

@[simp] theorem State.numAt_advance (s : State) (ilen a n : Nat) :
    (s.advance ilen).numAt a n = s.numAt a n :=
  State.numAt_congr (s := s) (t := s.advance ilen) rfl a n fun _ _ => rfl

/-- The sign-extended old value, as the number that `AmoWrites` names. -/
theorem toNat_signExtend_bytesAt (s : State) (a : BitVec s.w) (n : Nat) :
    ((s.bytesAt a n).signExtend s.w).toNat = wrap s.w (signedOf (8 * n) (s.numAt a.toNat n)) := by
  rw [signExtend_eq_ofInt, toNat_ofInt_eq_wrap, toInt_eq_signedOf, State.toNat_bytesAt]

section
variable {s : State} {n : Nat} {rd rs2 rs1 : Reg} (hmem : s.mem.wf = true) (hn : n ≤ 8)
  (hallowed : AmoAllowed s (s.xval rs1) n)
include hmem hn hallowed

/-- The common sequence of R140, whatever the operation. -/
theorem amo_writes {op : BitVec (8 * n) → BitVec (8 * n) → BitVec (8 * n)} {new : Nat}
    (hnew : (op (s.bytesAt (s.xget rs1) n) ((s.xget rs2).setWidth (8 * n))).toNat = new) :
    AmoWrites (amo n op rd rs2 rs1 s) s rd rs1 n new := by
  refine ⟨_, (amo_eq_next ..).mpr ⟨hallowed, rfl⟩, ?memory, ?register, State.pcNat_advance _ 4,
    ((ChangesOnly.putBytes hmem _ n _).xset rd _).advance 4⟩
  case memory =>
    exact (State.numAt_advance ..).trans <| (State.numAt_xset ..).trans <|
      (s.numAt_putBytes (s.xget rs1) n _ hmem hn).trans hnew
  case register =>
    exact toNat_signExtend_bytesAt s (s.xget rs1) n ▸
      State.xval_xset_self (s.putBytes (s.xget rs1) n _) rd _

/-- The nine operations, at any width of the access. -/
theorem amo_operations_write {v : Nat} (hv : ((s.xget rs2).setWidth (8 * n)).toNat = v) :
    let t := s.numAt (s.xval rs1) n
    AmoWrites (amo n amoAddOp rd rs2 rs1 s) s rd rs1 n ((t + v) % 2 ^ (8 * n)) ∧
    AmoWrites (amo n amoAndOp rd rs2 rs1 s) s rd rs1 n (t &&& v) ∧
    AmoWrites (amo n amoMaxOp rd rs2 rs1 s) s rd rs1 n
      (if signedOf (8 * n) t ≥ signedOf (8 * n) v then t else v) ∧
    AmoWrites (amo n amoMaxuOp rd rs2 rs1 s) s rd rs1 n (if t ≥ v then t else v) ∧
    AmoWrites (amo n amoMinOp rd rs2 rs1 s) s rd rs1 n
      (if signedOf (8 * n) t ≤ signedOf (8 * n) v then t else v) ∧
    AmoWrites (amo n amoMinuOp rd rs2 rs1 s) s rd rs1 n (if t ≤ v then t else v) ∧
    AmoWrites (amo n amoOrOp rd rs2 rs1 s) s rd rs1 n (t ||| v) ∧
    AmoWrites (amo n amoSwapOp rd rs2 rs1 s) s rd rs1 n v ∧
    AmoWrites (amo n amoXorOp rd rs2 rs1 s) s rd rs1 n (t ^^^ v) := by
  have hwrites := @amo_writes s n rd rs2 rs1 hmem hn hallowed
  have ht := s.toNat_bytesAt (s.xget rs1) n
  exact ⟨hwrites (toNat_amoAddOp ht hv), hwrites (toNat_amoAndOp ht hv),
    hwrites (toNat_amoMaxOp ht hv), hwrites (toNat_amoMaxuOp ht hv),
    hwrites (toNat_amoMinOp ht hv), hwrites (toNat_amoMinuOp ht hv),
    hwrites (toNat_amoOrOp ht hv), hwrites hv, hwrites (toNat_amoXorOp ht hv)⟩

end

/-- Settles O14: the nine operations on 4 bytes, with the low 32 bits of `x[rs2]`. -/
theorem amoWordResults : Obligations.AmoWordResults :=
  fun s _ _ _ rs2 _ hmem hallowed =>
    amo_operations_write hmem (by norm_num) hallowed (BitVec.toNat_setWidth 32 (s.xget rs2))

theorem State.w_of_rv64 {s : State} (h : s.cfg.xlen = .rv64) : s.w = 64 := by
  rw [State.w, h, Xlen.bits]

/-- Settles O15: the nine operations on 8 bytes, with all of `x[rs2]`. -/
theorem amoDoubleResults : Obligations.AmoDoubleResults := by
  intro s _ _ _ rs2 _ hxlen hmem hallowed
  have hlt : s.xval rs2 < 2 ^ 64 := State.w_of_rv64 hxlen ▸ s.xval_lt rs2
  have hv : ((s.xget rs2).setWidth 64).toNat = s.xval rs2 :=
    (BitVec.toNat_setWidth ..).trans (Nat.mod_eq_of_lt hlt)
  exact amo_operations_write hmem (by norm_num) hallowed hv

/-! ## An AMO that stops -/

section
variable {s : State} {a : BitVec s.w} {n : Nat}

theorem misaligned_eq_true (h : ¬ Aligned a.toNat n) : misaligned a n = true :=
  Bool.eq_true_of_not_eq_false (mt (misaligned_eq_false a n).mp h)

theorem amoCheck_of_not_aligned (h : ¬ Aligned a.toNat n) :
    amoCheck s a n = some .storeAddressMisaligned :=
  if_pos (misaligned_eq_true h)

/-- Past the alignment check, an AMO that does not pass its checks raises the access fault. -/
theorem amoCheck_of_denied (haligned : Aligned a.toNat n)
    (h : ¬ (EveryByte s a.toNat n s.readableAt ∧ EveryByte s a.toNat n s.writableAt)) :
    amoCheck s a n = some .storeAccessFault := by
  have hraises : amoCheck s a n ≠ none := fun hnone => h ((amoCheck_eq_none s a n).mp hnone).2
  rw [amoCheck, (misaligned_eq_false a n).mpr haligned, if_neg Bool.false_ne_true] at hraises ⊢
  exact if_neg fun hall => hraises (if_pos hall)

theorem raise_traps (s : State) (e : Exception) {w : Nat} (a : BitVec w) :
    Traps (raise e (some (a.setWidth 64)) s) s e (some a.toNat) := by
  rw [Traps, raise_eq, Option.map_some, BitVec.ofNat_toNat, State.pcNat, BitVec.ofNat_toNat]

end

section
variable {s : State} {n : Nat} {rd rs2 rs1 : Reg}
  {op : BitVec (8 * n) → BitVec (8 * n) → BitVec (8 * n)}

theorem amo_traps {e : Exception} (h : amoCheck s (s.xget rs1) n = some e) :
    Traps (amo n op rd rs2 rs1 s) s e (some (s.xval rs1)) := by
  rw [amo, h]
  exact raise_traps s e (s.xget rs1)

theorem amo_refused (hcheck : amoCheck s (s.xget rs1) n = none)
    (hcode : ¬ EveryByte s (s.xval rs1) n fun b => !s.executableAt b) :
    amo n op rd rs2 rs1 s = .refused (.storeToExecutable (BitVec.ofNat 64 (s.xval rs1))) := by
  have htouches : touchesCode s (s.xget rs1) n = true :=
    Bool.eq_true_of_not_eq_false (mt (touchesCode_eq_false s (s.xget rs1) n).mp hcode)
  rw [amo, hcheck, State.xval, BitVec.ofNat_toNat]
  exact if_pos htouches

end

/-! ## The instructions are the operations, whatever `aq` and `rl` -/

/-- The nine operations, in the order of `amoWords` and `amoDoubles`. -/
def amoOps (w : Nat) : List (BitVec w → BitVec w → BitVec w) :=
  [amoAddOp, amoAndOp, amoMaxOp, amoMaxuOp, amoMinOp, amoMinuOp, amoOrOp, amoSwapOp, amoXorOp]

section
variable (s : State) (aq rl : BitVec 1) (rd rs2 rs1 : Reg)

theorem map_exec_amoWords : (amoWords aq rl rd rs2 rs1).map (fun i => exec i s) =
    (amoOps (8 * 4)).map fun op => amo 4 op rd rs2 rs1 s := rfl

theorem map_exec_amoDoubles : (amoDoubles aq rl rd rs2 rs1).map (fun i => exec i s) =
    (amoOps (8 * 8)).map fun op => amo 8 op rd rs2 rs1 s := rfl

/-- An AMO of either width is the common sequence with one of the operations. -/
theorem exec_amo {n : Nat} {i : Instr}
    (hi : n = 4 ∧ i ∈ amoWords aq rl rd rs2 rs1 ∨ n = 8 ∧ i ∈ amoDoubles aq rl rd rs2 rs1) :
    ∃ op, amo n op rd rs2 rs1 s = exec i s := by
  have hmem : exec i s ∈ (amoOps (8 * n)).map fun op => amo n op rd rs2 rs1 s := by
    rcases hi with ⟨rfl, hword⟩ | ⟨rfl, hdouble⟩
    · exact map_exec_amoWords s aq rl rd rs2 rs1 ▸ List.mem_map_of_mem hword
    · exact map_exec_amoDoubles s aq rl rd rs2 rs1 ▸ List.mem_map_of_mem hdouble
  obtain ⟨op, -, hexec⟩ := List.mem_map.mp hmem
  exact ⟨op, hexec⟩

end

/-- Settles O16: the three stops of the common sequence, in the order of its checks. -/
theorem amoStops : Obligations.AmoStops := by
  intro s aq rl rd rs2 rs1 n i hi
  obtain ⟨op, hexec⟩ := exec_amo s aq rl rd rs2 rs1 hi
  rw [← hexec]
  exact ⟨fun hmisaligned => amo_traps (amoCheck_of_not_aligned hmisaligned),
    fun haligned hdenied => amo_traps (amoCheck_of_denied haligned hdenied),
    fun haligned hread hwrite hcode =>
      amo_refused ((amoCheck_eq_none ..).mpr ⟨haligned, hread, hwrite⟩) hcode⟩

/-- Settles O17: both lists run the same operations, in which `aq` and `rl` do not occur. -/
theorem aqRlChangeNothing : Obligations.AqRlChangeNothing := fun s aq rl aq' rl' rd rs2 rs1 =>
  ⟨(map_exec_amoWords s aq rl rd rs2 rs1).trans (map_exec_amoWords s aq' rl' rd rs2 rs1).symm,
    (map_exec_amoDoubles s aq rl rd rs2 rs1).trans (map_exec_amoDoubles s aq' rl' rd rs2 rs1).symm⟩

end Sys2Proof.Machine
end

section
/-! Conditional branches and their pseudo-instructions (`42_branches.md` R170 to R186): the
comparisons as relations of numbers, where a branch goes, and each branch by its comparison. -/
namespace Sys2Proof.Machine

/-! ## The comparisons in numbers -/

section
variable {w : Nat} (a b : BitVec w)

theorem geSigned_iff : geSigned a b = true ↔ a.toInt ≥ b.toInt := decide_eq_true_iff

theorem ltSigned_iff : ltSigned a b = true ↔ a.toInt < b.toInt := decide_eq_true_iff

theorem geUnsigned_iff : geUnsigned a b = true ↔ a.toNat ≥ b.toNat := decide_eq_true_iff

theorem ltUnsigned_iff : ltUnsigned a b = true ↔ a.toNat < b.toNat := decide_eq_true_iff

theorem beq_iff_toNat_eq : (a == b) = true ↔ a.toNat = b.toNat :=
  beq_iff_eq.trans BitVec.toNat_inj.symm

theorem bne_iff_toNat_ne : (a != b) = true ↔ a.toNat ≠ b.toNat :=
  bne_iff_ne.trans BitVec.toNat_inj.symm.not

end

@[simp] theorem State.xint_zero (s : State) : s.xint 0#5 = 0 := by
  simp [State.xint]

/-! ## Where a branch goes (`42_branches.md` R170) -/

/-- `pc` plus an offset held without its low zero bit, modulo 2^XLEN. -/
theorem toNat_pcv_add_halved (s : State) {v : Nat} (o : BitVec v) :
    (s.pcv + (o ++ 0#1).signExtend s.w).toNat = wrap s.w (s.pcNat + 2 * o.toInt) := by
  rw [toNat_add_signExtend, toInt_append_zeros, pow_one, mul_comm, State.pcNat]

/-- A branch of any length, on a condition that says `p`, to any offset. -/
theorem branch_goesTo (s : State) {cond : Bool} {p : Prop} [Decidable p] (hcond : cond = true ↔ p)
    {offset : BitVec s.w} {taken : Nat} (htaken : (s.pcv + offset).toNat = taken) (ilen : Nat) :
    GoesTo (branch s cond offset ilen) s (if p then taken else (s.pcNat + ilen) % 2 ^ s.w) := by
  have hnext : (s.pcv + BitVec.ofNat s.w ilen).toNat = (s.pcNat + ilen) % 2 ^ s.w :=
    byteAddr_toNat s.pcv ilen
  by_cases hp : p
  · rw [if_pos hp, ← htaken, branch, if_pos (hcond.mpr hp)]
    exact goesTo_setPc s _
  · rw [if_neg hp, ← hnext, branch, if_neg (mt hcond.mp hp)]
    exact goesTo_setPc s _

/-- Where a 4-byte branch goes that is taken exactly if `p`. -/
def branchTarget (s : State) (p : Prop) [Decidable p] (o : BitVec 12) : Nat :=
  if p then wrap s.w (s.pcNat + 2 * o.toInt) else (s.pcNat + 4) % 2 ^ s.w

/-! ## The six branches -/

section
variable (s : State) (rs1 rs2 : Reg) (o : BitVec 12)

theorem beq_goesTo :
    GoesTo (exec (.beq rs1 rs2 o) s) s (branchTarget s (s.xval rs1 = s.xval rs2) o) :=
  branch_goesTo s (beq_iff_toNat_eq ..) (toNat_pcv_add_halved s o) 4

theorem bge_goesTo :
    GoesTo (exec (.bge rs1 rs2 o) s) s (branchTarget s (s.xint rs1 ≥ s.xint rs2) o) :=
  branch_goesTo s (geSigned_iff ..) (toNat_pcv_add_halved s o) 4

theorem bgeu_goesTo :
    GoesTo (exec (.bgeu rs1 rs2 o) s) s (branchTarget s (s.xval rs1 ≥ s.xval rs2) o) :=
  branch_goesTo s (geUnsigned_iff ..) (toNat_pcv_add_halved s o) 4

theorem blt_goesTo :
    GoesTo (exec (.blt rs1 rs2 o) s) s (branchTarget s (s.xint rs1 < s.xint rs2) o) :=
  branch_goesTo s (ltSigned_iff ..) (toNat_pcv_add_halved s o) 4

theorem bltu_goesTo :
    GoesTo (exec (.bltu rs1 rs2 o) s) s (branchTarget s (s.xval rs1 < s.xval rs2) o) :=
  branch_goesTo s (ltUnsigned_iff ..) (toNat_pcv_add_halved s o) 4

theorem bne_goesTo :
    GoesTo (exec (.bne rs1 rs2 o) s) s (branchTarget s (s.xval rs1 ≠ s.xval rs2) o) :=
  branch_goesTo s (bne_iff_toNat_ne ..) (toNat_pcv_add_halved s o) 4

end

/-- Settles O18: one lemma per branch. -/
theorem branchResults : Obligations.BranchResults := fun s rs1 rs2 o =>
  ⟨beq_goesTo s rs1 rs2 o, bge_goesTo s rs1 rs2 o, bgeu_goesTo s rs1 rs2 o,
    blt_goesTo s rs1 rs2 o, bltu_goesTo s rs1 rs2 o, bne_goesTo s rs1 rs2 o⟩

/-! ## The ten pseudo-instructions -/

/-- Settles O19: each is one of the six branches, with its operands exchanged (`bgt`, `bgtu`, `ble`,
`bleu`) or with `x0`, which reads zero, for one of them (the other six). -/
theorem pseudoBranchesTaken : Obligations.PseudoBranchesTaken := by
  intro s r1 r2 o
  have hxval : s.xval 0 = 0 := s.xval_zero
  have hxint : s.xint 0 = 0 := s.xint_zero
  refine ⟨⟨rfl, ?beqz⟩, ⟨rfl, ?bgez⟩, ⟨rfl, blt_goesTo s r2 r1 o⟩, ⟨rfl, bltu_goesTo s r2 r1 o⟩,
    ⟨rfl, ?bgtz⟩, ⟨rfl, bge_goesTo s r2 r1 o⟩, ⟨rfl, bgeu_goesTo s r2 r1 o⟩, ⟨rfl, ?blez⟩,
    ⟨rfl, ?bltz⟩, ⟨rfl, ?bnez⟩⟩
  case beqz => exact hxval ▸ beq_goesTo s r1 0 o
  case bgez => exact hxint ▸ bge_goesTo s r1 0 o
  case bgtz => exact hxint ▸ blt_goesTo s 0 r1 o
  case blez => exact hxint ▸ bge_goesTo s 0 r1 o
  case bltz => exact hxint ▸ blt_goesTo s r1 0 o
  case bnez => exact hxval ▸ bne_goesTo s r1 0 o

end Sys2Proof.Machine
end

section
/-! Compressed computational instructions (`43_compressed_alu.md` R200 to R218): the results that no
earlier lemma gives in numbers, each instruction's result and frame, and the agreement with the
expanded forms that are in the excerpt. -/
namespace Sys2Proof.Machine

/-! ## Differences, word results and shifts in numbers -/

section
variable {w : Nat} (a b : BitVec w)

theorem sub_eq_ofInt : a - b = BitVec.ofInt w ((a.toNat : Int) - b.toNat) := by
  rw [Int.sub_eq_add_neg, BitVec.ofInt_add, BitVec.ofInt_neg, ← eq_ofInt_toNat, ← eq_ofInt_toNat,
    BitVec.sub_eq_add_neg]

theorem toNat_sub_eq_wrap : (a - b).toNat = wrap w ((a.toNat : Int) - b.toNat) := by
  rw [sub_eq_ofInt, toNat_ofInt_eq_wrap]

theorem toNat_sextWord_add (h : 32 ≤ w) :
    (sextWord w (a + b)).toNat = wrap w (signedOf 32 (a.toNat + b.toNat)) := by
  rw [add_eq_ofInt, toNat_sextWord_ofInt h]

theorem toNat_sextWord_sub (h : 32 ≤ w) :
    (sextWord w (a - b)).toNat = wrap w (signedOf 32 ((a.toNat : Int) - b.toNat)) := by
  rw [sub_eq_ofInt, toNat_sextWord_ofInt h]

theorem toNat_sextWord_add_signExtend {k : Nat} (h : 32 ≤ w) (o : BitVec k) :
    (sextWord w (a + o.signExtend w)).toNat = wrap w (signedOf 32 (a.toNat + o.toInt)) := by
  rw [add_signExtend_eq_ofInt, toNat_sextWord_ofInt h]

theorem toNat_shiftLeft_eq_mul (n : Nat) : (a <<< n).toNat = a.toNat * 2 ^ n % 2 ^ w := by
  rw [BitVec.toNat_shiftLeft, Nat.shiftLeft_eq]

theorem toNat_ushiftRight_eq_div (n : Nat) : (a >>> n).toNat = a.toNat / 2 ^ n := by
  rw [BitVec.toNat_ushiftRight, Nat.shiftRight_eq_div_pow]

/-- An arithmetic shift rounds toward minus infinity. -/
theorem toNat_sshiftRight_eq_wrap (n : Nat) :
    (a.sshiftRight n).toNat = wrap w (a.toInt / 2 ^ n) := by
  rw [BitVec.sshiftRight, toNat_ofInt_eq_wrap, Int.shiftRight_eq_div_pow]
  norm_cast

end

theorem toNat_signExtend_eq_wrap {k : Nat} (w : Nat) (o : BitVec k) :
    (o.signExtend w).toNat = wrap w o.toInt := by
  rw [signExtend_eq_ofInt, toNat_ofInt_eq_wrap]

/-! ## The register forms -/

section
variable (s : State) (rd rs2 : Reg) (d r : CReg)

theorem cAdd_writesX :
    WritesX (exec (.cAdd rd rs2) s) s rd ((s.xval rd + s.xval rs2) % 2 ^ s.w) 2 :=
  writesX_xset_of_toNat (BitVec.toNat_add ..)

theorem cMv_writesX : WritesX (exec (.cMv rd rs2) s) s rd (s.xval rs2) 2 :=
  writesX_xset s rd (s.xget rs2) 2

theorem cAnd_writesX :
    WritesX (exec (.cAnd d r) s) s (creg d) (s.xval (creg d) &&& s.xval (creg r)) 2 :=
  writesX_xset_of_toNat (BitVec.toNat_and ..)

theorem cOr_writesX :
    WritesX (exec (.cOr d r) s) s (creg d) (s.xval (creg d) ||| s.xval (creg r)) 2 :=
  writesX_xset_of_toNat (BitVec.toNat_or ..)

theorem cXor_writesX :
    WritesX (exec (.cXor d r) s) s (creg d) (s.xval (creg d) ^^^ s.xval (creg r)) 2 :=
  writesX_xset_of_toNat (BitVec.toNat_xor ..)

theorem cSub_writesX :
    WritesX (exec (.cSub d r) s) s (creg d)
      (wrap s.w ((s.xval (creg d) : Int) - s.xval (creg r))) 2 :=
  writesX_xset_of_toNat (toNat_sub_eq_wrap ..)

theorem cAddw_writesX :
    WritesX (exec (.cAddw d r) s) s (creg d)
      (wrap s.w (signedOf 32 (s.xval (creg d) + s.xval (creg r)))) 2 :=
  writesX_xset_of_toNat (toNat_sextWord_add _ _ s.le_w)

theorem cSubw_writesX :
    WritesX (exec (.cSubw d r) s) s (creg d)
      (wrap s.w (signedOf 32 ((s.xval (creg d) : Int) - s.xval (creg r)))) 2 :=
  writesX_xset_of_toNat (toNat_sextWord_sub _ _ s.le_w)

end

/-- Settles O21: one lemma per instruction. -/
theorem compressedRegisterResults : Obligations.CompressedRegisterResults :=
  fun s rd rs2 d r =>
    ⟨cAdd_writesX s rd rs2, cMv_writesX s rd rs2, cAnd_writesX s d r, cOr_writesX s d r,
      cXor_writesX s d r, cSub_writesX s d r, cAddw_writesX s d r, cSubw_writesX s d r⟩

/-! ## The immediate forms -/

section
variable (s : State) (rd : Reg) (d : CReg) (imm : BitVec 6) (u : BitVec 8)

theorem cAddi_writesX :
    WritesX (exec (.cAddi rd imm) s) s rd (wrap s.w (s.xval rd + imm.toInt)) 2 :=
  writesX_xset_of_toNat (toNat_add_signExtend ..)

theorem cAddi16sp_writesX :
    WritesX (exec (.cAddi16sp imm) s) s 2 (wrap s.w (s.xval 2 + 16 * imm.toInt)) 2 := by
  refine writesX_xset_of_toNat ?_
  rw [imm16sp, toNat_add_signExtend, toInt_append_zeros, mul_comm]
  rfl

theorem cAddi4spn_writesX :
    WritesX (exec (.cAddi4spn d u) s) s (creg d) ((s.xval 2 + 4 * u.toNat) % 2 ^ s.w) 2 :=
  writesX_xset_of_toNat (toNat_xget_add_scaled s sp 2 u)

theorem cAddiw_writesX :
    WritesX (exec (.cAddiw rd imm) s) s rd
      (wrap s.w (signedOf 32 (s.xval rd + imm.toInt))) 2 :=
  writesX_xset_of_toNat (toNat_sextWord_add_signExtend _ s.le_w imm)

theorem cAndi_writesX :
    WritesX (exec (.cAndi d imm) s) s (creg d) (s.xval (creg d) &&& wrap s.w imm.toInt) 2 := by
  refine writesX_xset_of_toNat ?_
  rw [BitVec.toNat_and, immC, toNat_signExtend_eq_wrap, State.xval]

theorem cLi_writesX : WritesX (exec (.cLi rd imm) s) s rd (wrap s.w imm.toInt) 2 :=
  writesX_xset_of_toNat (toNat_signExtend_eq_wrap s.w imm)

theorem cLui_writesX : WritesX (exec (.cLui rd imm) s) s rd (wrap s.w (4096 * imm.toInt)) 2 := by
  refine writesX_xset_of_toNat ?_
  rw [immCLui, toNat_signExtend_eq_wrap, toInt_append_zeros, mul_comm]
  rfl

end

/-- Settles O22: one lemma per instruction. -/
theorem compressedImmediateResults : Obligations.CompressedImmediateResults :=
  fun s rd d imm u =>
    ⟨cAddi_writesX s rd imm, cAddi16sp_writesX s imm, cAddi4spn_writesX s d u,
      cAddiw_writesX s rd imm, cAndi_writesX s d imm, cLi_writesX s rd imm, cLui_writesX s rd imm⟩

/-! ## The shifts -/

section
variable (s : State) (rd : Reg) (d : CReg) (u : BitVec 6)

theorem cSlli_writesX :
    WritesX (exec (.cSlli rd u) s) s rd (s.xval rd * 2 ^ u.toNat % 2 ^ s.w) 2 :=
  writesX_xset_of_toNat (toNat_shiftLeft_eq_mul ..)

theorem cSrai_writesX :
    WritesX (exec (.cSrai d u) s) s (creg d) (wrap s.w (s.xint (creg d) / 2 ^ u.toNat)) 2 :=
  writesX_xset_of_toNat (toNat_sshiftRight_eq_wrap ..)

theorem cSrli_writesX :
    WritesX (exec (.cSrli d u) s) s (creg d) (s.xval (creg d) / 2 ^ u.toNat) 2 :=
  writesX_xset_of_toNat (toNat_ushiftRight_eq_div ..)

end

/-- Settles O23: one lemma per instruction. The model's shifts have these values for an amount of
`XLEN` or more too, so the bound is not used. -/
theorem compressedShiftResults : Obligations.CompressedShiftResults :=
  fun s rd d u _ => ⟨cSlli_writesX s rd u, cSrai_writesX s d u, cSrli_writesX s d u⟩

/-! ## The immediates of the expanded forms

An expansion holds the compressed immediate extended to 12 bits; extended from there to the register
width it is the compressed immediate extended at once. -/

theorem signExtend_signExtend_of_le {k m : Nat} (w : Nat) (h : k ≤ m) (o : BitVec k) :
    (o.signExtend m).signExtend w = o.signExtend w := by
  rw [signExtend_eq_ofInt, BitVec.toInt_signExtend_of_le h, ← signExtend_eq_ofInt]

/-- With a zero on top, sign extension is zero extension. -/
theorem signExtend_setWidth_of_lt {k m : Nat} (w : Nat) (h : k < m) (o : BitVec k) :
    (o.setWidth m).signExtend w = o.setWidth w := by
  have hmsb : (o.setWidth m).msb = false := by
    rw [BitVec.msb_setWidth, BitVec.getLsbD_of_ge _ _ (Nat.le_sub_one_of_lt h), Bool.and_false]
  rw [BitVec.signExtend_eq_setWidth_of_msb_false hmsb]
  exact BitVec.setWidth_setWidth (by omega)

section
variable (w : Nat)

theorem immI_signExtend (imm : BitVec 6) : immI w (imm.signExtend 12) = immC w imm :=
  signExtend_signExtend_of_le w (by decide) imm

theorem immI_signExtend_16sp (imm : BitVec 6) :
    immI w ((imm ++ 0#4).signExtend 12) = imm16sp w imm :=
  signExtend_signExtend_of_le w (by decide) (imm ++ 0#4)

theorem immI_setWidth_4spn (u : BitVec 8) : immI w ((u ++ 0#2).setWidth 12) = uimm4spn w u :=
  signExtend_setWidth_of_lt w (by decide) (u ++ 0#2)

end

/-! ## Agreement with the expanded forms (R200 (b)) -/

/-- Two instructions of 2 and 4 bytes that write the same value to the same x register. -/
theorem sameButLength_xset {s : State} (rd : Reg) {v v' : BitVec s.w} (h : v = v') :
    SameButLength (.next ((s.xset rd v).advance 2)) (.next ((s.xset rd v').advance 4)) s :=
  h ▸ ⟨_, _, rfl, rfl, rfl, State.pcNat_advance (s.xset rd v) 2,
    State.pcNat_advance (s.xset rd v) 4⟩

/-- Settles O24: each pair computes one value. Three pairs have the same operands; in the other
seven an immediate was extended to 12 bits, or `x0`, which reads zero, is a further operand, or
both. -/
theorem compressedAgreesWithExpanded : Obligations.CompressedAgreesWithExpanded := by
  intro s rd rs2 d r imm u
  refine ⟨sameButLength_xset rd rfl, sameButLength_xset rd ?cMv, sameButLength_xset rd ?cAddi,
    sameButLength_xset rd ?cLi, sameButLength_xset sp ?cAddi16sp,
    sameButLength_xset (creg d) ?cAddi4spn, sameButLength_xset rd ?cAddiw,
    sameButLength_xset (creg d) rfl, sameButLength_xset (creg d) rfl,
    sameButLength_xset (creg d) ?cAndi⟩
  case cMv => exact (BitVec.zero_add _).symm
  case cAddi | cAddiw | cAndi => rw [immI_signExtend]
  case cLi =>
    rw [immI_signExtend]
    exact (BitVec.zero_add _).symm
  case cAddi16sp =>
    rw [immI_signExtend_16sp]
    rfl
  case cAddi4spn =>
    rw [immI_setWidth_4spn]
    rfl

end Sys2Proof.Machine
end

section
/-! Compressed loads and stores (`44_compressed_mem_ctrl.md` R230 to R246): what a load and a store
that are allowed leave behind, whatever the address and the register, and each instruction by its
access. -/
namespace Sys2Proof.Machine

/-! ## Integer loads -/

/-- A value at least as wide as the register is only cut. -/
theorem wrap_signedOf_of_le {w n : Nat} (h : w ≤ n) (z : Int) :
    wrap w (signedOf n z) = wrap w z := by
  have hdvd : (2 ^ w : Int) ∣ ((2 ^ n : Nat) : Int) := by
    push_cast
    exact pow_dvd_pow 2 h
  exact wrap_eq_of_dvd (hdvd.trans Int.dvd_bmod_sub_self)

section
variable {s : State} {a : BitVec s.w} {n : Nat}

/-- An allowed load, sign-extended into an x register. -/
theorem writesX_loadThen (rd : Reg) (ilen : Nat) (h : LoadAllowed s a.toNat n) :
    WritesX (loadThen s a n fun v => (s.xset rd (v.signExtend s.w)).advance ilen) s rd
      (wrap s.w (signedOf (8 * n) (s.numAt a.toNat n))) ilen := by
  rw [loadThen_next _ h]
  exact writesX_xset_of_toNat (toNat_signExtend_bytesAt s a n)

/-- A doubleword is at least as wide as the register, so its sign plays no part. -/
theorem writesX_loadDouble (rd : Reg) (ilen : Nat) (h : LoadAllowed s a.toNat 8) :
    WritesX (loadThen s a 8 fun v => (s.xset rd (v.signExtend s.w)).advance ilen) s rd
      (wrap s.w (s.numAt a.toNat 8)) ilen :=
  wrap_signedOf_of_le s.w_le (s.numAt a.toNat 8) ▸ writesX_loadThen rd ilen h

end

/-- Settles O26: four loads of a word or a doubleword into an x register. -/
theorem integerLoadResults : Obligations.IntegerLoadResults := fun _ rd d _ _ _ =>
  ⟨writesX_loadThen (creg d) 2, writesX_loadThen rd 2,
    writesX_loadDouble (creg d) 2, writesX_loadDouble rd 2⟩

/-! ## Floating-point loads -/

/-- What an f register keeps of a value: `FLEN` bits. -/
theorem toNat_setWidth_flenOf (cfg : Config) (v : BitVec 64) :
    ((v.setWidth (flenOf cfg)).setWidth 64).toNat = v.toNat % 2 ^ flenOf cfg := by
  have hlt : v.toNat % 2 ^ flenOf cfg < 2 ^ 64 := (Nat.mod_le ..).trans_lt v.isLt
  rw [BitVec.toNat_setWidth, BitVec.toNat_setWidth, Nat.mod_eq_of_lt hlt]

theorem flenOf_of_hasD {cfg : Config} (hD : cfg.hasD = true) : flenOf cfg = 64 := if_pos hD

theorem flenOf_of_hasF {cfg : Config} (hF : cfg.hasF = true) (hD : cfg.hasD = false) :
    flenOf cfg = 32 := by
  rw [flenOf, hD, hF]
  rfl

theorem toNat_nanBox_of_hasD {cfg : Config} (hD : cfg.hasD = true) (v : BitVec 32) :
    (nanBox cfg v).toNat = 0xFFFFFFFF00000000 + v.toNat := by
  rw [nanBox, if_pos (flenOf_of_hasD hD), BitVec.toNat_append, Nat.shiftLeft_eq, Nat.mul_comm,
    ← Nat.two_pow_add_eq_or_of_lt v.isLt]
  rfl

theorem toNat_nanBox_of_hasF {cfg : Config} (hF : cfg.hasF = true) (hD : cfg.hasD = false)
    (v : BitVec 32) : (nanBox cfg v).toNat = v.toNat := by
  have hne : flenOf cfg ≠ 64 := by rw [flenOf_of_hasF hF hD]; decide
  rw [nanBox, if_neg hne, BitVec.toNat_setWidth, Nat.mod_eq_of_lt (v.isLt.trans (by decide))]

/-- With D, an f register keeps a doubleword whole. -/
theorem setWidth_flenOf_of_hasD {cfg : Config} (hD : cfg.hasD = true) (v : BitVec 64) :
    (v.setWidth (flenOf cfg)).setWidth 64 = v := by
  apply BitVec.eq_of_toNat_eq
  rw [toNat_setWidth_flenOf, flenOf_of_hasD hD, Nat.mod_eq_of_lt v.isLt]

/-- A word in an f register has ones above it exactly where `FLEN = 64` (`10_state.md` R31). -/
theorem setWidth_flenOf_nanBox {cfg : Config} (hF : cfg.hasF = true) (v : BitVec 32) :
    ((nanBox cfg v).setWidth (flenOf cfg)).setWidth 64 =
      BitVec.ofNat 64 ((if cfg.hasD then 0xFFFFFFFF00000000 else 0) + v.toNat) := by
  apply BitVec.eq_of_toNat_eq
  have hv := v.isLt
  rw [toNat_setWidth_flenOf, BitVec.toNat_ofNat]
  cases hD : cfg.hasD with
  | true => rw [toNat_nanBox_of_hasD hD, flenOf_of_hasD hD, if_pos rfl]
  | false =>
    rw [toNat_nanBox_of_hasF hF hD, flenOf_of_hasF hF hD, if_neg Bool.false_ne_true]
    omega

section
variable {s : State} {a : BitVec s.w} {n : Nat}

/-- An allowed load into an f register, through the form `box` that the register gives it. -/
theorem writesF_loadThen {box : BitVec (8 * n) → BitVec 64} {v : BitVec 64} (rd : Reg) (ilen : Nat)
    (hbox : ((box (s.bytesAt a n)).setWidth (flenOf s.cfg)).setWidth 64 = v)
    (h : LoadAllowed s a.toNat n) :
    WritesF (loadThen s a n fun b => (s.fset rd (box b)).advance ilen) s rd v ilen := by
  rw [loadThen_next _ h, ← hbox]
  exact writesF_fset s rd (box (s.bytesAt a n)) ilen

theorem writesF_loadDouble (rd : Reg) (ilen : Nat) (hD : s.cfg.hasD = true)
    (h : LoadAllowed s a.toNat 8) :
    WritesF (loadThen s a 8 fun b => (s.fset rd b).advance ilen) s rd
      (BitVec.ofNat 64 (s.numAt a.toNat 8)) ilen := by
  refine writesF_loadThen (n := 8) (box := id) rd ilen ?_ h
  rw [id, ← State.toNat_bytesAt, BitVec.ofNat_toNat]
  exact (setWidth_flenOf_of_hasD hD _).trans (BitVec.setWidth_eq _).symm

theorem writesF_loadWord (rd : Reg) (ilen : Nat) (hF : s.cfg.hasF = true)
    (h : LoadAllowed s a.toNat 4) :
    WritesF (loadThen s a 4 fun b => (s.fset rd (nanBox s.cfg b)).advance ilen) s rd
      (BitVec.ofNat 64 ((if s.cfg.hasD then 0xFFFFFFFF00000000 else 0) + s.numAt a.toNat 4))
      ilen := by
  rw [← State.toNat_bytesAt]
  exact writesF_loadThen rd ilen (setWidth_flenOf_nanBox hF (s.bytesAt a 4)) h

end

/-- Settles O27: two loads of a doubleword and two of a word into an f register. -/
theorem floatLoadResults : Obligations.FloatLoadResults := fun _ rd d _ _ _ =>
  ⟨writesF_loadDouble (creg d) 2, writesF_loadDouble rd 2,
    writesF_loadWord (creg d) 2, writesF_loadWord rd 2⟩

/-! ## Stores -/

section
variable {s : State} {a : BitVec s.w} (hmem : s.mem.wf = true)
include hmem

/-- An allowed word store of the low bits of a register. -/
theorem storesNum_storeWord {w : Nat} (v : BitVec w) (h : StoreAllowed s a.toNat 4) :
    StoresNum (storeThen s a 4 (v.setWidth 32) 2) s a.toNat 4 (v.toNat % 2 ^ 32) :=
  BitVec.toNat_setWidth 32 v ▸ storesNum_storeThen (n := 4) (v.setWidth 32) hmem (by decide) h

/-- An allowed doubleword store of a 64-bit value. -/
theorem storesNum_storeDouble (v : BitVec 64) (h : StoreAllowed s a.toNat 8) :
    StoresNum (storeThen s a 8 v 2) s a.toNat 8 v.toNat :=
  storesNum_storeThen (n := 8) v hmem le_rfl h

/-- An allowed doubleword store of an x register, which is 64 bits wide at `XLEN = 64`. -/
theorem storesNum_storeDouble_xget (r : Reg) (hxlen : s.cfg.xlen = .rv64)
    (h : StoreAllowed s a.toNat 8) :
    StoresNum (storeThen s a 8 ((s.xget r).setWidth 64) 2) s a.toNat 8 (s.xval r) := by
  have hvalue : ((s.xget r).setWidth 64).toNat = s.xval r :=
    BitVec.toNat_setWidth_of_le (State.w_of_rv64 hxlen).le
  exact hvalue ▸ storesNum_storeDouble hmem _ h

end

/-- Settles O28: two stores of the low word of an x register and two of all of it. -/
theorem integerStoreResults : Obligations.IntegerStoreResults := fun s rs2 d _ _ _ hmem =>
  ⟨storesNum_storeWord hmem (s.xget (creg d)), storesNum_storeWord hmem (s.xget rs2),
    storesNum_storeDouble_xget hmem (creg d), storesNum_storeDouble_xget hmem rs2⟩

/-- Settles O29: two stores of all of an f register and two of its low word. The model's doubleword
store has this value without D too, so `hasD` is not used. -/
theorem floatStoreResults : Obligations.FloatStoreResults := fun s rs2 d _ _ _ hmem =>
  ⟨fun _ => storesNum_storeDouble hmem (s.fget (creg d)),
    fun _ => storesNum_storeDouble hmem (s.fget rs2),
    storesNum_storeWord hmem (s.fget (creg d)), storesNum_storeWord hmem (s.fget rs2)⟩

/-! ## A store and a load of the same address -/

/-- A 3-bit field names a register from `x8` on (`30_encoding.md` R111). -/
theorem creg_ne_zero (r : CReg) : creg r ≠ 0 := by
  decide +revert

/-- What a load needs depends on the launch parameters alone. -/
theorem LoadAllowed.of_cfg {s t : State} {a n : Nat} (hcfg : t.cfg = s.cfg)
    (h : LoadAllowed s a n) : LoadAllowed t a n := by
  obtain ⟨halign, hread⟩ := h
  constructor
  · rwa [AlignmentAllows, hcfg]
  · simpa only [EveryByte, State.readableAt, State.w_of_cfg hcfg, hcfg] using hread

/-- The address of a word access depends on the base register alone. -/
theorem toNat_addrWord_congr {s t : State} {r : CReg} (hcfg : t.cfg = s.cfg)
    (hbase : t.xval (creg r) = s.xval (creg r)) (u : BitVec 5) :
    (addrWord r u t).toNat = (addrWord r u s).toNat := by
  rw [addrWord, addrWord, uimmWord, uimmWord, toNat_xget_add_scaled, toNat_xget_add_scaled, hbase,
    State.w_of_cfg hcfg]

/-- Settles O32: the store leaves the base register and the launch parameters, so the load reads the
stored number at the same address. -/
theorem loadReturnsStoredWord : Obligations.LoadReturnsStoredWord := by
  intro s d d' r u hmem hstore hload
  obtain ⟨t, hsw, hnum, -, hframe⟩ := storesNum_storeWord hmem (s.xget (creg d)) hstore
  have hw : t.w = s.w := State.w_of_cfg hframe.cfg
  have haddr : (addrWord r u t).toNat = (addrWord r u s).toNat :=
    toNat_addrWord_congr hframe.cfg (hframe.xregs _ (by simp)) u
  have hload' : LoadAllowed t (addrWord r u t).toNat 4 := haddr ▸ hload.of_cfg hframe.cfg
  obtain ⟨t', hlw, hvalue, -, -⟩ := writesX_loadThen (creg d') 2 hload'
  refine ⟨t, t', hsw, hlw, ?_⟩
  calc t'.xval (creg d')
      = wrap t.w (signedOf 32 (t.numAt (addrWord r u t).toNat 4)) := by
        rw [hvalue, if_neg (creg_ne_zero d')]
    _ = wrap s.w (signedOf 32 (s.xval (creg d) % 2 ^ 32 : Nat)) := by
        rw [haddr, hnum, hw, State.xval]
    _ = wrap s.w (signedOf 32 (s.xval (creg d))) := by
        rw [← wrap_natCast 32, signedOf_wrap le_rfl]

end Sys2Proof.Machine
end

section
/-! Compressed branches and jumps (`44_compressed_mem_ctrl.md` R250 to R257): where each goes, and
the link of those that write one. -/
namespace Sys2Proof.Machine

/-! ## The branches -/

section
variable (s : State) (r : CReg) (o : BitVec 8)

theorem cBeqz_goesTo :
    GoesTo (exec (.cBeqz r o) s) s
      (if s.xval (creg r) = 0 then wrap s.w (s.pcNat + 2 * o.toInt) else (s.pcNat + 2) % 2 ^ s.w) :=
  branch_goesTo s (beq_iff_toNat_eq ..) (toNat_pcv_add_halved s o) 2

theorem cBnez_goesTo :
    GoesTo (exec (.cBnez r o) s) s
      (if s.xval (creg r) ≠ 0 then wrap s.w (s.pcNat + 2 * o.toInt) else (s.pcNat + 2) % 2 ^ s.w) :=
  branch_goesTo s (bne_iff_toNat_ne ..) (toNat_pcv_add_halved s o) 2

end

/-- Settles O35: a branch on the comparison with zero, one lemma per instruction. -/
theorem compressedBranchResults : Obligations.CompressedBranchResults := fun s r o =>
  ⟨cBeqz_goesTo s r o, cBnez_goesTo s r o⟩

/-! ## The jumps -/

/-- The target of a register jump: the value less its bit 0 (R250 (d)). -/
theorem toNat_evenTarget {w : Nat} (v : BitVec w) :
    (evenTarget v).toNat = v.toNat - v.toNat % 2 := by
  have heven := evenTarget_even v
  have hbits : evenTarget v >>> 1 = v >>> 1 := by
    ext i hi
    simpa [evenTarget] using fun h => BitVec.lt_of_getLsbD (x := v) (i := 1 + i) h
  have hhalf : (evenTarget v).toNat / 2 = v.toNat / 2 := by
    simpa [Nat.shiftRight_eq_div_pow] using congrArg BitVec.toNat hbits
  omega

section
variable {s : State} {v : BitVec s.w} {target : Nat}

theorem goesTo_setPc_of_toNat (h : v.toNat = target) : GoesTo (.next (s.setPc v)) s target :=
  h ▸ goesTo_setPc s v

/-- A jump that links: the target does not see the link, since it is computed from `s`. -/
theorem linksAndGoesTo_of_toNat (h : v.toNat = target) :
    LinksAndGoesTo (.next ((s.xset ra (s.pcv + 2#s.w)).setPc v)) s target := by
  refine ⟨_, rfl, ?link, (State.pcNat_setPc (s.xset ra _) v).trans h,
    ((ChangesOnly.refl s [] [] [] []).xset ra _).setPc v⟩
  case link =>
    calc ((s.xset ra (s.pcv + 2#s.w)).setPc v).xval 1
        = (s.xset ra (s.pcv + 2#s.w)).xval ra := State.xval_setPc (s.xset ra _) v 1
      _ = (s.pcv + 2#s.w).toNat := State.xval_xset_self s ra _
      _ = (s.pcNat + 2) % 2 ^ s.w := byteAddr_toNat s.pcv 2

end

/-- Settles O36: two jumps by an offset and two to a register, one of each with a link. -/
theorem compressedJumpResults : Obligations.CompressedJumpResults := fun s rs1 o =>
  ⟨goesTo_setPc_of_toNat (toNat_pcv_add_halved s o),
    linksAndGoesTo_of_toNat (toNat_pcv_add_halved s o),
    linksAndGoesTo_of_toNat (toNat_evenTarget (s.xget rs1)),
    goesTo_setPc_of_toNat (toNat_evenTarget (s.xget rs1))⟩

end Sys2Proof.Machine
end

section
/-! Control and status registers (`45_csr.md` R270 to R283): the value each CSR instruction leaves, in
numbers, and what the common sequence of R270 answers for each kind of CSR. -/
namespace Sys2Proof.Machine

/-! ## The new value, in numbers -/

/-- The bits of `a` outside `b` and those inside it make up `a`. -/
theorem toNat_and_not {w : Nat} (a b : BitVec w) :
    (a &&& ~~~b).toNat = a.toNat - (a.toNat &&& b.toNat) := by
  have hdisjoint : (a &&& ~~~b) &&& (a &&& b) = 0#w := by
    ext i hi
    grind
  have hunion : (a &&& ~~~b) ||| (a &&& b) = a := by
    ext i hi
    grind
  have hsum : (a &&& ~~~b).toNat + (a.toNat &&& b.toNat) = a.toNat := by
    rw [← BitVec.toNat_and, ← BitVec.toNat_add_of_and_eq_zero hdisjoint,
      BitVec.add_eq_or_of_and_eq_zero _ _ hdisjoint, hunion]
  exact Nat.eq_sub_of_add_eq hsum

/-- An immediate has fewer bits than `XLEN` (R270 (b)). -/
theorem toNat_zimm5 (s : State) (z : BitVec 5) : (zimm5 s.w z).toNat = z.toNat :=
  BitVec.toNat_setWidth_of_le ((by decide : 5 ≤ 32).trans s.le_w)

/-! ## The common sequence (R270), by the kind of the CSR -/

section
variable {s : State} {c : CsrNum} (i : Instr) (rd : Reg) {new : BitVec s.w → BitVec s.w}

theorem csrOp_writes {value : Nat} (hcsrs : s.csrs.wf = true) (hkind : s.csrKind c = .plain)
    (hnew : (new (s.csrGet c)).toNat = value) :
    CsrWrites (csrOp s i rd c new) s rd c value := by
  refine ⟨_, (csrOp_eq_next ..).mpr ⟨hkind, rfl⟩, ?csr, ?old,
    State.pcNat_advance ((s.csrSet c _).xset rd _) 4,
    ((ChangesOnly.csrSet hcsrs c _).xset rd _).advance 4⟩
  case csr => exact (State.csrVal_csrSet s c c _ hcsrs).trans ((if_pos rfl).trans hnew)
  case old => exact State.xval_xset_self (s.csrSet c _) rd _

theorem csrOp_traps (hkind : s.csrKind c = .absent) :
    Traps (csrOp s i rd c new) s .illegalInstruction (some (encode i).zext.toNat) := by
  have htrap := raise_traps s .illegalInstruction (encode i).zext
  rw [BitVec.setWidth_eq] at htrap
  rwa [csrOp, hkind]

theorem csrOp_refused (hkind : s.csrKind c = .other) :
    csrOp s i rd c new = .refused (.otherCsr c) := by
  rw [csrOp, hkind]

end

/-! ## The six instructions: each is the common sequence with its own new value (R271 to R276) -/

section
variable (s : State) (rd rs1 : Reg) (c : CsrNum) (z : BitVec 5)

theorem exec_csrrc : exec (.csrrc rd c rs1) s =
    csrOp s (.csrrc rd c rs1) rd c fun t => t &&& ~~~(s.xget rs1) := rfl

theorem exec_csrrci : exec (.csrrci rd c z) s =
    csrOp s (.csrrci rd c z) rd c fun t => t &&& ~~~(zimm5 s.w z) := rfl

theorem exec_csrrs : exec (.csrrs rd c rs1) s =
    csrOp s (.csrrs rd c rs1) rd c fun t => t ||| s.xget rs1 := rfl

theorem exec_csrrsi : exec (.csrrsi rd c z) s =
    csrOp s (.csrrsi rd c z) rd c fun t => t ||| zimm5 s.w z := rfl

theorem exec_csrrw : exec (.csrrw rd c rs1) s =
    csrOp s (.csrrw rd c rs1) rd c fun _ => s.xget rs1 := rfl

theorem exec_csrrwi : exec (.csrrwi rd c z) s =
    csrOp s (.csrrwi rd c z) rd c fun _ => zimm5 s.w z := rfl

end

/-! ## The six instructions on a plain CSR -/

section
variable {s : State} {c : CsrNum} (hcsrs : s.csrs.wf = true) (hkind : s.csrKind c = .plain)
  (rd rs1 : Reg) (z : BitVec 5)
include hcsrs hkind

theorem csrrc_writes :
    CsrWrites (exec (.csrrc rd c rs1) s) s rd c (s.csrVal c - (s.csrVal c &&& s.xval rs1)) :=
  exec_csrrc s rd rs1 c ▸ csrOp_writes _ rd hcsrs hkind (toNat_and_not ..)

theorem csrrci_writes :
    CsrWrites (exec (.csrrci rd c z) s) s rd c (s.csrVal c - (s.csrVal c &&& z.toNat)) := by
  rw [exec_csrrci, ← toNat_zimm5 s z]
  exact csrOp_writes _ rd hcsrs hkind (toNat_and_not ..)

theorem csrrs_writes : CsrWrites (exec (.csrrs rd c rs1) s) s rd c (s.csrVal c ||| s.xval rs1) :=
  exec_csrrs s rd rs1 c ▸ csrOp_writes _ rd hcsrs hkind (BitVec.toNat_or ..)

theorem csrrsi_writes : CsrWrites (exec (.csrrsi rd c z) s) s rd c (s.csrVal c ||| z.toNat) := by
  rw [exec_csrrsi, ← toNat_zimm5 s z]
  exact csrOp_writes _ rd hcsrs hkind (BitVec.toNat_or ..)

theorem csrrw_writes : CsrWrites (exec (.csrrw rd c rs1) s) s rd c (s.xval rs1) :=
  exec_csrrw s rd rs1 c ▸ csrOp_writes _ rd hcsrs hkind rfl

theorem csrrwi_writes : CsrWrites (exec (.csrrwi rd c z) s) s rd c z.toNat :=
  exec_csrrwi s rd c z ▸ csrOp_writes _ rd hcsrs hkind (toNat_zimm5 s z)

end

/-- Settles O37: one lemma per instruction. -/
theorem csrResults : Obligations.CsrResults := fun _ rd rs1 _ z hcsrs hkind =>
  ⟨csrrc_writes hcsrs hkind rd rs1, csrrci_writes hcsrs hkind rd z,
    csrrs_writes hcsrs hkind rd rs1, csrrsi_writes hcsrs hkind rd z,
    csrrw_writes hcsrs hkind rd rs1, csrrwi_writes hcsrs hkind rd z⟩

/-! ## The stops -/

/-- Each of the six runs the common sequence, and reports its own word. -/
theorem exec_eq_csrOp_of_mem {rd rs1 : Reg} {c : CsrNum} {z : BitVec 5} {i : Instr}
    (hi : i ∈ csrInstrs rd c rs1 z) (s : State) : ∃ new, exec i s = csrOp s i rd c new := by
  simp only [csrInstrs, List.mem_cons, List.not_mem_nil, or_false] at hi
  rcases hi with rfl | rfl | rfl | rfl | rfl | rfl
  exacts [⟨_, exec_csrrc ..⟩, ⟨_, exec_csrrci ..⟩, ⟨_, exec_csrrs ..⟩, ⟨_, exec_csrrsi ..⟩,
    ⟨_, exec_csrrw ..⟩, ⟨_, exec_csrrwi ..⟩]

/-- Settles O38: a CSR that is not plain stops the common sequence, whatever its new value would be. -/
theorem csrStops : Obligations.CsrStops := by
  intro s rd rs1 c z i hi
  obtain ⟨new, hexec⟩ := exec_eq_csrOp_of_mem hi s
  rw [hexec]
  exact ⟨csrOp_traps i rd, csrOp_refused i rd⟩

/-! ## The seven pseudo-instructions -/

/-- Settles O39: `csrr` is a `csrrs` whose source is `x0`, which sets no bit; the other six are the
six instructions with the old value written to `x0`. -/
theorem pseudoCsrEffects : Obligations.PseudoCsrEffects := by
  intro s rd rs1 c z hcsrs hkind
  have hread : s.csrVal c ||| s.xval 0 = s.csrVal c :=
    (congrArg _ s.xval_zero).trans (Nat.or_zero _)
  exact ⟨⟨rfl, hread ▸ csrrs_writes hcsrs hkind rd 0⟩, ⟨rfl, csrrc_writes hcsrs hkind 0 rs1⟩,
    ⟨rfl, csrrci_writes hcsrs hkind 0 z⟩, ⟨rfl, csrrs_writes hcsrs hkind 0 rs1⟩,
    ⟨rfl, csrrsi_writes hcsrs hkind 0 z⟩, ⟨rfl, csrrw_writes hcsrs hkind 0 rs1⟩,
    ⟨rfl, csrrwi_writes hcsrs hkind 0 z⟩⟩

end Sys2Proof.Machine
end

section
/-! Division (`46_div.md` R300 to R304): the two quotients as numbers, their corner values, and the
one register each instruction writes. -/
namespace Sys2Proof.Machine

/-! ## The signed quotient -/

section
variable {w : Nat} (a : BitVec w)

theorem divSigned_zero : divSigned a 0#w = BitVec.allOnes w := if_pos rfl

theorem divSigned_intMin_allOnes (hw : 0 < w) :
    divSigned (BitVec.intMin w) (BitVec.allOnes w) = BitVec.intMin w := by
  have hnonzero : BitVec.allOnes w ≠ 0#w := mt BitVec.allOnes_eq_zero_iff.mp hw.ne'
  rw [divSigned, if_neg hnonzero, if_pos ⟨rfl, rfl⟩]

/-- One expression for the three branches of `divSigned`: in the overflowing one the exact quotient
is `2 ^ (w - 1)`, which wraps to the dividend. -/
theorem divSigned_eq_ofInt (b : BitVec w) :
    divSigned a b = BitVec.ofInt w (quotient a.toInt b.toInt) := by
  by_cases hzero : b = 0#w
  · subst hzero
    rw [divSigned_zero, BitVec.toInt_zero, quotient, if_pos rfl, BitVec.ofInt_neg]
    exact BitVec.neg_one_eq_allOnes.symm
  have hb : b.toInt ≠ 0 := BitVec.toInt_zero (w := w) ▸ BitVec.toInt_ne.mpr hzero
  rw [quotient, if_neg hb]
  by_cases hover : a = BitVec.intMin w ∧ b = BitVec.allOnes w
  · obtain ⟨rfl, rfl⟩ := hover
    have hw : 0 < w := Nat.pos_of_ne_zero (mt BitVec.allOnes_eq_zero_iff.mpr hzero)
    rw [divSigned_intMin_allOnes hw, BitVec.toInt_allOnes, if_pos hw, Int.tdiv_neg, Int.tdiv_one,
      BitVec.ofInt_neg, BitVec.ofInt_toInt, BitVec.neg_intMin]
  · rw [divSigned, if_neg hzero, if_neg hover]

end

/-! ## The unsigned quotient -/

section
variable {w : Nat} (a : BitVec w)

theorem divUnsigned_zero : divUnsigned a 0#w = BitVec.allOnes w := if_pos rfl

/-- The quotient is no larger than the dividend, so it fits. -/
theorem toNat_divUnsigned (b : BitVec w) :
    (divUnsigned a b).toNat = if b.toNat = 0 then 2 ^ w - 1 else a.toNat / b.toNat := by
  by_cases hzero : b = 0#w
  · subst hzero
    rw [divUnsigned_zero, BitVec.toNat_allOnes, BitVec.toNat_zero, if_pos rfl]
  · have hb : b.toNat ≠ 0 := fun h => hzero (BitVec.eq_of_toNat_eq h)
    rw [divUnsigned, if_neg hzero, if_neg hb, BitVec.toNat_ofNat,
      Nat.mod_eq_of_lt ((Nat.div_le_self ..).trans_lt a.isLt)]

end

/-! ## A 32-bit quotient, sign-extended -/

section
variable (w : Nat)

theorem toNat_sextWord_word (q : BitVec 32) : (sextWord w q).toNat = wrap w q.toInt := by
  rw [sextWord, BitVec.setWidth_eq, toNat_signExtend_eq_wrap]

theorem toNat_sextWord_allOnes : (sextWord w (BitVec.allOnes 32)).toNat = 2 ^ w - 1 := by
  have hminus : (BitVec.allOnes 32).toInt = -1 := by decide
  rw [toNat_sextWord_word, hminus, ← toNat_ofInt_eq_wrap, BitVec.ofInt_neg]
  exact (congrArg _ BitVec.neg_one_eq_allOnes).trans BitVec.toNat_allOnes

theorem toNat_sextWord_intMin : (sextWord w (BitVec.intMin 32)).toNat = wrap w (-2 ^ 31) := by
  have hmin : (BitVec.intMin 32).toInt = -2 ^ 31 := by decide
  rw [toNat_sextWord_word, hmin]

theorem toNat_sextWord_divSigned (a b : BitVec 32) :
    (sextWord w (divSigned a b)).toNat = wrap w (signedOf 32 (quotient a.toInt b.toInt)) := by
  rw [toNat_sextWord_word, divSigned_eq_ofInt, BitVec.toInt_ofInt, signedOf]

theorem toNat_sextWord_divUnsigned (a b : BitVec 32) :
    (sextWord w (divUnsigned a b)).toNat = wrap w (signedOf 32
      (if b.toNat = 0 then 2 ^ 32 - 1 else ((a.toNat / b.toNat : Nat) : Int))) := by
  have hones : ((2 ^ 32 - 1 : Nat) : Int) = 2 ^ 32 - 1 := by norm_num
  rw [toNat_sextWord_word, toInt_eq_signedOf, toNat_divUnsigned, Nat.cast_ite, hones]

end

/-! ## The four instructions -/

section
variable (s : State) (rd rs1 rs2 : Reg)

theorem div_writesX :
    WritesX (exec (.div rd rs1 rs2) s) s rd
      (wrap s.w (quotient (s.xint rs1) (s.xint rs2))) 4 :=
  writesX_xset_of_toNat ((congrArg _ (divSigned_eq_ofInt ..)).trans (toNat_ofInt_eq_wrap ..))

theorem divw_writesX :
    WritesX (exec (.divw rd rs1 rs2) s) s rd
      (wrap s.w (signedOf 32
        (quotient (signedOf 32 (s.xval rs1)) (signedOf 32 (s.xval rs2))))) 4 := by
  refine writesX_xset_of_toNat ?_
  rw [toNat_sextWord_divSigned, toInt_setWidth_eq, toInt_setWidth_eq]
  rfl

theorem divu_writesX :
    WritesX (exec (.divu rd rs1 rs2) s) s rd
      (if s.xval rs2 = 0 then 2 ^ s.w - 1 else s.xval rs1 / s.xval rs2) 4 :=
  writesX_xset_of_toNat (toNat_divUnsigned ..)

theorem divuw_writesX :
    WritesX (exec (.divuw rd rs1 rs2) s) s rd
      (wrap s.w (signedOf 32 (if s.xval rs2 % 2 ^ 32 = 0 then 2 ^ 32 - 1
        else ((s.xval rs1 % 2 ^ 32 / (s.xval rs2 % 2 ^ 32) : Nat) : Int)))) 4 := by
  refine writesX_xset_of_toNat ?_
  rw [toNat_sextWord_divUnsigned, BitVec.toNat_setWidth, BitVec.toNat_setWidth]
  rfl

end

/-- Settles O40: one lemma per instruction. -/
theorem signedDivisionResults : Obligations.SignedDivisionResults := fun s rd rs1 rs2 =>
  ⟨div_writesX s rd rs1 rs2, divw_writesX s rd rs1 rs2⟩

/-- Settles O41: one lemma per instruction. -/
theorem unsignedDivisionResults : Obligations.UnsignedDivisionResults := fun s rd rs1 rs2 =>
  ⟨divu_writesX s rd rs1 rs2, divuw_writesX s rd rs1 rs2⟩

/-! ## The corner values (R300 (b)) -/

/-- The low 32 bits of a register, from their number. -/
theorem setWidth_xget_eq {s : State} {r : Reg} {v : BitVec 32} (h : s.xval r % 2 ^ 32 = v.toNat) :
    (s.xget r).setWidth 32 = v :=
  BitVec.eq_of_toNat_eq ((BitVec.toNat_setWidth ..).trans h)

/-- Settles O42: the hypotheses of each clause say which bit vectors the operands are, and for those
the quotient is known. -/
theorem divisionCorners : Obligations.DivisionCorners := by
  intro s rd rs1 rs2
  refine ⟨fun hzero => ?zero, fun hzero => ?zeroWord, fun hmin hminus => ?overflow,
    fun hmin hminus => ?overflowWord⟩
  case zero =>
    have hb : s.xget rs2 = 0#s.w := BitVec.eq_of_toNat_eq hzero
    exact ⟨writesX_xset_of_toNat (by rw [hb, divSigned_zero, BitVec.toNat_allOnes]),
      writesX_xset_of_toNat (by rw [hb, divUnsigned_zero, BitVec.toNat_allOnes])⟩
  case zeroWord =>
    have hb : (s.xget rs2).setWidth 32 = 0#32 := setWidth_xget_eq hzero
    exact ⟨writesX_xset_of_toNat (by rw [hb, divSigned_zero, toNat_sextWord_allOnes]),
      writesX_xset_of_toNat (by rw [hb, divUnsigned_zero, toNat_sextWord_allOnes])⟩
  case overflow =>
    have ha : s.xget rs1 = BitVec.intMin s.w :=
      BitVec.eq_of_toInt_eq (hmin.trans (BitVec.toInt_intMin_of_pos s.w_pos).symm)
    have hb : s.xget rs2 = BitVec.allOnes s.w :=
      BitVec.eq_of_toInt_eq (hminus.trans (BitVec.toInt_allOnes.trans (if_pos s.w_pos)).symm)
    refine writesX_xset_of_toNat ?_
    rw [State.xval, ha, hb, divSigned_intMin_allOnes s.w_pos]
  case overflowWord =>
    have ha : (s.xget rs1).setWidth 32 = BitVec.intMin 32 := setWidth_xget_eq hmin
    have hb : (s.xget rs2).setWidth 32 = BitVec.allOnes 32 := setWidth_xget_eq hminus
    refine writesX_xset_of_toNat ?_
    rw [ha, hb, divSigned_intMin_allOnes (by decide), toNat_sextWord_intMin]

end Sys2Proof.Machine
end

section
/-! Environment instructions (`47_system.md` R310, R311; `44_compressed_mem_ctrl.md` R253): their
words, and the one exception each of them raises. -/
namespace Sys2Proof.Machine

/-! ## The words -/

theorem wellFormed_cEbreak {cfg : Config} (hC : cfg.hasC = true) :
    Instr.cEbreak.wellFormed cfg = true :=
  Bool.and_eq_true_iff.mpr ⟨hC, rfl⟩

/-! ## The traps -/

section
variable (s : State)

/-- An exception that reports no value (R330). -/
theorem raise_none_traps (e : Exception) : Traps (raise e none s) s e none := by
  rw [Traps, raise_eq, Option.map_none, State.pcNat, BitVec.ofNat_toNat]

theorem exec_ecall : exec .ecall s = raise .environmentCall none s := rfl

theorem exec_ebreak : exec .ebreak s = raise .breakpoint none s := rfl

theorem exec_cEbreak : exec .cEbreak s = raise .breakpoint none s := rfl

end

/-- Settles O43: each word is the encoding of its well-formed instruction, and each instruction
raises its exception in every state, with no value. -/
theorem environmentInstructionsTrap : Obligations.EnvironmentInstructionsTrap := by
  intro s
  refine ⟨decode_eq_instr_iff.mpr ⟨rfl, rfl⟩, decode_eq_instr_iff.mpr ⟨rfl, rfl⟩,
    fun hC => decode_eq_instr_iff.mpr ⟨wellFormed_cEbreak hC, rfl⟩, ?ecall, ?ebreak, ?cEbreak⟩
  case ecall => exact exec_ecall s ▸ raise_none_traps s .environmentCall
  case ebreak => exact exec_ebreak s ▸ raise_none_traps s .breakpoint
  case cEbreak => exact exec_cEbreak s ▸ raise_none_traps s .breakpoint

end Sys2Proof.Machine
end

section
/-! What an instruction leaves unchanged (`10_state.md` R23, R38; `20_memory.md` R60), form by form
of `NextForm`. -/
namespace Sys2Proof.Machine

section
variable {i : Instr} {s t : State} (h : NextForm i s t)
include h

/-- No instruction writes the launch parameters. -/
theorem NextForm.cfg_eq : t.cfg = s.cfg := by
  cases h <;> rfl

theorem NextForm.fget_eq (hi : isFloatLoad i = false) (r : Reg) : t.fget r = s.fget r := by
  cases h with
  | float _ _ hf => exact absurd hf (Bool.eq_false_iff.mp hi)
  | reg | jump | link | store | amo | csr => rfl

theorem NextForm.csrVal_eq (hi : isCsrInstr i = false) (c : CsrNum) : t.csrVal c = s.csrVal c := by
  cases h with
  | csr _ _ _ _ hc _ => exact absurd hc (Bool.eq_false_iff.mp hi)
  | reg | float | jump | link | store | amo => rfl

theorem NextForm.mem_eq (hs : isStore i = false) (ha : isAmo i = false) : t.mem = s.mem := by
  cases h with
  | store _ _ _ _ hi _ => exact absurd hi (Bool.eq_false_iff.mp hs)
  | amo _ _ _ _ _ _ hi _ _ => exact absurd hi (Bool.eq_false_iff.mp ha)
  | reg | float | jump | link | csr => rfl

theorem NextForm.xval_eq (hi : writesNoX i = true) (r : Reg) : t.xval r = s.xval r := by
  cases h with
  | float | jump | store => rfl
  | reg _ _ _ hx _ | link _ _ hx _ | amo _ _ _ _ _ _ _ hx _ | csr _ _ _ _ _ hx =>
    exact absurd hi (Bool.eq_false_iff.mp hx)

end

/-- Settles O45: each part is the contrapositive of what a form leaves unchanged. -/
theorem onlyTheirInstructionsChange : Obligations.OnlyTheirInstructionsChange := by
  intro s t i hexec
  have hform : NextForm i s t := exec_nextForm i s t hexec
  refine ⟨?f, ?csr, ?mem, ?x⟩
  case f =>
    rintro ⟨r, hr⟩
    exact Bool.eq_true_of_not_eq_false fun hi => hr (hform.fget_eq hi r)
  case csr =>
    rintro ⟨c, hc⟩
    exact Bool.eq_true_of_not_eq_false fun hi => hc (hform.csrVal_eq hi c)
  case mem =>
    rintro ⟨a, ha⟩
    by_contra hi
    obtain ⟨hstore, hamo⟩ := not_or.mp hi
    have hmem : t.mem = s.mem :=
      hform.mem_eq (Bool.eq_false_iff.mpr hstore) (Bool.eq_false_iff.mpr hamo)
    exact ha (by rw [State.byteAt, hmem, State.byteAt])
  case x =>
    rintro ⟨r, hr⟩
    exact Bool.eq_false_iff.mpr fun hi => hr (hform.xval_eq hi r)

end Sys2Proof.Machine
end

section
/-! Traps of a step (`60_exceptions.md` R330, R334): what each reports, and the parity of `pc` that
keeps fetches aligned (`10_state.md` R26). -/
namespace Sys2Proof.Machine

/-! ## The address of the instruction -/

/-- `epc` as a number, zero-extended at either width. -/
theorem setWidth_pcv (s : State) : s.pcv.setWidth 64 = BitVec.ofNat 64 s.pcNat :=
  (BitVec.ofNat_toNat ..).symm

/-! ## Before execution -/

section
variable {s : State}

theorem step_of_fetch_failed {e : Exception} (hf : fetch s = .failed e) :
    step s = raise e (some (s.pcv.setWidth 64)) s := by
  simp only [step, hf]

theorem runDecoded_illegal (c : Code) :
    runDecoded c .illegal s = raise .illegalInstruction (some c.zext) s := rfl

theorem runDecoded_notInExcerpt (c : Code) :
    runDecoded c .notInExcerpt s = .refused (.notInExcerpt c) := rfl

/-- The two exceptions of a fetch, the first only at an odd `pc`. -/
theorem fetch_eq_failed {e : Exception} (hf : fetch s = .failed e) :
    e = .instructionAddressMisaligned ∧ s.pcNat % 2 = 1 ∨ e = .instructionAccessFault := by
  unfold fetch at hf
  split at hf
  · rename_i hodd
    cases hf
    exact .inl ⟨rfl, (pcv_bit_zero_iff s).mp hodd⟩
  · split at hf
    · cases hf
      exact .inr rfl
    · split at hf
      · cases hf
      · split at hf
        · cases hf
          exact .inr rfl
        · cases hf

end

/-- Settles O11: the fetch or the decoder ends the step, with the one answer of that case. -/
theorem stepStopsBeforeExecution : Obligations.StepStopsBeforeExecution := by
  intro s
  refine ⟨?failed, ?illegal, ?refused⟩
  case failed =>
    intro e hfetch
    rw [step_of_fetch_failed hfetch]
    exact raise_traps s e s.pcv
  case illegal =>
    intro c hfetch hdecode
    rw [step_of_fetch_code hfetch, hdecode, runDecoded_illegal]
    simpa only [BitVec.setWidth_eq] using raise_traps s .illegalInstruction c.zext
  case refused =>
    intro c hfetch hdecode
    rw [step_of_fetch_code hfetch, hdecode, runDecoded_notInExcerpt]

/-! ## Every trap of a step -/

/-- Settles O46: a fetch reports `pc`, an illegal word itself, and an instruction what `TrapForm`
says; the word of a CSR instruction on an absent CSR is the one that was fetched. -/
theorem trapsReportTheirInstruction : Obligations.TrapsReportTheirInstruction := by
  intro s e epc tval hstep
  rcases step_eq_fault hstep with ⟨e', hfetch, heq⟩ | ⟨c, hfetch, -, heq⟩ |
    ⟨c, i, hfetch, hdecode, hexec⟩
  case inl =>
    cases heq
    refine ⟨setWidth_pcv s, ?_⟩
    rcases fetch_eq_failed hfetch with ⟨rfl, -⟩ | rfl
    · exact congrArg some (setWidth_pcv s)
    · exact congrArg some (setWidth_pcv s)
  case inr.inl =>
    cases heq
    exact ⟨setWidth_pcv s, c, hfetch, rfl⟩
  case inr.inr =>
    obtain ⟨e', tval', heq, hform⟩ := exec_trapForm i s _ hexec
    cases heq
    refine ⟨setWidth_pcv s, ?_⟩
    cases hform with
    | load _ a he hs ha hd =>
      rcases he with rfl | rfl
      · exact ⟨c, i, a, hfetch, hdecode, hs, ha, hd, rfl⟩
      · exact ⟨c, i, a, hfetch, hdecode, hs, ha, hd, rfl⟩
    | store _ a he hs hd =>
      rcases he with rfl | rfl
      · exact ⟨c, i, a, hfetch, hdecode, hs, hd, rfl⟩
      · exact ⟨c, i, a, hfetch, hdecode, hs, hd, rfl⟩
    | csr _ =>
      obtain ⟨-, hword⟩ := decode_eq_instr_iff.mp hdecode
      exact ⟨c, hfetch, by rw [hword]⟩
    | breakpoint => rfl
    | environmentCall => rfl

/-! ## Parity of `pc` -/

theorem pcNat_advance_even {s : State} {n : Nat} (hn : n % 2 = 0) (h : s.pcNat % 2 = 0) :
    (s.advance n).pcNat % 2 = 0 := by
  rw [State.advance, State.pcNat_setPc]
  exact pc_add_ofNat_even s hn h

/-- Every form goes on by an even distance or to an even target. -/
theorem NextForm.pcNat_even {i : Instr} {s t : State} (h : NextForm i s t)
    (heven : s.pcNat % 2 = 0) : t.pcNat % 2 = 0 := by
  cases h with
  | reg _ _ _ _ hn => exact pcNat_advance_even hn heven
  | float | store | amo | csr => exact pcNat_advance_even rfl heven
  | jump v hv =>
    rw [State.pcNat_setPc]
    exact hv heven
  | link u v _ hv => exact (State.pcNat_setPc (s.xset ra u) v).symm ▸ hv heven

/-- No instruction raises the exception of an odd `pc`. -/
theorem TrapForm.ne_instructionAddressMisaligned {i : Instr} {s : State} {e : Exception}
    {tval : Option (BitVec 64)} (h : TrapForm i s e tval) :
    e ≠ .instructionAddressMisaligned := by
  cases h with
  | load _ _ he | store _ _ he => rcases he with rfl | rfl <;> decide
  | csr | breakpoint | environmentCall => decide

/-- Settles O47: the next `pc` form by form; a misaligned fetch needs an odd `pc`. -/
theorem pcStaysEven : Obligations.PcStaysEven := by
  intro s heven
  constructor
  · intro t hstep
    obtain ⟨-, i, -, -, hexec⟩ := step_eq_next hstep
    exact (exec_nextForm i s t hexec).pcNat_even heven
  · intro epc tval hstep
    rcases step_eq_fault hstep with ⟨e, hfetch, heq⟩ | ⟨_, -, -, heq⟩ | ⟨-, i, -, -, hexec⟩
    · cases heq
      rcases fetch_eq_failed hfetch with ⟨-, hodd⟩ | hne
      · omega
      · cases hne
    · cases heq
    · obtain ⟨_, _, heq, hform⟩ := exec_trapForm i s _ hexec
      cases heq
      exact hform.ne_instructionAddressMisaligned rfl

end Sys2Proof.Machine
end

section
/-! The invariant of the state (`10_state.md` R20 to R34; `20_memory.md` R50): one lemma per state
operation, and what stays along a run (`70_reset_and_hazards.md` R378). -/
namespace Sys2Proof.Machine

/-! ## The state operations keep the invariant -/

/-- A value of the machine, as its 64-bit cell holds it, is within the machine's width. -/
theorem State.toNat_cell_lt (s : State) (v : BitVec s.w) : (v.setWidth 64).toNat < 2 ^ s.w := by
  rw [BitVec.toNat_setWidth_of_le s.w_le]
  exact v.isLt

namespace State.Inv

variable {s : State}

theorem xset (h : s.Inv) (r : Reg) (v : BitVec s.w) : (s.xset r v).Inv := by
  refine { h with zeroRegister := ?zero, xWidth := ?width }
  case zero =>
    by_cases hr : r = 0
    · simpa only [State.x_xset, if_pos hr] using h.zeroRegister
    · have hne : r.toNat ≠ 0 := fun e => hr (BitVec.eq_of_toNat_eq e)
      simpa only [State.x_xset, if_neg hr, Vector.getElem_set_ne _ _ hne] using h.zeroRegister
  case width =>
    intro i hi
    show _ < 2 ^ s.w
    by_cases hr : r = 0
    · simpa only [State.x_xset, if_pos hr] using h.xWidth i hi
    · simp only [State.x_xset, if_neg hr, Vector.getElem_set]
      split
      · exact s.toNat_cell_lt v
      · exact h.xWidth i hi

theorem fset (h : s.Inv) (r : Reg) (v : BitVec 64) : (s.fset r v).Inv := by
  refine { h with fWidth := fun i hi => ?_ }
  simp only [State.fset, Vector.getElem_set]
  split
  · rw [toNat_setWidth_flenOf]
    exact Nat.mod_lt _ (Nat.two_pow_pos _)
  · exact h.fWidth i hi

theorem setPc (h : s.Inv) {v : BitVec s.w} (hv : v.toNat % 2 = 0) : (s.setPc v).Inv :=
  { h with
    pcWidth := s.toNat_cell_lt v
    pcEven := (congrArg (· % 2) (BitVec.toNat_setWidth_of_le s.w_le)).trans hv }

/-- Within its width, `pc` is its cell. -/
theorem pcNat_even (h : s.Inv) : s.pcNat % 2 = 0 := by
  have hcell : s.pcNat = s.pc.toNat :=
    (BitVec.toNat_setWidth ..).trans (Nat.mod_eq_of_lt h.pcWidth)
  rw [hcell]
  exact h.pcEven

theorem advance (h : s.Inv) {n : Nat} (hn : n % 2 = 0) : (s.advance n).Inv :=
  h.setPc (pc_add_ofNat_even s hn h.pcNat_even)

theorem putBytes (h : s.Inv) (a : BitVec s.w) (n : Nat) (v : BitVec (8 * n)) :
    (s.putBytes a n v).Inv := by
  refine { h with
    memCanonical := Memory.wf_writeCells _ h.memCanonical
    memInSpace := fun e he => ?_ }
  rcases Memory.mem_writeCells _ he with hold | hnew
  · exact h.memInSpace e hold
  · obtain ⟨k, -, rfl⟩ := List.mem_map.mp hnew
    exact (a + BitVec.ofNat s.w k).isLt

theorem csrSet (h : s.Inv) (c : CsrNum) (v : BitVec s.w) : (s.csrSet c v).Inv := by
  refine { h with
    csrsCanonical := Csrs.wf_write _ _ h.csrsCanonical
    csrsInSpace := fun e he => ?_ }
  rcases Table.mem_write he with hold | rfl
  · exact h.csrsInSpace e hold
  · exact ⟨c.isLt, s.toNat_cell_lt v⟩

end State.Inv

/-- Every form is a chain of state operations. -/
theorem NextForm.inv {i : Instr} {s t : State} (h : NextForm i s t) (hs : s.Inv) : t.Inv := by
  cases h with
  | reg rd v _ _ hn => exact (hs.xset rd v).advance hn
  | float rd v _ => exact (hs.fset rd v).advance rfl
  | jump _ hv => exact hs.setPc (hv hs.pcNat_even)
  | link u _ _ hv => exact (hs.xset ra u).setPc (hv hs.pcNat_even)
  | store a n v => exact (hs.putBytes a n v).advance rfl
  | amo a n v rd u => exact ((hs.putBytes a n v).xset rd u).advance rfl
  | csr c v rd u => exact ((hs.csrSet c v).xset rd u).advance rfl

/-- Settles O48: a step that answers a next state ran one instruction, which keeps the invariant. -/
theorem stepKeepsInvariant : Obligations.StepKeepsInvariant := by
  intro s t hs hstep
  obtain ⟨-, i, -, -, hexec⟩ := step_eq_next hstep
  exact (exec_nextForm i s t hexec).inv hs

/-! ## Code and parameters along a run -/

theorem NextForm.mem_wf {i : Instr} {s t : State} (h : NextForm i s t) (hm : s.mem.wf = true) :
    t.mem.wf = true := by
  cases h with
  | store | amo => exact Memory.wf_writeCells _ hm
  | reg | float | jump | link | csr => exact hm

/-- A byte that is code or not writable: no store or AMO may touch it (`20_memory.md` R57, R68). -/
def State.Protected (s : State) (a : Nat) : Prop :=
  s.executableAt a = true ∨ s.writableAt a = false

theorem State.Protected.of_cfg {s t : State} {a : Nat} (hcfg : t.cfg = s.cfg)
    (h : s.Protected a) : t.Protected a := by
  rwa [State.Protected, State.executableAt, State.writableAt, hcfg]

/-- An access whose bytes are all writable and none of them code keeps the protected bytes. -/
theorem State.Protected.byteAt_putBytes {s : State} {q : Nat} (hq : s.Protected q)
    (hm : s.mem.wf = true) {a : BitVec s.w} {n : Nat} (v : BitVec (8 * n))
    (hwrite : EveryByte s a.toNat n s.writableAt)
    (hcode : EveryByte s a.toNat n fun b => !s.executableAt b) :
    (s.putBytes a n v).byteAt q = s.byteAt q := by
  refine s.byteAt_putBytes_other a n v hm q fun hmem => ?_
  obtain ⟨k, hk, rfl⟩ := List.mem_map.mp hmem
  have hw := hwrite k (List.mem_range.mp hk)
  have hx := hcode k (List.mem_range.mp hk)
  rcases hq with hexec | hlocked
  · simp [hexec] at hx
  · simp [hlocked] at hw

theorem NextForm.byteAt_eq_of_protected {i : Instr} {s t : State} (h : NextForm i s t)
    (hm : s.mem.wf = true) {q : Nat} (hq : s.Protected q) : t.byteAt q = s.byteAt q := by
  cases h with
  | store a n v _ _ ha =>
    obtain ⟨-, hwrite, hcode⟩ := ha
    exact hq.byteAt_putBytes hm v hwrite hcode
  | amo a n v _ _ _ _ _ ha =>
    obtain ⟨-, -, hwrite, hcode⟩ := ha
    exact hq.byteAt_putBytes hm v hwrite hcode
  | reg | float | jump | link | csr => rfl

/-- Settles O50, by induction on the run: each step keeps the parameters, canonical memory and the
protected bytes. -/
theorem runsKeepCodeAndParameters : Obligations.RunsKeepCodeAndParameters := by
  intro s t hm hrun
  induction hrun with
  | here s => exact ⟨rfl, fun _ _ => rfl⟩
  | more hstep _ ih =>
    obtain ⟨-, i, -, -, hexec⟩ := step_eq_next hstep
    have hform := exec_nextForm i _ _ hexec
    obtain ⟨hcfg, hbytes⟩ := ih (hform.mem_wf hm)
    refine ⟨hcfg.trans hform.cfg_eq, fun a (ha : State.Protected _ a) => ?_⟩
    exact (hbytes a (ha.of_cfg hform.cfg_eq)).trans (hform.byteAt_eq_of_protected hm ha)

end Sys2Proof.Machine
end

section
/-! Compressed loads and stores that stop (`44_compressed_mem_ctrl.md` R230 (d); `20_memory.md` R55,
R57, R58, R68), in the order of their checks. -/
namespace Sys2Proof.Machine

/-! ## The checks -/

section
variable {s : State} {a : BitVec s.w} {n : Nat}

/-- The alignment test of a load or store, as `loadCheck` and `storeCheck` make it. -/
theorem alignment_test_iff :
    (s.cfg.misaligned = .trap ∧ misaligned a n = true) ↔ ¬ AlignmentAllows s a.toNat n := by
  rw [AlignmentAllows, ← misaligned_eq_false]
  cases s.cfg.misaligned <;> simp

theorem loadCheck_of_not_aligned (h : ¬ AlignmentAllows s a.toNat n) :
    loadCheck s a n = some .loadAddressMisaligned :=
  if_pos (alignment_test_iff.mpr h)

theorem loadCheck_of_denied (haligned : AlignmentAllows s a.toNat n)
    (hdenied : ¬ EveryByte s a.toNat n s.readableAt) :
    loadCheck s a n = some .loadAccessFault := by
  rw [loadCheck, if_neg fun h => alignment_test_iff.mp h haligned,
    if_neg (mt (all_byteAddrs s a n _).mp hdenied)]

theorem storeCheck_of_not_aligned (h : ¬ AlignmentAllows s a.toNat n) :
    storeCheck s a n = some .storeAddressMisaligned :=
  if_pos (alignment_test_iff.mpr h)

theorem storeCheck_of_denied (haligned : AlignmentAllows s a.toNat n)
    (hdenied : ¬ EveryByte s a.toNat n s.writableAt) :
    storeCheck s a n = some .storeAccessFault := by
  rw [storeCheck, if_neg fun h => alignment_test_iff.mp h haligned,
    if_neg (mt (all_byteAddrs s a n _).mp hdenied)]

/-! ## The shared operations -/

theorem loadThen_traps {k : BitVec (8 * n) → State} {e : Exception}
    (h : loadCheck s a n = some e) : Traps (loadThen s a n k) s e (some a.toNat) := by
  rw [loadThen, h]
  exact raise_traps s e a

theorem storeThen_traps {v : BitVec (8 * n)} {ilen : Nat} {e : Exception}
    (h : storeCheck s a n = some e) : Traps (storeThen s a n v ilen) s e (some a.toNat) := by
  rw [storeThen, h]
  exact raise_traps s e a

theorem storeThen_refused {v : BitVec (8 * n)} {ilen : Nat} (hcheck : storeCheck s a n = none)
    (hcode : ¬ EveryByte s a.toNat n fun b => !s.executableAt b) :
    storeThen s a n v ilen = .refused (.storeToExecutable (BitVec.ofNat 64 a.toNat)) := by
  have htouches : touchesCode s a n = true :=
    Bool.eq_true_of_not_eq_false (mt (touchesCode_eq_false s a n).mp hcode)
  rw [storeThen, hcheck, BitVec.ofNat_toNat]
  exact if_pos htouches

end

/-! ## The instructions -/

section
variable {s : State} {rd rs2 : Reg} {d r : CReg} {u : BitVec 5} {v : BitVec 6} {n a : Nat}
  {i : Instr}

/-- The eight compressed loads are the load of `n` bytes at their address. -/
theorem exec_load
    (hi : n = 4 ∧ a = (addrWord r u s).toNat ∧ (i = .cLw d u r ∨ i = .cFlw d u r) ∨
      n = 4 ∧ a = (addrWordSp v s).toNat ∧ (i = .cLwsp rd v ∨ i = .cFlwsp rd v) ∨
      n = 8 ∧ a = (addrDouble r u s).toNat ∧ (i = .cLd d u r ∨ i = .cFld d u r) ∨
      n = 8 ∧ a = (addrDoubleSp v s).toNat ∧ (i = .cLdsp rd v ∨ i = .cFldsp rd v)) :
    ∃ (b : BitVec s.w) (k : BitVec (8 * n) → State),
      b.toNat = a ∧ exec i s = loadThen s b n k := by
  rcases hi with ⟨rfl, rfl, rfl | rfl⟩ | ⟨rfl, rfl, rfl | rfl⟩ | ⟨rfl, rfl, rfl | rfl⟩ |
    ⟨rfl, rfl, rfl | rfl⟩
  all_goals
    simp only [exec, execCLw, execCFlw, execCLwsp, execCFlwsp, execCLd, execCFld, execCLdsp,
      execCFldsp]
    exact ⟨_, _, rfl, rfl⟩

/-- The eight compressed stores are the store of an `n`-byte value at their address. -/
theorem exec_store
    (hi : n = 4 ∧ a = (addrWord r u s).toNat ∧ (i = .cSw d u r ∨ i = .cFsw d u r) ∨
      n = 4 ∧ a = (addrWordSp v s).toNat ∧ (i = .cSwsp rs2 v ∨ i = .cFswsp rs2 v) ∨
      n = 8 ∧ a = (addrDouble r u s).toNat ∧ (i = .cSd d u r ∨ i = .cFsd d u r) ∨
      n = 8 ∧ a = (addrDoubleSp v s).toNat ∧ (i = .cSdsp rs2 v ∨ i = .cFsdsp rs2 v)) :
    ∃ (b : BitVec s.w) (value : BitVec (8 * n)),
      b.toNat = a ∧ exec i s = storeThen s b n value 2 := by
  rcases hi with ⟨rfl, rfl, rfl | rfl⟩ | ⟨rfl, rfl, rfl | rfl⟩ | ⟨rfl, rfl, rfl | rfl⟩ |
    ⟨rfl, rfl, rfl | rfl⟩
  all_goals
    simp only [exec, execCSw, execCFsw, execCSwsp, execCFswsp, execCSd, execCFsd, execCSdsp,
      execCFsdsp]
    exact ⟨_, _, rfl, rfl⟩

end

/-- Settles O30: the two stops of the shared load, in the order of its checks. -/
theorem loadStops : Obligations.LoadStops := by
  intro s rd d r u v n a i hi
  obtain ⟨b, k, rfl, hexec⟩ := exec_load hi
  rw [hexec]
  exact ⟨fun hmisaligned => loadThen_traps (loadCheck_of_not_aligned hmisaligned),
    fun haligned hdenied => loadThen_traps (loadCheck_of_denied haligned hdenied)⟩

/-- Settles O31: the three stops of the shared store, in the order of its checks. -/
theorem storeStops : Obligations.StoreStops := by
  intro s rs2 d r u v n a i hi
  obtain ⟨b, value, rfl, hexec⟩ := exec_store hi
  rw [hexec]
  exact ⟨fun hmisaligned => storeThen_traps (storeCheck_of_not_aligned hmisaligned),
    fun haligned hdenied => storeThen_traps (storeCheck_of_denied haligned hdenied),
    fun haligned hwrite hcode =>
      storeThen_refused ((storeCheck_eq_none ..).mpr ⟨haligned, hwrite⟩) hcode⟩

end Sys2Proof.Machine
end

section
/-! Memory as an array of bytes (`10_state.md` R38; `20_memory.md` R52): byte order, and canonical
tables as functions. -/
namespace Sys2Proof.Machine

/-- Settles O33: the eight bytes hold the doubleword, and the lower four of them less than 2^32. -/
theorem halvesOfStoredDoubleword : Obligations.HalvesOfStoredDoubleword := by
  intro s a v hmem
  have hall : (s.putBytes a 8 v).numAt a.toNat 4 +
      2 ^ (8 * 4) * (s.putBytes a 8 v).numAt (a.toNat + 4) 4 = v.toNat :=
    (State.numAt_add _ _ 4 4).symm.trans (s.numAt_putBytes a 8 v hmem le_rfl)
  have hlow : (s.putBytes a 8 v).numAt a.toNat 4 < 2 ^ 32 := State.numAt_lt ..
  omega

section
variable {β : Type} [DecidableEq β] {d : β}

/-- The entries of a canonical table are the keys that read other than the default. -/
theorem Table.mem_iff {t : List (Nat × β)} (h : Table.wf d t = true) {e : Nat × β} :
    e ∈ t ↔ e.2 ≠ d ∧ Table.read d t e.1 = e.2 := by
  induction t with
  | nil => simp [Table.read, eq_comm]
  | cons x t ih =>
    obtain ⟨hbelow, hx, ht⟩ := Table.wf_cons.mp h
    rw [List.mem_cons, ih ht, Table.read]
    by_cases hkey : x.1 = e.1
    · have hdefault : Table.read d t e.1 = d := Table.read_of_lt (hkey ▸ hbelow)
      rw [if_pos hkey, hdefault, Prod.ext_iff]
      constructor
      · rintro (⟨-, hvalue⟩ | ⟨hne, heq⟩)
        · exact ⟨hvalue ▸ hx, hvalue.symm⟩
        · exact absurd heq.symm hne
      · rintro ⟨-, hvalue⟩
        exact .inl ⟨hkey.symm, hvalue.symm⟩
    · have hne : e ≠ x := fun heq => hkey (heq ▸ rfl)
      rw [if_neg hkey, or_iff_right hne]

/-- Canonical tables with the same contents have the same entries, in the one order of their
keys. -/
theorem Table.eq_of_read_eq {t u : List (Nat × β)} (ht : Table.wf d t = true)
    (hu : Table.wf d u = true) (h : ∀ k, Table.read d t k = Table.read d u k) : t = u := by
  have hasymm : Std.Asymm fun a b : Nat × β => a.1 < b.1 := ⟨fun _ _ => Nat.lt_asymm⟩
  refine (Table.wf_iff.mp ht).1.eq_of_mem_iff (Table.wf_iff.mp hu).1 fun e => ?_
  rw [Table.mem_iff ht, Table.mem_iff hu, h]

end

/-- Settles O34: a memory is a canonical table of bytes. -/
theorem equalContentsEqualMemory : Obligations.EqualContentsEqualMemory :=
  fun _ _ => Table.eq_of_read_eq

end Sys2Proof.Machine
end

section
/-! Launch (`70_reset_and_hazards.md` R370; `10_state.md` R21, R40; `00_scope.md` R3): the zeros of
the launched state, and its parameters. -/
namespace Sys2Proof.Machine

/-- Settles O44: `x0` reads as zero by `State.xval_zero`; a write to it gives the state back. -/
theorem zeroRegister : Obligations.ZeroRegister :=
  fun s _ => ⟨s.xval_zero, rfl⟩

section
variable (cfg : Config)

theorem xval_launch (r : Reg) : (State.launch cfg).xval r = 0 := by
  by_cases hr : r = 0
  · exact hr ▸ State.xval_zero _
  · rw [State.xval_eq _ hr]
    simp [State.launch]

theorem fget_launch (r : Reg) : (State.launch cfg).fget r = 0 := by
  simp [State.fget, State.launch]

theorem csrVal_launch (c : CsrNum) : (State.launch cfg).csrVal c = 0 := by
  simp [State.csrVal, State.csrGet, State.launch, Csrs.read, Table.read, Csrs.unlisted]

theorem byteAt_launch (a : Nat) : (State.launch cfg).byteAt a = 0 := rfl

end

/-- Settles O51: the launched values, one lemma for each view. -/
theorem launchState : Obligations.LaunchState := fun cfg =>
  ⟨rfl, rfl, xval_launch cfg, fget_launch cfg, csrVal_launch cfg, byteAt_launch cfg⟩

/-- A launch within its width and at an even address meets the invariant (`70_reset_and_hazards.md`
R371). -/
theorem inv_launch {cfg : Config} (hwidth : cfg.resetPc.toNat < 2 ^ cfg.xlen.bits)
    (heven : cfg.resetPc.toNat % 2 = 0) : (State.launch cfg).Inv where
  memCanonical := Table.wf_nil
  memInSpace := nofun
  csrsCanonical := Table.wf_nil
  csrsInSpace := nofun
  zeroRegister := by simp [State.launch]
  xWidth := by simp [State.launch]
  fWidth := by simp [State.launch]
  pcWidth := hwidth
  pcEven := heven

/-- Settles O49: the default `RESET_PC` is even and narrow. -/
theorem resetStateMeetsInvariant : Obligations.ResetStateMeetsInvariant :=
  inv_launch (cfg := launchConfig) (by decide) (by decide)

/-- Settles O52: the default launch, and a list of CSR kinds without entries. -/
theorem resetParameters : Obligations.ResetParameters :=
  ⟨rfl, rfl, rfl, rfl, rfl, rfl, rfl, rfl, rfl, fun _ => rfl⟩

end Sys2Proof.Machine
end

section
/-! `fabs.d` and `fabs.s` (`48_pseudo.md` R320, R322, R323): the bits, and the effect recorded. -/
namespace Sys2Proof.Machine

/-! ## The bits -/

/-- A value with all bits from bit `n` on cleared. -/
theorem toNat_zero_append_low {w : Nat} (n : Nat) (v : BitVec w) :
    (0#1 ++ v.extractLsb' 0 n).toNat = v.toNat % 2 ^ n := by
  simp [BitVec.toNat_append, BitVec.extractLsb'_toNat]

theorem fabsDBits_eq (v : BitVec 64) : fabsDBits v = BitVec.ofNat 64 (v.toNat % 2 ^ 63) := by
  rw [fabsDBits, ← toNat_zero_append_low, BitVec.ofNat_toNat]
  exact (BitVec.setWidth_eq _).symm

/-- The upper half is all ones, in numbers: the value is boxed (`10_state.md` R31). -/
theorem boxed_iff (v : BitVec 64) :
    v.extractLsb' 32 32 = BitVec.allOnes 32 ↔ v.toNat / 2 ^ 32 = 2 ^ 32 - 1 := by
  have hv := v.isLt
  rw [← BitVec.toNat_inj, BitVec.extractLsb'_toNat, BitVec.toNat_allOnes,
    Nat.shiftRight_eq_div_pow]
  omega

section
variable {cfg : Config} (v : BitVec 64)

/-- Where the spec defines the bits of `fabs.s`: at `FLEN = 32`, and on a boxed value. -/
theorem fabsSBits_of_defined (hF : cfg.hasF = true)
    (h : cfg.hasD = true → v.toNat / 2 ^ 32 = 2 ^ 32 - 1) :
    fabsSBits cfg v = some (nanBox cfg (0#1 ++ v.extractLsb' 0 31)) := by
  refine if_neg ?_
  rintro (hnone | ⟨hflen, hupper⟩)
  · exact Bool.noConfusion (hnone.symm.trans hF)
  · cases hD : cfg.hasD with
    | true => exact hupper ((boxed_iff v).mpr (h hD))
    | false => exact absurd hflen (by rw [flenOf_of_hasF hF hD]; decide)

theorem fabsSBits_of_not_boxed (hD : cfg.hasD = true) (h : v.toNat / 2 ^ 32 ≠ 2 ^ 32 - 1) :
    fabsSBits cfg v = none :=
  if_pos (.inr ⟨flenOf_of_hasD hD, mt (boxed_iff v).mp h⟩)

/-- What an f register keeps of the defined bits. -/
theorem setWidth_flenOf_fabsS (hF : cfg.hasF = true) :
    ((nanBox cfg (0#1 ++ v.extractLsb' 0 31)).setWidth (flenOf cfg)).setWidth 64 =
      BitVec.ofNat 64 ((if cfg.hasD then 2 ^ 64 - 2 ^ 32 else 0) + v.toNat % 2 ^ 31) := by
  have hbits := setWidth_flenOf_nanBox hF (0#1 ++ v.extractLsb' 0 31)
  rwa [toNat_zero_append_low] at hbits

end

/-! ## The effects -/

/-- Writing one f register, `pc` left where it is. -/
theorem recordsF_fset {s : State} {rd : Reg} {b v : BitVec 64}
    (h : (b.setWidth (flenOf s.cfg)).setWidth 64 = v) : RecordsF (some (s.fset rd b)) s rd v :=
  ⟨_, rfl, by rw [State.fget_fset, if_pos rfl, h], (ChangesOnly.refl s [] [] [] []).fset rd b⟩

section
variable {s : State} {rd rs1 : Reg}

theorem fabsDEffect_records (hD : s.cfg.hasD = true) :
    RecordsF (fabsDEffect rd rs1 s) s rd (BitVec.ofNat 64 ((s.fget rs1).toNat % 2 ^ 63)) := by
  rw [fabsDEffect, if_pos hD, ← fabsDBits_eq]
  exact recordsF_fset (setWidth_flenOf_of_hasD hD _)

theorem fabsSEffect_records_defined {free : BitVec 64} (hF : s.cfg.hasF = true)
    (h : s.cfg.hasD = true → (s.fget rs1).toNat / 2 ^ 32 = 2 ^ 32 - 1) :
    RecordsF (fabsSEffect rd rs1 free s) s rd
      (BitVec.ofNat 64 ((if s.cfg.hasD then 2 ^ 64 - 2 ^ 32 else 0) +
        (s.fget rs1).toNat % 2 ^ 31)) := by
  rw [fabsSEffect, if_pos hF, fabsSBits_of_defined _ hF h]
  exact recordsF_fset (setWidth_flenOf_fabsS _ hF)

theorem fabsSEffect_records_free {free : BitVec 64} (hF : s.cfg.hasF = true)
    (hD : s.cfg.hasD = true) (h : (s.fget rs1).toNat / 2 ^ 32 ≠ 2 ^ 32 - 1) :
    RecordsF (fabsSEffect rd rs1 free s) s rd free := by
  rw [fabsSEffect, if_pos hF, fabsSBits_of_not_boxed _ hD h]
  exact recordsF_fset (setWidth_flenOf_of_hasD hD free)

/-- The cases of R323: at `FLEN = 32`, boxed, and not boxed. -/
theorem fabsSEffect_records (free : BitVec 64) (hF : s.cfg.hasF = true) :
    RecordsF (fabsSEffect rd rs1 free s) s rd
      (if s.cfg.hasD = false then BitVec.ofNat 64 ((s.fget rs1).toNat % 2 ^ 31)
      else if (s.fget rs1).toNat / 2 ^ 32 = 2 ^ 32 - 1 then
        BitVec.ofNat 64 (2 ^ 64 - 2 ^ 32 + (s.fget rs1).toNat % 2 ^ 31)
      else free) := by
  cases hD : s.cfg.hasD with
  | false =>
    have hdefined : s.cfg.hasD = true → (s.fget rs1).toNat / 2 ^ 32 = 2 ^ 32 - 1 :=
      fun h => Bool.noConfusion (hD.symm.trans h)
    have hrecords := fabsSEffect_records_defined (rd := rd) (free := free) hF hdefined
    rwa [hD, if_neg Bool.false_ne_true, Nat.zero_add] at hrecords
  | true =>
    rw [if_neg Bool.noConfusion]
    by_cases hboxed : (s.fget rs1).toNat / 2 ^ 32 = 2 ^ 32 - 1
    · have hrecords := fabsSEffect_records_defined (rd := rd) (free := free) hF fun _ => hboxed
      rw [if_pos hboxed]
      rwa [if_pos hD] at hrecords
    · rw [if_neg hboxed]
      exact fabsSEffect_records_free hF hD hboxed

end

/-- Settles O53: each effect with its extension, and none without. -/
theorem fabsEffects : Obligations.FabsEffects := by
  intro s rd rs1 free v
  refine ⟨rfl, rfl, ?double, ?single⟩
  case double =>
    split
    · next hD => exact fabsDEffect_records hD
    · next hD => exact if_neg hD
  case single =>
    split
    · next hF => exact fabsSEffect_records free hF
    · next hF => exact if_neg hF

end Sys2Proof.Machine
end
